-- ==== Sys2Proof/Word.lean ====
section
/-! DEFINITION. The data the engine moves: 32-bit words of the host stream, binary32 data, and the small fixed-size
collections and name sets the spec uses. Operations on binary32 data are in Machine/Float.lean. -/

namespace Sys2Proof

/-- A word of the host command stream (R130): 32 bits, bit 0 the least significant (R13). -/
abbrev Word := BitVec 32

/-- A byte of a serialised word (R105). -/
abbrev Byte := BitVec 8

/-- A binary32 DATUM (R9). `fin neg mag` is the finite datum whose sign bit is `neg` and whose bits 30:0 are `mag`
(so `fin true 0` is -0.0, and magnitudes are ordered as numbers); `inf neg` is an infinity. `nan` is every NaN pattern
at once: the spec gives no rule that reads a NaN's sign or payload and IEEE 754 leaves them open, so the model does not
hold them (assumption 3: DESIGN CHOICE, safe). -/
inductive F32 where
  | nan
  | inf (neg : Bool)
  | fin (neg : Bool) (mag : Fin 0x7F800000)
deriving DecidableEq, Repr, Inhabited

namespace F32

/-- +0.0, the value every signal-history element resets to (R44). -/
def zero : F32 := .fin false ⟨0, by decide⟩

/-- 1.0 (bit pattern 0x3F800000). -/
def one : F32 := .fin false ⟨0x3F800000, by decide⟩

/-- Neither NaN nor an infinity (R17). -/
def isFinite : F32 → Bool
  | .fin _ _ => true
  | _ => false

/-- NaN or not. -/
def isNaN : F32 → Bool
  | .nan => true
  | _ => false

/-- +0.0 or -0.0: the two data whose real value is 0. -/
def isZero : F32 → Bool
  | .fin _ m => m.val == 0
  | _ => false

/-- The datum with the other sign; there is one NaN, so NaN stays NaN. -/
def neg : F32 → F32
  | .nan => .nan
  | .inf s => .inf (!s)
  | .fin s m => .fin (!s) m

/-- `abs(x)` clears the sign bit (R17). -/
def abs : F32 → F32
  | .nan => .nan
  | .inf _ => .inf false
  | .fin _ m => .fin false m

/-- Where a datum stands on the number line: NaN nowhere, otherwise the signed magnitude. Both zeros stand at 0. -/
def key : F32 → Option Int
  | .nan => none
  | .inf s => some (if s then -0x7F800000 else 0x7F800000)
  | .fin s m => some (if s then -(m.val : Int) else (m.val : Int))

/-- `a < b`; false when either is NaN (unordered, R9). -/
def lt (a b : F32) : Bool :=
  match a.key, b.key with
  | some x, some y => decide (x < y)
  | _, _ => false

/-- `a ≤ b`; false when either is NaN (unordered, R9). -/
def le (a b : F32) : Bool :=
  match a.key, b.key with
  | some x, some y => decide (x ≤ y)
  | _, _ => false

end F32

/-- One value per channel, or one stereo frame (R14: L = 0, R = 1; R19: Frame). -/
structure Stereo (α : Type) where
  l : α
  r : α
deriving DecidableEq, Repr

/-- The same operation on each channel. -/
def Stereo.map {α β : Type} (f : α → β) (s : Stereo α) : Stereo β := ⟨f s.l, f s.r⟩

/-- The same two-operand operation on each channel. -/
def Stereo.zip {α β γ : Type} (f : α → β → γ) (s : Stereo α) (t : Stereo β) : Stereo γ := ⟨f s.l t.l, f s.r t.r⟩

/-- The same value on both channels. -/
def Stereo.both {α : Type} (a : α) : Stereo α := ⟨a, a⟩

/-- The eight ShepardTone voices (`SH_V` = 8, R8), i = 0 … 7. -/
structure Oct (α : Type) where
  v0 : α
  v1 : α
  v2 : α
  v3 : α
  v4 : α
  v5 : α
  v6 : α
  v7 : α
deriving DecidableEq, Repr

def Oct.map {α β : Type} (f : α → β) (o : Oct α) : Oct β :=
  ⟨f o.v0, f o.v1, f o.v2, f o.v3, f o.v4, f o.v5, f o.v6, f o.v7⟩

def Oct.zip {α β γ : Type} (f : α → β → γ) (o : Oct α) (p : Oct β) : Oct γ :=
  ⟨f o.v0 p.v0, f o.v1 p.v1, f o.v2 p.v2, f o.v3 p.v3, f o.v4 p.v4, f o.v5 p.v5, f o.v6 p.v6, f o.v7 p.v7⟩

def Oct.all {α : Type} (a : α) : Oct α := ⟨a, a, a, a, a, a, a, a⟩

/-- In ascending voice order. -/
def Oct.toList {α : Type} (o : Oct α) : List α := [o.v0, o.v1, o.v2, o.v3, o.v4, o.v5, o.v6, o.v7]

/-- The oversampling history of one channel (R46): `h3` the newest sample, `h0` the oldest. -/
structure Hist where
  h0 : F32
  h1 : F32
  h2 : F32
  h3 : F32
deriving DecidableEq, Repr

/-- A position of a three-position switch (R135), and a stored selection code: 0, 1 or 2. Code 3 is no value of the
engine (R34, R143), so this type has none. -/
inductive SwPos where
  | p0
  | p1
  | p2
deriving DecidableEq, Repr

/-- One value per switch code. -/
structure Tri (α : Type) where
  a0 : α
  a1 : α
  a2 : α
deriving DecidableEq, Repr

def Tri.at {α : Type} (t : Tri α) : SwPos → α
  | .p0 => t.a0
  | .p1 => t.a1
  | .p2 => t.a2

/-- The four effect modes (R2, R145): 0 FilterDrive, 1 SpaceEcho, 2 ShimmerReverb, 3 ShepardTone. -/
inductive Mode where
  | fd
  | se
  | sr
  | sh
deriving DecidableEq, Repr

/-- One value per mode (the tables `G_IN` and `G_LIM`, R40). -/
structure Quad (α : Type) where
  fd : α
  se : α
  sr : α
  sh : α
deriving DecidableEq, Repr

def Quad.at {α : Type} (q : Quad α) : Mode → α
  | .fd => q.fd
  | .se => q.se
  | .sr => q.sr
  | .sh => q.sh

/-- The ModeSwitcher's machine state (R35): 0 Steady, 1 FadingOut, 2 FadingIn. Value 3 is never held (R35, I10), so
this type has none. -/
inductive XfState where
  | steady
  | fadingOut
  | fadingIn
deriving DecidableEq, Repr

end Sys2Proof
end

