-- ==== Sys2Proof/Machine/Float.lean ====
section
/-! DEFINITION. Binary32 arithmetic (00_scope.md R9, R10, R12, R17): every operation computes the exact result and rounds it
once to nearest, ties to even; subnormals are kept; nothing is fused. A finite datum is an integer number of UNITS of
2^-149 (the smallest subnormal), so exact results are integers or ratios of integers of that unit. -/

namespace Sys2Proof

namespace F32

/-- The bit pattern of an infinity without its sign: magnitudes below it are finite. -/
def infMag : Nat := 0x7F800000

/-- The units of 2^-149 in one 1.0: 2^149. -/
def unitsPerOne : Nat := 2 ^ 149

/-- The size of a finite magnitude in units of 2^-149. With `e = mag / 2^23` the exponent field, the value is
`mag` units in the subnormal range and the first normal binade (e ≤ 1), and doubles its step per binade after. -/
def units (mag : Nat) : Nat := (mag - (mag / 2 ^ 23 - 1) * 2 ^ 23) * 2 ^ (mag / 2 ^ 23 - 1)

/-- A finite datum as a signed number of units. -/
def signedUnits (s : Bool) (mag : Nat) : Int := if s then -(units mag : Int) else (units mag : Int)

/-- The integer nearest to `num / den`, ties to the even one. -/
def nearestEven (num den : Nat) : Nat :=
  if 2 * (num % den) > den || (2 * (num % den) == den && num / den % 2 == 1) then num / den + 1 else num / den

/-- How many binades above the finest step the value `num / den` units lies: its step is `2^stepOf` units. -/
def stepOf (num den : Nat) : Nat := Nat.log2 (num / den) - 23

/-- The magnitude of the binary32 datum nearest to `num / den` units (`den > 0`), ties to even. A carry out of the
fraction moves into the exponent field by itself; `infMag` or more means overflow. -/
def roundMag (num den : Nat) : Nat :=
  stepOf num den * 2 ^ 23 + nearestEven num (den * 2 ^ stepOf num den)

/-- A magnitude with a sign; a magnitude out of the finite range is the infinity (R9: overflow to ±Inf). -/
def ofMag (s : Bool) (mag : Nat) : F32 := if h : mag < 0x7F800000 then .fin s ⟨mag, h⟩ else .inf s

/-- Rounds `num / den` units with sign `s` to binary32, to nearest, ties to even (R9). -/
def round (s : Bool) (num den : Nat) : F32 := ofMag s (roundMag num den)

/-- The datum a 32-bit pattern stands for (R137). Every NaN pattern is the one NaN datum (assumption 3). -/
def ofBits (w : Word) : F32 :=
  let mag := w.toNat % 2 ^ 31
  let s := w.toNat / 2 ^ 31 == 1
  if mag ≤ infMag then ofMag s mag else .nan

/-- The bit pattern of a datum. For NaN there is no one pattern; this is the one the spec's own syntax writes (R149
`NAN@k`, 95_test_vectors.md P3). Only the encoder uses this function, never a meaning. -/
def toBits : F32 → Word
  | .nan => 0x7FC00000#32
  | .inf s => if s then 0xFF800000#32 else 0x7F800000#32
  | .fin s m => BitVec.ofNat 32 (m.val + if s then 2 ^ 31 else 0)

/-- The binary32 datum nearest to the decimal constant `num / den` (R9, last sentence). -/
def dec (num den : Nat) : F32 := round false (num * unitsPerOne) den

/-- `i2f(k)`: the integer as binary32 (R12), exact for |k| ≤ 2^24. An integer of 2^128 or more overflows. -/
def ofInt (k : Int) : F32 :=
  if 2 ^ 128 ≤ k.natAbs then .inf (decide (k < 0)) else round (decide (k < 0)) (k.natAbs * unitsPerOne) 1

/-- Addition (R9). An exact zero sum is +0.0 unless both operands are -0.0. -/
def add : F32 → F32 → F32
  | .nan, _ => .nan
  | _, .nan => .nan
  | .inf s, .inf t => if s = t then .inf s else .nan
  | .inf s, .fin _ _ => .inf s
  | .fin _ _, .inf t => .inf t
  | .fin s m, .fin t n =>
    let z := signedUnits s m.val + signedUnits t n.val
    if z = 0 then .fin (s && t) ⟨0, by decide⟩ else round (decide (z < 0)) z.natAbs 1

/-- Subtraction: `a - b = a + (-b)` (R9). -/
def sub (a b : F32) : F32 := a.add b.neg

/-- Multiplication (R9). -/
def mul : F32 → F32 → F32
  | .nan, _ => .nan
  | _, .nan => .nan
  | .inf s, .inf t => .inf (s ^^ t)
  | .inf s, .fin t n => if n.val = 0 then .nan else .inf (s ^^ t)
  | .fin s m, .inf t => if m.val = 0 then .nan else .inf (s ^^ t)
  | .fin s m, .fin t n => round (s ^^ t) (units m.val * units n.val) unitsPerOne

/-- Division (R9): 0/0 and Inf/Inf are NaN, a non-zero finite value over zero is an infinity. -/
def div : F32 → F32 → F32
  | .nan, _ => .nan
  | _, .nan => .nan
  | .inf _, .inf _ => .nan
  | .inf s, .fin t _ => .inf (s ^^ t)
  | .fin s _, .inf t => .fin (s ^^ t) ⟨0, by decide⟩
  | .fin s m, .fin t n =>
    if n.val = 0 then (if m.val = 0 then .nan else .inf (s ^^ t))
    else round (s ^^ t) (units m.val * unitsPerOne) (units n.val)

/-- The integer square root of `n`, found bit by bit from bit `k - 1` down, starting from `r`. -/
def isqrtFrom (n : Nat) : Nat → Nat → Nat
  | 0, r => r
  | k + 1, r => isqrtFrom n k (if (r + 2 ^ k) * (r + 2 ^ k) ≤ n then r + 2 ^ k else r)

/-- The integer square root of a number below 2^428 (every radicand of `sqrt` is below 2^426). -/
def isqrt (n : Nat) : Nat := isqrtFrom n 214 0

/-- Square root (R9). The radicand is brought to units squared; half a unit is added when the root is not exact, which
keeps every rounding decision right since roots of at least 2^74 units have bits to spare. -/
def sqrt : F32 → F32
  | .nan => .nan
  | .inf s => if s then .nan else .inf false
  | .fin s m =>
    if m.val = 0 then .fin s m
    else if s then .nan
    else
      let n := units m.val * unitsPerOne
      let q := isqrt n
      round false (2 * q + if q * q = n then 0 else 1) 2

/-- `floor(x)`: the largest integer value not above x (R17). Zeros, infinities and NaN are their own floor, as
IEEE 754's rounding to an integral value has it (K12). -/
def floor : F32 → F32
  | .nan => .nan
  | .inf s => .inf s
  | .fin s m =>
    if m.val = 0 then .fin s m
    else if s then round true ((units m.val + (unitsPerOne - 1)) / unitsPerOne * unitsPerOne) 1
    else round false (units m.val / unitsPerOne * unitsPerOne) 1

/-- The integer part of a finite non-negative datum, as a natural number (the `i` of R186). -/
def toNat : F32 → Nat
  | .fin false m => units m.val / unitsPerOne
  | _ => 0

/-- The Boolean as a sign: `(i even) ? 1.0 : -1.0` (R370). -/
def signOf (negative : Bool) : F32 := if negative then one.neg else one

end F32

end Sys2Proof
end

