-- ==== Sys2Proof/Config.lean ====
section
/-! DEFINITION. What an instance of the engine fixes: the OPEN numeric parameters of R8 (plain data, held in the state's
`cfg`), and the OPEN functions and external units (R11, R189 to R194, R245 to R248), which are constants with no body,
so that nothing is known of them but the contract the spec lets a model assume. -/

namespace Sys2Proof

/-- A decimal constant `num / den`, where a rule needs both its exact value and the binary32 datum nearest to it. -/
structure Decimal where
  num : Nat
  den : Nat
deriving DecidableEq, Repr

/-- The binary32 datum nearest to a decimal constant (R9). -/
def Decimal.f32 (d : Decimal) : F32 := .dec d.num d.den

/-- The parameters of R8 whose value the source gives with "~", "≈" or "-ish" (D43): arguments of the model with the
nominal value as default (I14; assumption 30). `({} : Approx)` is the nominal setting. -/
structure Approx where
  /-- `FD_GATE_T`: 10^(-54/20) (assumption 11). -/
  fdGateT : F32 := .ofBits 0x3B02C2F2#32
  /-- `SE_FLUT_HZ`. -/
  seFlutHz : F32 := .dec 25 10
  /-- `SE_DRIFT_HZ`. -/
  seDriftHz : F32 := .dec 2 10
  /-- `SE_R_OFFSET`, seconds. -/
  seROffset : F32 := .dec 15 1000
  /-- `SE_COMP_T`: 10^(-10/20) (assumption 11). -/
  seCompT : F32 := .ofBits 0x3EA1E89B#32
  /-- `SE_COMP_RHO`. -/
  seCompRho : F32 := .dec 66 100
  /-- `SR_PREDELAY`, seconds. -/
  srPredelay : Decimal := ⟨40, 1000⟩
  /-- `SR_COMP_T`. -/
  srCompT : F32 := .dec 4 10
  /-- `SR_COMP_RHO`. -/
  srCompRho : F32 := .dec 66 100
deriving DecidableEq, Repr

/-- The numeric parameters of R8 that are OPEN or nominal. Values the source states are normative and stand where the rules
use them.
The opaque unit settings (`SE_REV_CFG`, `SH_REV_CFG`, `SR_SHIFT_CFG`) are numbers that name a setting. -/
structure Cfg where
  /-- `FS`, the sample rate in Hz. -/
  fs : Nat
  /-- `N`, frames per block. -/
  n : Nat
  /-- `W`, the stereo-width coefficient (R40). -/
  w : F32
  /-- `G_IN[m]`, input gains (R40). -/
  gIn : Quad F32
  /-- `G_LIM[m]`, limiter pregains (R40). -/
  gLim : Quad F32
  /-- `LIM_CEIL`. -/
  limCeil : F32
  /-- `XF_STEP`. -/
  xfStep : F32
  /-- `AUX_RES`. -/
  auxRes : F32
  /-- `FD_AA_FC`. -/
  fdAaFc : F32
  /-- `FD_AA_RES`. -/
  fdAaRes : F32
  /-- `FD_WARM_KP`. -/
  fdWarmKp : F32
  /-- `FD_WARM_KN`. -/
  fdWarmKn : F32
  /-- `FD_FOLD_G[1..3]`. -/
  fdFoldG : Tri F32
  /-- `SE_BAND_LO[b]`, seconds. -/
  seBandLo : Tri F32
  /-- `SE_BAND_HI[b]`, seconds. -/
  seBandHi : Tri F32
  /-- `SE_FLUT_DEPTH`. -/
  seFlutDepth : F32
  /-- `SE_NOISE_DEPTH`. -/
  seNoiseDepth : F32
  /-- `SE_DRIFT_DEPTH`. -/
  seDriftDepth : F32
  /-- `SE_TONE_LP[t]`. -/
  seToneLp : Tri F32
  /-- `SE_TONE_HP[t]`. -/
  seToneHp : Tri F32
  /-- `SE_COMP_W`. -/
  seCompW : F32
  /-- `SE_COMP_ATT`. -/
  seCompAtt : F32
  /-- `SE_COMP_REL`. -/
  seCompRel : F32
  /-- `SE_SAT_GP`. -/
  seSatGp : F32
  /-- `SE_SAT_GN`. -/
  seSatGn : F32
  /-- `SE_REV_CFG`. -/
  seRevCfg : Nat
  /-- `SR_REV_DAMP[t]`. -/
  srRevDamp : Tri F32
  /-- `SR_AR_FC`. -/
  srArFc : F32
  /-- `SR_PITCH_SMOOTH`. -/
  srPitchSmooth : F32
  /-- `SR_TONE_LP[t]`. -/
  srToneLp : Tri F32
  /-- `SR_DC_R`. -/
  srDcR : F32
  /-- `SR_COMP_W`. -/
  srCompW : F32
  /-- `SR_COMP_ATT`. -/
  srCompAtt : F32
  /-- `SR_COMP_REL`. -/
  srCompRel : F32
  /-- `SR_SHIFT_CFG`. -/
  srShiftCfg : Nat
  /-- `SH_RANGE_B[r]`. -/
  shRangeB : Tri F32
  /-- `SH_PAN_RATE`. -/
  shPanRate : F32
  /-- `SH_PAN_DEPTH`. -/
  shPanDepth : F32
  /-- `SH_PAN_OFF`. -/
  shPanOff : F32
  /-- `SH_TONE_DETUNE`. -/
  shToneDetune : F32
  /-- `SH_REV_CFG`. -/
  shRevCfg : Nat
  /-- The nominal values and their overrides (I14). -/
  approx : Approx := {}
deriving DecidableEq, Repr

/-- Every binary32 parameter, in R8's order. -/
def Cfg.numbers (c : Cfg) : List F32 :=
  [c.w, c.gIn.fd, c.gIn.se, c.gIn.sr, c.gIn.sh, c.gLim.fd, c.gLim.se, c.gLim.sr, c.gLim.sh, c.limCeil, c.xfStep,
    c.auxRes] ++
  [c.fdAaFc, c.fdAaRes, c.fdWarmKp, c.fdWarmKn, c.fdFoldG.a0, c.fdFoldG.a1, c.fdFoldG.a2] ++
  [c.seBandLo.a0, c.seBandLo.a1, c.seBandLo.a2, c.seBandHi.a0, c.seBandHi.a1, c.seBandHi.a2, c.seFlutDepth,
    c.seNoiseDepth, c.seDriftDepth, c.seToneLp.a0, c.seToneLp.a1, c.seToneLp.a2, c.seToneHp.a0, c.seToneHp.a1,
    c.seToneHp.a2, c.seCompW, c.seCompAtt, c.seCompRel, c.seSatGp, c.seSatGn] ++
  [c.srRevDamp.a0, c.srRevDamp.a1, c.srRevDamp.a2, c.srArFc, c.srPitchSmooth, c.srToneLp.a0, c.srToneLp.a1,
    c.srToneLp.a2, c.srDcR, c.srCompW, c.srCompAtt, c.srCompRel] ++
  [c.shRangeB.a0, c.shRangeB.a1, c.shRangeB.a2, c.shPanRate, c.shPanDepth, c.shPanOff, c.shToneDetune] ++
  [c.approx.fdGateT, c.approx.seFlutHz, c.approx.seDriftHz, c.approx.seROffset, c.approx.seCompT, c.approx.seCompRho,
    c.approx.srPredelay.f32, c.approx.srCompT, c.approx.srCompRho]

/-- The constraints R8 and the rules put on an instance: `FS` and `N` positive, `0 < LIM_CEIL ≤ 1`,
`1e-6 < XF_STEP ≤ 1` (R407), the fold gains strictly increasing, the Warm knees and the saturation gains different, the
transposition coefficient in (0, 1] (R180), the pre-delay at least 2 samples (R548: at its nominal value `FS ≥ 50`), the
compressor thresholds positive levels and the slopes below 1 (R189; assumption 30), and every number finite (R184, R186:
"finite mapped values"; assumption 6). What the units must support is `Cfg.InRange`. -/
def Cfg.ok (c : Cfg) : Bool :=
  decide (0 < c.fs) && decide (0 < c.n) &&
  F32.zero.lt c.limCeil && c.limCeil.le F32.one &&
  (F32.dec 1 1000000).lt c.xfStep && c.xfStep.le F32.one &&
  c.fdFoldG.a0.lt c.fdFoldG.a1 && c.fdFoldG.a1.lt c.fdFoldG.a2 &&
  decide (c.fdWarmKp ≠ c.fdWarmKn) && decide (c.seSatGp ≠ c.seSatGn) &&
  F32.zero.lt c.srPitchSmooth && c.srPitchSmooth.le F32.one &&
  decide (0 < c.approx.srPredelay.den) &&
  decide (2 * c.approx.srPredelay.den ≤ c.approx.srPredelay.num * c.fs) &&
  F32.zero.lt c.approx.seCompT && F32.zero.lt c.approx.srCompT &&
  c.approx.seCompRho.lt F32.one && c.approx.srCompRho.lt F32.one &&
  c.numbers.all F32.isFinite

/-- The reference instantiation `P_ref` of R8 and 95_test_vectors.md section 1: the spec's own choice for its test
vectors, "not a claim about the hardware". Only tests and witnesses use it, and the type below that has to have one
member. -/
def Cfg.pRef : Cfg where
  fs := 48000
  n := 48
  w := .dec 25 100
  gIn := ⟨.one, .one, .one, .one⟩
  gLim := ⟨.one, .one, .one, .one⟩
  limCeil := .one
  xfStep := .dec 5 100
  auxRes := .zero
  fdAaFc := .dec 16000 1
  fdAaRes := .zero
  fdWarmKp := .one
  fdWarmKn := .dec 7 10
  fdFoldG := ⟨.dec 15 10, .dec 2 1, .dec 3 1⟩
  seBandLo := ⟨.dec 5 100, .dec 20 100, .dec 50 100⟩
  seBandHi := ⟨.dec 25 100, .dec 70 100, .dec 180 100⟩
  seFlutDepth := .dec 5 10000
  seNoiseDepth := .dec 2 1000000
  seDriftDepth := .dec 2 1000
  seToneLp := ⟨.dec 8000 1, .dec 5000 1, .dec 2500 1⟩
  seToneHp := ⟨.dec 120 1, .dec 100 1, .dec 80 1⟩
  seCompW := .zero
  seCompAtt := .dec 1 100
  seCompRel := .dec 1 1000
  seSatGp := .dec 12 10
  seSatGn := .dec 9 10
  seRevCfg := 1
  srRevDamp := ⟨.dec 10000 1, .dec 6000 1, .dec 3000 1⟩
  srArFc := .dec 200 1
  srPitchSmooth := .dec 5 100
  srToneLp := ⟨.dec 9000 1, .dec 6000 1, .dec 3500 1⟩
  srDcR := .dec 995 1000
  srCompW := .zero
  srCompAtt := .dec 1 100
  srCompRel := .dec 1 1000
  srShiftCfg := 1
  shRangeB := ⟨.dec 5 10, .one, .dec 2 1⟩
  shPanRate := .dec 1 10
  shPanDepth := .dec 2 10
  shPanOff := .dec 25 100
  shToneDetune := .dec 3 100
  shRevCfg := 1

/-! A member of each contract below: Lean wants to see that a contract can be met before it lets a constant of that type
stand. These functions are only that; no constant below is known to be one of them. -/

def Member.tanh : F32 → F32
  | .nan => .nan
  | .inf s => F32.signOf s
  | .fin s _ => .fin s ⟨0, by decide⟩

def Member.sin (x : F32) : F32 := if x.isFinite then .zero else .nan

def Member.exp2 (x : F32) : F32 := if x.isNaN then .nan else .one

def Member.pow (x y : F32) : F32 := if x.isNaN || y.isNaN then .nan else .one

def Member.fold : F32 → F32
  | .nan => .nan
  | .inf s => .inf s
  | .fin s _ => .fin s ⟨0, by decide⟩

def Member.warm (_ _ u : F32) : F32 := if F32.zero.lt u then .one else .zero

theorem Member.warm_bounded {kp kn : F32} (u : F32) : (Member.warm kp kn u).isFinite = true := by
  unfold Member.warm; split <;> rfl

theorem Member.warm_monotone (kp kn u v : F32) (_ : u.isFinite = true) (_ : v.isFinite = true) (h : u.le v = true) :
    (Member.warm kp kn u).le (Member.warm kp kn v) = true := by
  unfold Member.warm
  cases hu : F32.zero.lt u
  · cases F32.zero.lt v <;> rfl
  · have hv : F32.zero.lt v = true := by
      rcases u with _ | s | ⟨s, m⟩ <;> rcases v with _ | t | ⟨t, n⟩ <;> simp_all [F32.lt, F32.le, F32.key, F32.zero] <;> omega
    rw [hv]; rfl

theorem Member.warm_asymmetric {kp kn : F32} (u : F32) (_ : u.isFinite = true) (h : F32.one.le u = true) :
    ((Member.warm kp kn u.neg).lt (Member.warm kp kn u).neg || (Member.warm kp kn u).neg.lt (Member.warm kp kn u.neg)) =
      true := by
  have hp : F32.zero.lt u = true := by
    rcases u with _ | s | ⟨s, m⟩ <;> simp_all [F32.lt, F32.le, F32.key, F32.zero, F32.one] <;> omega
  have hn : F32.zero.lt u.neg = false := by
    rcases u with _ | s | ⟨s, m⟩
    · cases h
    · cases s <;> simp_all [F32.lt, F32.key, F32.zero, F32.neg]
    · cases s
      · simp [F32.lt, F32.key, F32.zero, F32.neg]
      · have : (m : Int) < 0 := by simpa [F32.lt, F32.key, F32.zero] using hp
        omega
  simp only [Member.warm, hp, hn]; decide

theorem Member.tanh_odd (x : F32) : Member.tanh x.neg = (Member.tanh x).neg := by
  rcases x with _ | s | ⟨s, m⟩
  · rfl
  · cases s <;> rfl
  · rfl

theorem Member.tanh_bound (x : F32) (h : x.isFinite = true) :
    F32.one.neg.le (Member.tanh x) = true ∧ (Member.tanh x).le .one = true := by
  rcases x with _ | s | ⟨s, m⟩
  · cases h
  · cases h
  · cases s <;> exact ⟨rfl, rfl⟩

theorem Member.sin_bound (x : F32) (h : x.isFinite = true) :
    F32.one.neg.le (Member.sin x) = true ∧ (Member.sin x).le .one = true := by
  simp only [Member.sin, h, if_true]; exact ⟨rfl, rfl⟩

theorem Member.sin_nonfinite (x : F32) (h : x.isFinite = false) : Member.sin x = .nan := by simp [Member.sin, h]

theorem F32.isNaN_of_isFinite (x : F32) (h : x.isFinite = true) : x.isNaN = false := by
  rcases x with _ | s | ⟨s, m⟩
  · cases h
  · rfl
  · rfl

theorem F32.isNaN_of_isZero (x : F32) (h : x.isZero = true) : x.isNaN = false := by
  rcases x with _ | s | ⟨s, m⟩
  · cases h
  · rfl
  · rfl

theorem F32.isNaN_of_le (x y : F32) (h : x.le y = true) : x.isNaN = false ∧ y.isNaN = false := by
  rcases x with _ | s | ⟨s, m⟩ <;> rcases y with _ | t | ⟨t, n⟩ <;> simp_all [F32.le, F32.key, F32.isNaN]

theorem Member.pow_one (x y : F32) (hx : x.isNaN = false) (hy : y.isNaN = false) : Member.pow x y = .one := by
  simp [Member.pow, hx, hy]

theorem Member.pow_unit (x y : F32) (hx : x.isFinite = true) (_ : F32.zero.lt x = true) (hy : F32.zero.le y = true)
    (_ : y.le .one = true) : (Member.pow x y).isFinite = true ∧ F32.zero.lt (Member.pow x y) = true := by
  rw [Member.pow_one x y (F32.isNaN_of_isFinite x hx) (F32.isNaN_of_le _ y hy).2]; exact ⟨rfl, rfl⟩

theorem Member.pow_nan (x y : F32) (h : x.isNaN = true ∨ y.isNaN = true) (_ : y.isZero = false) :
    Member.pow x y = .nan := by
  rcases h with h | h <;> simp [Member.pow, h]

theorem Member.exp2_one (x : F32) (h : x.isNaN = false) : Member.exp2 x = .one := by simp [Member.exp2, h]

theorem Member.fold_odd (u : F32) (_ : u.isNaN = false) : Member.fold u.neg = (Member.fold u).neg := by
  rcases u with _ | s | ⟨s, m⟩ <;> rfl

theorem Member.fold_bound (u : F32) (h1 : (F32.dec 5 1).neg.le u = true) (h2 : u.le (F32.dec 5 1) = true) :
    F32.one.neg.le (Member.fold u) = true ∧ (Member.fold u).le .one = true := by
  rcases u with _ | s | ⟨s, m⟩
  · exact absurd (F32.isNaN_of_le _ _ h1).2 (by decide)
  · cases s
    · exact absurd h2 (by decide +kernel)
    · exact absurd h1 (by decide +kernel)
  · cases s <;> exact ⟨rfl, rfl⟩

theorem Member.zero_within (ceil : F32) (h : F32.zero.lt ceil = true) : F32.zero.abs.le ceil = true := by
  rcases ceil with _ | s | ⟨s, m⟩ <;> simp_all [F32.lt, F32.le, F32.key, F32.zero, F32.abs] <;> omega

/-- `MATH` (R11): total functions from binary32 to binary32 of which "a model assumes only these properties". R11 says
both `pow(x, 0) = 1` for every x and NaN for any NaN argument: `pow(NaN, 0)` is left free (assumption 19). The value
`sin(0)` is not on R11's list and is left free (assumption 7). -/
structure Math where
  tanh : F32 → F32 := Member.tanh
  sin : F32 → F32 := Member.sin
  cos : F32 → F32 := Member.sin
  exp2 : F32 → F32 := Member.exp2
  pow : F32 → F32 → F32 := Member.pow
  log : F32 → F32 := fun x => x
  tanh_nan : tanh .nan = .nan := by rfl
  tanh_odd : ∀ x, tanh x.neg = (tanh x).neg := by exact Member.tanh_odd
  tanh_zero : tanh .zero = .zero := by rfl
  tanh_inf : tanh (.inf false) = .one := by rfl
  tanh_bound : ∀ x, x.isFinite = true → F32.one.neg.le (tanh x) = true ∧ (tanh x).le .one = true := by
    exact Member.tanh_bound
  sin_bound : ∀ x, x.isFinite = true → F32.one.neg.le (sin x) = true ∧ (sin x).le .one = true := by
    exact Member.sin_bound
  sin_nonfinite : ∀ x, x.isFinite = false → sin x = .nan := by exact Member.sin_nonfinite
  cos_bound : ∀ x, x.isFinite = true → F32.one.neg.le (cos x) = true ∧ (cos x).le .one = true := by
    exact Member.sin_bound
  cos_nonfinite : ∀ x, x.isFinite = false → cos x = .nan := by exact Member.sin_nonfinite
  exp2_zero : ∀ x, x.isZero = true → exp2 x = .one := by
    exact fun x h => Member.exp2_one x (F32.isNaN_of_isZero x h)
  exp2_pos : ∀ x, x.isFinite = true → F32.zero.lt (exp2 x) = true := by
    exact fun x h => by rw [Member.exp2_one x (F32.isNaN_of_isFinite x h)]; rfl
  exp2_nan : exp2 .nan = .nan := by rfl
  pow_zero : ∀ x y, x.isNaN = false → y.isZero = true → pow x y = .one := by
    exact fun x y hx hy => Member.pow_one x y hx (F32.isNaN_of_isZero y hy)
  pow_unit : ∀ x y, x.isFinite = true → F32.zero.lt x = true → F32.zero.le y = true → y.le .one = true →
      (pow x y).isFinite = true ∧ F32.zero.lt (pow x y) = true := by exact Member.pow_unit
  pow_nan : ∀ x y, x.isNaN = true ∨ y.isNaN = true → y.isZero = false → pow x y = .nan := by exact Member.pow_nan
  log_nan : log .nan = .nan := by rfl
deriving Inhabited

opaque Config.math : Math

/-- Which of two operands that compare equal but differ (the two zeros) `min` returns: R17 says "the smaller", which
does not choose (assumption 8: free). -/
opaque Config.minPicksFirst : F32 → F32 → Bool

/-- The same for `max`. -/
opaque Config.maxPicksFirst : F32 → F32 → Bool

/-- `FD_PG(d)`, the drive pre-gain (R245): OPEN. Finite for a drive amount in [0, 1], the range of `fd.drive_sm` (table F):
R245 states no property, and R505 has every stage map finite operands to finite results when the contracts hold
(assumption 9: DEDUCED). -/
structure PreGain where
  f : F32 → F32 := fun _ => .one
  bounded : ∀ d, F32.zero.le d = true → d.le .one = true → (f d).isFinite = true := by exact fun _ _ _ => rfl
deriving Inhabited

opaque Config.fdPg : PreGain

/-- `FD_WARM` (R246) with its knees: zero at zero, non-decreasing and bounded on finite arguments; and where the knees
differ it is asymmetric, `C(-u) ≠ -C(u)` for large u (different numbers, not two zeros; how large is free). The continuity
R246 names says nothing of a function on binary32 data and is left out (assumption 9). -/
structure WarmCurve where
  f : F32 → F32 → F32 → F32 := Member.warm
  at_zero : ∀ kp kn, f kp kn .zero = .zero := by intros; rfl
  monotone : ∀ kp kn u v, u.isFinite = true → v.isFinite = true → u.le v = true →
    (f kp kn u).le (f kp kn v) = true := by exact Member.warm_monotone
  bounded : ∀ kp kn u, u.isFinite = true → (f kp kn u).isFinite = true := by exact fun _ _ u _ => Member.warm_bounded u
  asymmetric : ∀ kp kn, kp ≠ kn → ∃ large : F32, large.isFinite = true ∧ ∀ u, u.isFinite = true → large.le u = true →
    ((f kp kn u.neg).lt (f kp kn u).neg || (f kp kn u).neg.lt (f kp kn u.neg)) = true := by
    exact fun _ _ _ => ⟨.one, rfl, Member.warm_asymmetric⟩
deriving Inhabited

opaque Config.fdWarm : WarmCurve

/-- `FD_FOLD` (R248): odd, zero at zero, values in [-1, 1] on [-5, 5]. DESIGN CHOICE (assumption 33, unsafe): odd is taken
bit for bit, on every number. R248's P_ref fold, computed in binary32, is odd only up to the sign of a zero and to rounding
near ±1.3·2^-24, so it is no member of this contract. -/
structure FoldCurve where
  f : F32 → F32 := Member.fold
  at_zero : f .zero = .zero := by rfl
  odd : ∀ u, u.isNaN = false → f u.neg = (f u).neg := by exact Member.fold_odd
  bounded : ∀ u, (F32.dec 5 1).neg.le u = true → u.le (F32.dec 5 1) = true →
    F32.one.neg.le (f u) = true ∧ (f u).le .one = true := by exact Member.fold_bound
deriving Inhabited

opaque Config.fdFold : FoldCurve

/-- `COMP_KNEE(e, T, ρ, Wk)` (R189): values in (0, 1] at every envelope that is a number. DESIGN CHOICE (assumption 23, safe):
the shape is free, since R189, I8 and I12 make the knee function a parameter, although D26 calls the knee quadratic. -/
structure KneeCurve where
  f : F32 → F32 → F32 → F32 → F32 := fun _ _ _ _ => .one
  bounded : ∀ e t r w, e.isNaN = false → F32.zero.lt (f e t r w) = true ∧ (f e t r w).le .one = true := by
    exact fun _ _ _ _ _ => ⟨rfl, rfl⟩
deriving Inhabited

opaque Config.compKnee : KneeCurve

/-- The three outputs of one state-variable-filter sample (R190). -/
structure Taps where
  low : F32
  band : F32
  high : F32
deriving DecidableEq, Repr

/-- The SVF unit (R190, R199): a deterministic function of its configuration (cutoff and resonance, `none` before the
first configure), its signal state and one sample. A signal state is a number that names it, `init` being 0
(assumption 4). `stable fc res` is its stable range at the instance's sample rate (R199, R550; assumption 35): out of it
nothing is known of the outputs (I1). In it, zero input in the initial signal state gives zeros and stays there. -/
structure SvfUnit where
  process : Option (F32 × F32) → Nat → F32 → Nat × Taps := fun _ s _ => (s, ⟨.zero, .zero, .zero⟩)
  stable : F32 → F32 → Bool := fun _ _ => true
  silent : ∀ cfg : Option (F32 × F32), (∀ p, cfg = some p → stable p.1 p.2 = true) →
    process cfg 0 .zero = (0, ⟨.zero, .zero, .zero⟩) := by intros; rfl
deriving Inhabited

/-- What a reverb instance was last configured with: nothing yet, a preset (`SE_REV_CFG`, `SH_REV_CFG`), or feedback
and damping (R191). -/
inductive RevCfg where
  | unset
  | preset (id : Nat)
  | feedback (fb damp : F32)
deriving DecidableEq, Repr

/-- The REVERB unit (R191, R199). `supports`: the settings in its stable range (I1; assumption 35). `silent`: from `init`,
zero input gives zero output, however long it has lasted and with whichever supported settings. -/
structure ReverbUnit where
  process : RevCfg → Nat → Stereo F32 → Nat × Stereo F32 := fun _ s _ => (s, .both .zero)
  supports : RevCfg → Bool := fun _ => true
  silent : ∀ (before : List RevCfg) (cfg : RevCfg), (∀ c ∈ before, supports c = true) → supports cfg = true →
    (process cfg (before.foldl (fun s c => (process c s (.both .zero)).1) 0) (.both .zero)).2 = .both .zero := by
    intros; rfl
deriving Inhabited

/-- What a shifter instance was last configured with: its transposition in semitones (`none` before the first
configure) and the setting `SR_SHIFT_CFG` (R192). -/
structure ShiftCfg where
  semis : Option F32
  setting : Nat
deriving DecidableEq, Repr

/-- The SHIFTER unit (R192, R199), with `supports` and `silent` as for the reverb. -/
structure ShifterUnit where
  process : ShiftCfg → Nat → F32 → Nat × F32 := fun _ s _ => (s, .zero)
  supports : ShiftCfg → Bool := fun _ => true
  silent : ∀ (before : List ShiftCfg) (cfg : ShiftCfg), (∀ c ∈ before, supports c = true) → supports cfg = true →
    (process cfg (before.foldl (fun s c => (process c s .zero).1) 0) .zero).2 = .zero := by intros; rfl
deriving Inhabited

/-- What R199 and R550 ask of the choice of `FS`, the parameters and the units: everything the engine configures is in the
units' stable ranges. FilterDrive's filters from 5 Hz to `18000 × (1 + 0.05)` at resonances in [0, 1]; the tone, high-pass
and anti-rumble filters at `AUX_RES`; the right ShepardTone filter at the detuned cutoff; the reverbs at their presets and
at feedbacks 0.7 to 0.98; the shifters up to 12 semitones and the detune. -/
structure Cfg.InRange (c : Cfg) (svf : SvfUnit) (reverb : ReverbUnit) (shifter : ShifterUnit) : Prop where
  fdAa : svf.stable c.fdAaFc c.fdAaRes = true
  fdSvf : ∀ fc res, (F32.dec 5 1).le fc = true → fc.le (.dec 18900 1) = true → F32.zero.le res = true →
    res.le .one = true → svf.stable fc res = true
  seTone : ∀ t, svf.stable (c.seToneLp.at t) c.auxRes = true ∧ svf.stable (c.seToneHp.at t) c.auxRes = true
  srHp : ∀ fc, (F32.dec 150 1).le fc = true → fc.le (.dec 500 1) = true → svf.stable fc c.auxRes = true
  srAr : svf.stable c.srArFc c.auxRes = true
  srTone : ∀ t, svf.stable (c.srToneLp.at t) c.auxRes = true
  shTone : ∀ fc, (F32.dec 200 1).le fc = true → fc.le (.dec 12200 1) = true →
    svf.stable fc c.auxRes = true ∧ svf.stable (fc.mul (F32.one.add c.shToneDetune)) c.auxRes = true
  seRev : reverb.supports (.preset c.seRevCfg) = true
  srRev : ∀ fb t, (F32.dec 7 10).le fb = true → fb.le (.dec 98 100) = true →
    reverb.supports (.feedback fb (c.srRevDamp.at t)) = true
  shRev : reverb.supports (.preset c.shRevCfg) = true
  srShift : ∀ p, (F32.dec 12 1).neg.le p = true → p.le (.dec 12 1) = true →
    shifter.supports ⟨some (p.sub (.dec 5 100)), c.srShiftCfg⟩ = true ∧
    shifter.supports ⟨some (p.add (.dec 5 100)), c.srShiftCfg⟩ = true

/-- One instance: its parameters, the three units whose stable ranges the parameters must respect, and the constraints they
meet together (R550: "A model instance must choose FS and the SVF unit so that every one of these is in the unit's stable
range"). -/
structure Params where
  cfg : Cfg := Cfg.pRef
  svf : SvfUnit := default
  reverb : ReverbUnit := default
  shifter : ShifterUnit := default
  ok : cfg.ok = true := by decide +kernel
  inRange : cfg.InRange svf reverb shifter := by
    constructor <;> intros <;> first | rfl | exact ⟨rfl, rfl⟩
deriving Inhabited

/-- THE instance: free (R8 `OPEN`, I14; assumption 2). Nothing is known of it but its constraints. -/
opaque Config.params : Params

abbrev Config.svf : SvfUnit := Config.params.svf

abbrev Config.reverb : ReverbUnit := Config.params.reverb

abbrev Config.shifter : ShifterUnit := Config.params.shifter

/-- A frame both of whose samples are finite. -/
def Stereo.isFinite (f : Stereo F32) : Bool := f.l.isFinite && f.r.isFinite

/-- `abs(y) ≤ c` on both channels. -/
def Stereo.within (c : F32) (f : Stereo F32) : Bool := f.l.abs.le c && f.r.abs.le c

/-- The LIMITER unit (R193, R199), given the ceiling, the pregain, its state and the frames of one block: as many frames
out as in, and within the ceiling when every input frame is finite. For other frames the output is free (I2). -/
structure LimiterUnit where
  process : F32 → F32 → Nat → List (Stereo F32) → Nat × List (Stereo F32) :=
    fun _ _ s fs => (s, fs.map fun _ => .both .zero)
  length : ∀ ceil pregain s fs, (process ceil pregain s fs).2.length = fs.length := by intros; simp
  bounded : ∀ ceil pregain s fs, F32.zero.lt ceil = true → ceil.le .one = true → fs.all Stereo.isFinite = true →
    (process ceil pregain s fs).2.all (Stereo.within ceil) = true := by
    intro ceil _ _ fs h _ _
    simp only [List.all_eq_true, List.mem_map]
    rintro _ ⟨_, _, rfl⟩
    simp [Stereo.within, Stereo.both, Member.zero_within ceil h]
deriving Inhabited

opaque Config.limiter : LimiterUnit

/-- The NOISE generator (R194): the next state and a value in [-1, 1]. The sequence is free (I15). -/
structure NoiseUnit where
  next : Nat → Nat × F32 := fun s => (s, .zero)
  bounded : ∀ s, F32.one.neg.le (next s).2 = true ∧ (next s).2.le .one = true := by
    exact fun _ => ⟨rfl, rfl⟩
deriving Inhabited

opaque Config.noise : NoiseUnit

end Sys2Proof
end

