-- ==== Sys2Proof/Machine/Operands.lean ====
section
/-! DEFINITION. Operand forms: the fields of the command word (R131 to R135), the checks on them (R136, R139), the helper
functions on binary32 operands (R17), the encoder accumulation and the knob mappings (R146, R147, R180, R183, R184). -/

namespace Sys2Proof

namespace F32

/-- `min(x, y)`: the smaller operand, NaN when either is NaN (R17). Of two zeros of different sign it returns the one a
free choice picks (assumption 8). -/
def min (a b : F32) : F32 :=
  if a.isNaN || b.isNaN then .nan
  else if a.lt b then a
  else if b.lt a then b
  else if a = b then a
  else if Config.minPicksFirst a b then a else b

/-- `max(x, y)` (R17), with the same free choice between zeros. -/
def max (a b : F32) : F32 :=
  if a.isNaN || b.isNaN then .nan
  else if a.lt b then b
  else if b.lt a then a
  else if a = b then a
  else if Config.maxPicksFirst a b then a else b

/-- `clamp(x, lo, hi) = min(max(x, lo), hi)` (R17). -/
def clamp (x lo hi : F32) : F32 := (x.max lo).min hi

/-- `wrap01(x)`: the fraction of x in [0, 1), and 0.0 where the fraction rounds to 1.0 (R17). -/
def wrap01 (x : F32) : F32 := if one.le (x.sub x.floor) then zero else x.sub x.floor

/-- `dbfs(v) = pow(10, v / 20)` (R17). -/
def dbfs (v : F32) : F32 := Config.math.pow (dec 10 1) (v.div (dec 20 1))

/-- `semi(s) = exp2(s / 12)` (R17). -/
def semi (s : F32) : F32 := Config.math.exp2 (s.div (dec 12 1))

/-- `-0.0` read as `0.0` (R139, R432). -/
def positiveZero (x : F32) : F32 := if x.isZero then zero else x

/-- `2π`, the binary32 nearest 6.2831853 (R195). -/
def twoPi : F32 := dec 62831853 10000000

end F32

/-! The command word (R131). -/

/-- `OP`, bits 3:0. -/
def cwOp (w : Word) : BitVec 4 := w.extractLsb' 0 4

/-- `SWL`, bits 5:4 (R135). -/
def cwSwl (w : Word) : BitVec 2 := w.extractLsb' 4 2

/-- `SWR`, bits 7:6 (R135). -/
def cwSwr (w : Word) : BitVec 2 := w.extractLsb' 6 2

/-- `PRESS`, bit 8 (R134). -/
def cwPress (w : Word) : Bool := w.getLsbD 8

/-- `RSV`, bits 15:9. -/
def cwRsv (w : Word) : BitVec 7 := w.extractLsb' 9 7

/-- `ENC`, bits 31:16 (R133). -/
def cwEnc (w : Word) : BitVec 16 := w.extractLsb' 16 16

/-- Bits 31:4, which a RESET must have zero (R136). -/
def cwAboveOp (w : Word) : BitVec 28 := w.extractLsb' 4 28

/-- The command word of a BLOCK: `{enc, 0000000, press, swr, swl, 0010}` (R149). -/
def blockWord (enc : BitVec 16) (press : Bool) (swl swr : BitVec 2) : Word :=
  enc ++ (0#7 : BitVec 7) ++ BitVec.ofBool press ++ swr ++ swl ++ (2#4 : BitVec 4)

/-- The command word of a RESET (R149). -/
def resetWord : Word := 1#32

/-- The position a switch code stands for (R135); the reserved code 3 stands for none (R136). -/
def SwPos.ofBits (b : BitVec 2) : Option SwPos :=
  if b = 0#2 then some .p0 else if b = 1#2 then some .p1 else if b = 2#2 then some .p2 else none

/-- Switch code 3 is reserved (R136). -/
def switchOk (b : BitVec 2) : Bool := (SwPos.ofBits b).isSome

/-- A knob value is a number in [0, 1]; -0.0 compares equal to 0.0 and is accepted (R139). -/
def knobInRange (k : F32) : Bool := k.isFinite && F32.zero.le k && k.le F32.one

/-- A knob word holds such a value (R139). -/
def knobOk (w : Word) : Bool := knobInRange (F32.ofBits w)

/-- The 2-bit code of a position (R135). -/
def SwPos.toBits : SwPos → BitVec 2
  | .p0 => 0#2
  | .p1 => 1#2
  | .p2 => 2#2

/-- The 2-bit number of a mode (R145). -/
def Mode.toBits : Mode → BitVec 2
  | .fd => 0#2
  | .se => 1#2
  | .sr => 2#2
  | .sh => 3#2

/-- The successor of a mode: `(m + 1) mod 4` (R145). -/
def Mode.next : Mode → Mode
  | .fd => .se
  | .se => .sr
  | .sr => .sh
  | .sh => .fd

/-- The 2-bit value of the switcher state (R35). -/
def XfState.toBits : XfState → BitVec 2
  | .steady => 0#2
  | .fadingOut => 1#2
  | .fadingIn => 2#2

/-! Control mappings (R146). -/

/-- SMOOTH: `y + c × (t - y)` (R180). -/
def smoothed (y t c : F32) : F32 := y.add (c.mul (t.sub y))

/-- ACC: `clamp(a + step × i2f(e), lo, hi)` (R147, R183). -/
def accumulated (a step lo hi : F32) (e : BitVec 16) : F32 :=
  (a.add (step.mul (.ofInt e.toInt))).clamp lo hi

/-- The encoder step of every mode, 0.05 (R8, R146). -/
def encStep : F32 := .dec 5 100

/-- `maplin(k, a, b) = a + (b - a) × k` (R184). -/
def maplin (k a b : F32) : F32 := a.add ((b.sub a).mul k)

/-- `maplog(k, a, b) = a × pow(b / a, k)` (R184). -/
def maplog (k a b : F32) : F32 := a.mul (Config.math.pow (b.div a) k)

/-- `mapexp(k, a, b) = a × pow(b / a, k)` (R184): the same geometric map. -/
def mapexp (k a b : F32) : F32 := a.mul (Config.math.pow (b.div a) k)

/-! Geometry of the delay lines (R103) and the sample rate. -/

/-- `SE_CAP = 2 · FS + 4` (R103). -/
def Cfg.seCap (c : Cfg) : Nat := 2 * c.fs + 4

/-- `SR_CAP = floor(SR_PREDELAY · FS) + 4` (R103), the product taken exactly (assumption 10): nominally
`floor(0.040 · FS) + 4`. -/
def Cfg.srCap (c : Cfg) : Nat := c.approx.srPredelay.num * c.fs / c.approx.srPredelay.den + 4

/-- `FSf = i2f(FS)`. -/
def Cfg.fsf (c : Cfg) : F32 := .ofInt c.fs

end Sys2Proof
end

