-- ==== Sys2Proof/Syntax.lean ====
section
/-! DEFINITION. The instructions: one constructor per row of the opcode table (30_encoding.md). The two host commands carry
their encoded operands as the raw words and bits of R131 and R137; every other row names an operation on the
engine's own state and carries none. -/

namespace Sys2Proof

inductive Instr where
  -- format CW: the host commands
  /-- RESET (R430). -/
  | reset
  /-- BLOCK (R431): ENC, PRESS, SWL, SWR of the command word, then KTOP, KBOT and the input frames as words (R137). -/
  | block (enc : BitVec 16) (press : Bool) (swl swr : BitVec 2) (ktop kbot : Word) (frames : List (Stereo Word))
  -- mode 0 FilterDrive: formats SEL and STAGE
  | fdUpdate
  | fdProcess
  | fdWarm
  | fdHard
  | fdDestroy
  | fdTapLp
  | fdTapBp
  | fdTapHp
  | fdGate
  | fdAaf
  | fdOs
  | fdDrive
  | fdSvf
  | fdComp
  -- mode 1 SpaceEcho
  | seUpdate
  | seProcess
  | seShort
  | seMed
  | seLong
  | seBright
  | seNormal
  | seDark
  | seMod
  | seRead
  | seFb
  | seWrite
  | seRev
  | seOut
  -- mode 2 ShimmerReverb
  | srUpdate
  | srProcess
  | srUp12
  | srDn12
  | srUp7
  | srBright
  | srNormal
  | srDark
  | srHpf
  | srPredly
  | srRevin
  | srAr
  | srShift
  | srPost
  | srOut
  -- mode 3 ShepardTone
  | shUpdate
  | shProcess
  | shUp
  | shPause
  | shDown
  | shLow
  | shMid
  | shHigh
  | shVoice
  | shOsc
  | shPan
  | shSum
  | shAdv
  | shTone
  | shRev
  -- format XF: the ModeSwitcher
  | swAdvance
  | swFadeout
  | swFadein
  -- format ENGINE
  | engRead
  | engUpdate
  | smooth
  | acc
  | engIngain
  | engDispatch
  | guard
  | engWidth
  | engXfade
  | engLimit
  | ind
deriving DecidableEq, Repr

end Sys2Proof
end

