-- ==== Sys2Proof/WellFormed.lean ====
section
/-! DEFINITION. Well-formed instructions: what 30_encoding.md lets a command carry. Only BLOCK has operands, so only BLOCK
can be ill-formed. The number of frames is the instance's `N`. -/

namespace Sys2Proof

/-- Well-formed for a block size of `n` frames: legal switch codes, knobs in range, `n` frames (R136, R137, R139). -/
def Instr.wf (n : Nat) : Instr → Bool
  | .block _ _ swl swr ktop kbot frames =>
    switchOk swl && switchOk swr && knobOk ktop && knobOk kbot && frames.length == n
  | _ => true

end Sys2Proof
end

