-- ==== Sys2Proof/Decode.lean ====
section
/-! DEFINITION. Decoding and encoding (30_encoding.md). Two things are decoded: the host command stream, whose words hold a
RESET or a BLOCK (R130 to R138), and a SELECTOR, which picks one row of the opcode table. Many rows have the same
selector bits: the spec tells them apart by WHAT is being looked up (R142, R143: the update row, the process row, the left
variant, the right variant, a stage in its order, the switcher row, an engine operation), so a selector is looked up in a
SLOT. -/

namespace Sys2Proof

/-- What is being looked up in the opcode table (R142, R143). -/
inductive Slot where
  /-- the `*.UPDATE` row, SEL formed before the switcher advance -/
  | update
  /-- the `*.PROCESS` row, SEL formed after the advance -/
  | process
  /-- the left-switch variant (mask 0x0F) -/
  | left
  /-- the right-switch variant (mask 0x33) -/
  | right
  /-- the k-th stage of the mode, in the order of the table -/
  | stage (k : Nat)
  /-- the ModeSwitcher row; the selector is `xf.state` -/
  | xf
  /-- the k-th operation of format ENGINE, in the order of the table; it has no selector -/
  | engine (k : Nat)
deriving DecidableEq, Repr

/-- One row of opcode_table.json whose format is not CW. -/
structure Row where
  instr : Instr
  mnemonic : String
  slot : Slot
  mask : BitVec 6
  value : BitVec 6
deriving DecidableEq, Repr

/-- FilterDrive, mode 0. -/
def rowsFilterDrive : List Row :=
  [⟨.fdUpdate, "FD.UPDATE", .update, 0x03#6, 0x00#6⟩,
    ⟨.fdProcess, "FD.PROCESS", .process, 0x03#6, 0x00#6⟩,
    ⟨.fdWarm, "FD.WARM", .left, 0x0f#6, 0x00#6⟩,
    ⟨.fdHard, "FD.HARD", .left, 0x0f#6, 0x04#6⟩,
    ⟨.fdDestroy, "FD.DESTROY", .left, 0x0f#6, 0x08#6⟩,
    ⟨.fdTapLp, "FD.TAP_LP", .right, 0x33#6, 0x00#6⟩,
    ⟨.fdTapBp, "FD.TAP_BP", .right, 0x33#6, 0x10#6⟩,
    ⟨.fdTapHp, "FD.TAP_HP", .right, 0x33#6, 0x20#6⟩,
    ⟨.fdGate, "FD.GATE", (.stage 0), 0x03#6, 0x00#6⟩,
    ⟨.fdAaf, "FD.AAF", (.stage 1), 0x03#6, 0x00#6⟩,
    ⟨.fdOs, "FD.OS", (.stage 2), 0x03#6, 0x00#6⟩,
    ⟨.fdDrive, "FD.DRIVE", (.stage 3), 0x03#6, 0x00#6⟩,
    ⟨.fdSvf, "FD.SVF", (.stage 4), 0x03#6, 0x00#6⟩,
    ⟨.fdComp, "FD.COMP", (.stage 5), 0x03#6, 0x00#6⟩]

/-- SpaceEcho, mode 1. -/
def rowsSpaceEcho : List Row :=
  [⟨.seUpdate, "SE.UPDATE", .update, 0x03#6, 0x01#6⟩,
    ⟨.seProcess, "SE.PROCESS", .process, 0x03#6, 0x01#6⟩,
    ⟨.seShort, "SE.SHORT", .left, 0x0f#6, 0x01#6⟩,
    ⟨.seMed, "SE.MED", .left, 0x0f#6, 0x05#6⟩,
    ⟨.seLong, "SE.LONG", .left, 0x0f#6, 0x09#6⟩,
    ⟨.seBright, "SE.BRIGHT", .right, 0x33#6, 0x01#6⟩,
    ⟨.seNormal, "SE.NORMAL", .right, 0x33#6, 0x11#6⟩,
    ⟨.seDark, "SE.DARK", .right, 0x33#6, 0x21#6⟩,
    ⟨.seMod, "SE.MOD", (.stage 0), 0x03#6, 0x01#6⟩,
    ⟨.seRead, "SE.READ", (.stage 1), 0x03#6, 0x01#6⟩,
    ⟨.seFb, "SE.FB", (.stage 2), 0x03#6, 0x01#6⟩,
    ⟨.seWrite, "SE.WRITE", (.stage 3), 0x03#6, 0x01#6⟩,
    ⟨.seRev, "SE.REV", (.stage 4), 0x03#6, 0x01#6⟩,
    ⟨.seOut, "SE.OUT", (.stage 5), 0x03#6, 0x01#6⟩]

/-- ShimmerReverb, mode 2. -/
def rowsShimmer : List Row :=
  [⟨.srUpdate, "SR.UPDATE", .update, 0x03#6, 0x02#6⟩,
    ⟨.srProcess, "SR.PROCESS", .process, 0x03#6, 0x02#6⟩,
    ⟨.srUp12, "SR.UP12", .left, 0x0f#6, 0x02#6⟩,
    ⟨.srDn12, "SR.DN12", .left, 0x0f#6, 0x06#6⟩,
    ⟨.srUp7, "SR.UP7", .left, 0x0f#6, 0x0a#6⟩,
    ⟨.srBright, "SR.BRIGHT", .right, 0x33#6, 0x02#6⟩,
    ⟨.srNormal, "SR.NORMAL", .right, 0x33#6, 0x12#6⟩,
    ⟨.srDark, "SR.DARK", .right, 0x33#6, 0x22#6⟩,
    ⟨.srHpf, "SR.HPF", (.stage 0), 0x03#6, 0x02#6⟩,
    ⟨.srPredly, "SR.PREDLY", (.stage 1), 0x03#6, 0x02#6⟩,
    ⟨.srRevin, "SR.REVIN", (.stage 2), 0x03#6, 0x02#6⟩,
    ⟨.srAr, "SR.AR", (.stage 3), 0x03#6, 0x02#6⟩,
    ⟨.srShift, "SR.SHIFT", (.stage 4), 0x03#6, 0x02#6⟩,
    ⟨.srPost, "SR.POST", (.stage 5), 0x03#6, 0x02#6⟩,
    ⟨.srOut, "SR.OUT", (.stage 6), 0x03#6, 0x02#6⟩]

/-- ShepardTone, mode 3. -/
def rowsShepard : List Row :=
  [⟨.shUpdate, "SH.UPDATE", .update, 0x03#6, 0x03#6⟩,
    ⟨.shProcess, "SH.PROCESS", .process, 0x03#6, 0x03#6⟩,
    ⟨.shUp, "SH.UP", .left, 0x0f#6, 0x03#6⟩,
    ⟨.shPause, "SH.PAUSE", .left, 0x0f#6, 0x07#6⟩,
    ⟨.shDown, "SH.DOWN", .left, 0x0f#6, 0x0b#6⟩,
    ⟨.shLow, "SH.LOW", .right, 0x33#6, 0x03#6⟩,
    ⟨.shMid, "SH.MID", .right, 0x33#6, 0x13#6⟩,
    ⟨.shHigh, "SH.HIGH", .right, 0x33#6, 0x23#6⟩,
    ⟨.shVoice, "SH.VOICE", (.stage 0), 0x03#6, 0x03#6⟩,
    ⟨.shOsc, "SH.OSC", (.stage 1), 0x03#6, 0x03#6⟩,
    ⟨.shPan, "SH.PAN", (.stage 2), 0x03#6, 0x03#6⟩,
    ⟨.shSum, "SH.SUM", (.stage 3), 0x03#6, 0x03#6⟩,
    ⟨.shAdv, "SH.ADV", (.stage 4), 0x03#6, 0x03#6⟩,
    ⟨.shTone, "SH.TONE", (.stage 5), 0x03#6, 0x03#6⟩,
    ⟨.shRev, "SH.REV", (.stage 6), 0x03#6, 0x03#6⟩]

/-- ModeSwitcher, format XF (45_modeswitcher.md). -/
def rowsSwitcher : List Row :=
  [⟨.swAdvance, "SW.ADVANCE", .xf, 0x03#6, 0x00#6⟩,
    ⟨.swFadeout, "SW.FADEOUT", .xf, 0x03#6, 0x01#6⟩,
    ⟨.swFadein, "SW.FADEIN", .xf, 0x03#6, 0x02#6⟩]

/-- AudioEngine and shared operators, format ENGINE (no field). -/
def rowsEngine : List Row :=
  [⟨.engRead, "ENG.READ", (.engine 0), 0x00#6, 0x00#6⟩,
    ⟨.engUpdate, "ENG.UPDATE", (.engine 1), 0x00#6, 0x00#6⟩,
    ⟨.smooth, "SMOOTH", (.engine 2), 0x00#6, 0x00#6⟩,
    ⟨.acc, "ACC", (.engine 3), 0x00#6, 0x00#6⟩,
    ⟨.engIngain, "ENG.INGAIN", (.engine 4), 0x00#6, 0x00#6⟩,
    ⟨.engDispatch, "ENG.DISPATCH", (.engine 5), 0x00#6, 0x00#6⟩,
    ⟨.guard, "GUARD", (.engine 6), 0x00#6, 0x00#6⟩,
    ⟨.engWidth, "ENG.WIDTH", (.engine 7), 0x00#6, 0x00#6⟩,
    ⟨.engXfade, "ENG.XFADE", (.engine 8), 0x00#6, 0x00#6⟩,
    ⟨.engLimit, "ENG.LIMIT", (.engine 9), 0x00#6, 0x00#6⟩,
    ⟨.ind, "IND", (.engine 10), 0x00#6, 0x00#6⟩]

/-- Every row of the opcode table but RESET and BLOCK, in the table's order. -/
def rows : List Row :=
  rowsFilterDrive ++ rowsSpaceEcho ++ rowsShimmer ++ rowsShepard ++ rowsSwitcher ++ rowsEngine

/-- A row is picked by a selector in its own slot when the selector agrees with the row's value under its mask (R143). -/
def Row.fits (r : Row) (slot : Slot) (sel : BitVec 6) : Bool := r.slot == slot && sel &&& r.mask == r.value

/-- The row a selector picks, if any. -/
def decodeRow (slot : Slot) (sel : BitVec 6) : Option Instr := (rows.find? fun r => r.fits slot sel).map Row.instr

/-- Why a code is no instruction: the first two are the refusal reasons of R511, with the command word; the last is a
selector that no row fits (`xf.state` 3, or a switch code 3: R35 and R143 say neither occurs). -/
inductive Reject where
  | badOpcode (cw : Word)
  | reservedBits (cw : Word)
  | noRow (slot : Slot) (sel : BitVec 6)
deriving DecidableEq, Repr

/-- What there is to decode: the words of the command stream that have arrived, or a selector in a slot. -/
inductive Code where
  | command (words : List Word)
  | select (slot : Slot) (sel : BitVec 6)
deriving DecidableEq, Repr

/-- What decoding finds: nothing yet (no word, or a BLOCK whose payload is still arriving), a rejection by name, or an
instruction; with the last two, the words left for the next command (R148, R510). -/
inductive Decoded where
  | waiting
  | rejected (why : Reject) (rest : List Word)
  | instr (i : Instr) (rest : List Word)
deriving DecidableEq, Repr

/-- `2 + 2·N` payload words (R137, R148). -/
def payloadLength (n : Nat) : Nat := 2 + 2 * n

/-- Sample words, interleaved left then right, as frames (R137). -/
def framesOf : List Word → List (Stereo Word)
  | l :: r :: rest => ⟨l, r⟩ :: framesOf rest
  | _ => []

/-- The BLOCK a command word and its whole payload stand for (R131, R137). -/
def blockOf (cw : Word) : List Word → Option Instr
  | ktop :: kbot :: samples => some (.block (cwEnc cw) (cwPress cw) (cwSwl cw) (cwSwr cw) ktop kbot (framesOf samples))
  | _ => none

/-- Decodes the next host command of a stream (R131, R132, R136, R148) for a block size of `n` frames. A BLOCK with
reserved bits set is rejected and still occupies its payload; its other refusals (R431) are BLOCK's own. -/
def decodeCommand (n : Nat) : List Word → Decoded
  | [] => .waiting
  | cw :: rest =>
    if cwOp cw = 1#4 then
      if cwAboveOp cw = 0#28 then .instr .reset rest else .rejected (.reservedBits cw) rest
    else if cwOp cw = 2#4 then
      if rest.length < payloadLength n then .waiting
      else if cwRsv cw = 0#7 then
        match blockOf cw (rest.take (payloadLength n)) with
        | some i => .instr i (rest.drop (payloadLength n))
        | none => .waiting
      else .rejected (.reservedBits cw) (rest.drop (payloadLength n))
    else .rejected (.badOpcode cw) rest

/-- The decoder, total on every code. -/
def decode (n : Nat) : Code → Decoded
  | .command words => decodeCommand n words
  | .select slot sel =>
    match decodeRow slot sel with
    | some i => .instr i []
    | none => .rejected (.noRow slot sel) []

/-! Bytes (R105): wherever a word is serialised, byte 0 holds bits 7:0. -/

/-- A word's bytes, byte 0 first (R105). -/
def bytesOfWord (w : Word) : List Byte :=
  [w.extractLsb' 0 8, w.extractLsb' 8 8, w.extractLsb' 16 8, w.extractLsb' 24 8]

/-- The words of a byte stream, little-endian (R105); a trailing part of a word has not arrived yet. -/
def wordsOfBytes : List Byte → List Word
  | a :: b :: c :: d :: rest => (d ++ c ++ b ++ a) :: wordsOfBytes rest
  | _ => []

/-- The decoder on serialised commands. -/
def decodeBytes (n : Nat) (bytes : List Byte) : Decoded := decode n (.command (wordsOfBytes bytes))

/-! The encoder. -/

/-- The sample words of frames, left then right (R137). -/
def samplesOf : List (Stereo Word) → List Word
  | [] => []
  | f :: rest => f.l :: f.r :: samplesOf rest

/-- The code of an instruction: a command's words (R148, R149), or a row's slot and value. Every instruction but the two
commands has a row; the last case is never met. -/
def encode : Instr → Code
  | .reset => .command [resetWord]
  | .block enc press swl swr ktop kbot frames =>
    .command (blockWord enc press swl swr :: ktop :: kbot :: samplesOf frames)
  | i =>
    match rows.find? fun r => r.instr == i with
    | some r => .select r.slot r.value
    | none => .command []

/-! The host's view of the table: an instruction's bits as one number. A row of format CW has 32 bits. A row of another
format has a selector byte; since the table's bits do not name the slot, bits 15:8 of a longer number may (assumption 12),
and a number without them is looked up in the slot where its set fields belong. -/

/-- The slot a selector byte is looked up in when nothing names it: the right variant when `SR` is set, the left variant
when `SL` is set, otherwise the update row. -/
def defaultSlot (sel : BitVec 6) : Slot :=
  if sel &&& 0x30#6 ≠ 0#6 then .right else if sel &&& 0x0C#6 ≠ 0#6 then .left else .update

/-- The slot that bits 15:8 name. -/
def slotOfCode (code : Nat) (sel : BitVec 6) : Slot :=
  if code = 0 then defaultSlot sel
  else if code = 1 then .update
  else if code = 2 then .process
  else if code = 3 then .left
  else if code = 4 then .right
  else if code = 5 then .xf
  else if code < 0x20 then .stage (code - 0x10)
  else .engine (code - 0x20)

/-- The zero words that follow a command word: a BLOCK's payload (R148). -/
def zeroPayload (n : Nat) (cw : Word) : List Word :=
  if cwOp cw = 2#4 then List.replicate (payloadLength n) 0#32 else []

/-- The code of an instruction whose bits are `w`: words of a command when `nbits` is over 16, the payload of a BLOCK
being zeros, otherwise a selector. -/
def codeOfTableWord (n nbits w : Nat) : Code :=
  if 16 < nbits then .command (BitVec.ofNat 32 w :: zeroPayload n (BitVec.ofNat 32 w))
  else .select (slotOfCode (w / 256) (BitVec.ofNat 6 w)) (BitVec.ofNat 6 w)

/-- The instruction the decoder reads from an instruction whose bits are `w`, numbered as the opcode table numbers
them. -/
def decodeTableWord (nbits w : Nat) : Option Instr :=
  match decode Config.params.cfg.n (codeOfTableWord Config.params.cfg.n nbits w) with
  | .instr i _ => some i
  | _ => none

end Sys2Proof
end

