-- ==== Sys2Proof/Machine/Memory.lean ====
section
/-! DEFINITION. The only memories: the delay-line buffers (20_memory.md). A buffer's elements are binary32 data (R102), held
as a list of (index, element) pairs in one canonical form; an index that is not listed reads +0.0, which is what every
element is after reset (R116). -/

namespace Sys2Proof.Machine

/-- One listed element of a buffer. -/
abbrev Elem := Nat × F32

/-- What an element that nothing has written reads as: 0.0 (R116, R188). -/
def unlisted : F32 := .zero

/-- The element at an index (`MemRead`, R15). -/
def readCell (cells : List Elem) (i : Nat) : F32 :=
  match cells with
  | [] => unlisted
  | (j, v) :: rest => if j = i then v else readCell rest i

/-- Puts an element in front of a canonical list whose indices are all larger, unless it is what an unlisted index
reads as. -/
def consCell (i : Nat) (v : F32) (cells : List Elem) : List Elem :=
  if v = unlisted then cells else (i, v) :: cells

/-- The buffer with one element replaced (`MemWrite`, R15). -/
def writeCell (cells : List Elem) (i : Nat) (v : F32) : List Elem :=
  match cells with
  | [] => consCell i v []
  | (j, u) :: rest =>
    if i < j then consCell i v ((j, u) :: rest)
    else if i = j then consCell i v rest
    else (j, u) :: writeCell rest i v

/-- The canonical form above a bound: indices rise strictly from `lo`, and no entry holds what an unlisted index reads
as. -/
def wfFrom (lo : Nat) : List Elem → Bool
  | [] => true
  | (j, v) :: rest => decide (lo ≤ j) && decide (v ≠ unlisted) && wfFrom (j + 1) rest

/-- A delay line: its buffer and its write index `w` (R101). The capacity is the instance's (R103). -/
structure DelayLine where
  cells : List Elem
  w : Nat
deriving DecidableEq, Repr

/-- The canonical form of a buffer of capacity `cap`, with every listed index and the write index below it (R100,
R101). -/
def Memory.wf (cap : Nat) (dl : DelayLine) : Bool :=
  wfFrom 0 dl.cells && dl.cells.all (fun e => decide (e.1 < cap)) && decide (dl.w < cap)

/-- DL.RESET: every element 0.0 and the write index 0 (R188). -/
def dlReset : DelayLine := ⟨[], 0⟩

/-- `(w - k) mod C`, the index of the element written k writes ago, in [0, C - 1] for every k (R104, R12). -/
def dlIndex (cap : Nat) (dl : DelayLine) (k : Nat) : Nat := (((dl.w : Int) - k) % cap).toNat

/-- `h(k)`: the sample written k writes ago (R186). -/
def dlHistory (cap : Nat) (dl : DelayLine) (k : Nat) : F32 := readCell dl.cells (dlIndex cap dl k)

/-- DL.WRITE: stores at the write index and advances it modulo the capacity (R187, R104). -/
def dlWrite (cap : Nat) (dl : DelayLine) (x : F32) : DelayLine :=
  { cells := writeCell dl.cells dl.w x, w := (dl.w + 1) % cap }

/-- HERMITE4: 4-point, third-order Hermite interpolation (R185). -/
def hermite4 (y0 y1 y2 y3 t : F32) : F32 :=
  let c0 := y1
  let c1 := (F32.dec 5 10).mul (y2.sub y0)
  let c2 := ((y0.sub ((F32.dec 25 10).mul y1)).add ((F32.dec 2 1).mul y2)).sub ((F32.dec 5 10).mul y3)
  let c3 := ((F32.dec 5 10).mul (y3.sub y0)).add ((F32.dec 15 10).mul (y1.sub y2))
  ((((c3.mul t).add c2).mul t).add c1).mul t |>.add c0

/-- The delay a read uses: clamped to [2, C - 3] (R186). DESIGN CHOICE (assumption 36, unsafe): at a capacity above
2^24 + 3, where `i2f(C - 3)` can round above `C - 3`, the upper bound is the rounded one, as R186's pseudocode has it. -/
def dlClamp (cap : Nat) (d : F32) : F32 := d.clamp (.dec 2 1) (.ofInt ((cap : Int) - 3))

/-- DL.READ at a finite delay (R186): splits the clamped delay into an integer and a fraction and interpolates. -/
def dlRead (cap : Nat) (dl : DelayLine) (d : F32) : F32 :=
  let dc := dlClamp cap d
  let i := dc.floor.toNat
  let f := dc.sub dc.floor
  hermite4 (dlHistory cap dl (i - 1)) (dlHistory cap dl i) (dlHistory cap dl (i + 1)) (dlHistory cap dl (i + 2)) f

end Sys2Proof.Machine
end

