-- ==== Sys2Proof/Machine/Units.lean ====
section
/-! DEFINITION. Instances of the external primitive units (40_common.md R190 to R194, R199): a state of plain data, `init`,
`configure` and `process`. What a unit computes is the contract's in Config.lean. -/

namespace Sys2Proof.Machine

/-- `SVF.S`: the cutoff and resonance last configured, and the signal state (assumptions 4 and 5). -/
structure SvfState where
  cfg : Option (F32 × F32)
  sig : Nat
deriving DecidableEq, Repr

/-- `SVF.init` (R190). -/
def svfInit : SvfState := ⟨none, 0⟩

/-- `SVF.configure(s, fc, res)`: sets cutoff and resonance "without clearing the signal state" (R190). -/
def svfConfigure (s : SvfState) (fc res : F32) : SvfState := { s with cfg := some (fc, res) }

/-- `SVF.process(s, x)`: the next state and the three taps (R190). -/
def svfProcess (s : SvfState) (x : F32) : SvfState × Taps :=
  ({ s with sig := (Config.svf.process s.cfg s.sig x).1 }, (Config.svf.process s.cfg s.sig x).2)

/-- `REVERB.S`. -/
structure ReverbState where
  cfg : RevCfg
  sig : Nat
deriving DecidableEq, Repr

/-- `REVERB.init` (R191). -/
def reverbInit : ReverbState := ⟨.unset, 0⟩

/-- `REVERB.configure` (R191), with feedback and damping or from a preset. -/
def reverbConfigure (s : ReverbState) (cfg : RevCfg) : ReverbState := { s with cfg := cfg }

/-- `REVERB.process(s, inL, inR)` (R191). -/
def reverbProcess (s : ReverbState) (x : Stereo F32) : ReverbState × Stereo F32 :=
  ({ s with sig := (Config.reverb.process s.cfg s.sig x).1 }, (Config.reverb.process s.cfg s.sig x).2)

/-- `SHIFTER.S`. -/
structure ShifterState where
  cfg : ShiftCfg
  sig : Nat
deriving DecidableEq, Repr

/-- `SHIFTER.init` (R192), with the setting `SR_SHIFT_CFG`. -/
def shifterInit (setting : Nat) : ShifterState := ⟨⟨none, setting⟩, 0⟩

/-- `SHIFTER.configure(s, semis)` (R192). -/
def shifterConfigure (s : ShifterState) (semis : F32) : ShifterState := { s with cfg := { s.cfg with semis := some semis } }

/-- `SHIFTER.process(s, x)` (R192). -/
def shifterProcess (s : ShifterState) (x : F32) : ShifterState × F32 :=
  ({ s with sig := (Config.shifter.process s.cfg s.sig x).1 }, (Config.shifter.process s.cfg s.sig x).2)

/-- `LIMITER.S`: a number that names the state (assumption 4). -/
structure LimiterState where
  sig : Nat
deriving DecidableEq, Repr

/-- `LIMITER.init` (R193). -/
def limiterInit : LimiterState := ⟨0⟩

/-- `LIMITER.process_block(s, pregain, frames)` (R193) with the instance's ceiling. -/
def limiterProcess (ceil pregain : F32) (s : LimiterState) (frames : List (Stereo F32)) :
    LimiterState × List (Stereo F32) :=
  (⟨(Config.limiter.process ceil pregain s.sig frames).1⟩, (Config.limiter.process ceil pregain s.sig frames).2)

/-- `NOISE.S`. -/
structure NoiseState where
  sig : Nat
deriving DecidableEq, Repr

/-- `NOISE.init` (R194). -/
def noiseInit : NoiseState := ⟨0⟩

/-- `NOISE.next(s)` (R194). -/
def noiseNext (s : NoiseState) : NoiseState × F32 := (⟨(Config.noise.next s.sig).1⟩, (Config.noise.next s.sig).2)

end Sys2Proof.Machine
end

