-- ==== Sys2Proof/Machine/ModeState.lean ====
section
/-! DEFINITION. The four modes' state (10_state.md sections 5 to 8) and each mode's initial configuration: what RESET and
MODE_RESET give it (R44, R201, R255, R295, R336, R376). -/

namespace Sys2Proof.Machine

/-- FilterDrive state (table F, R45, R46). -/
structure FdState where
  driveAcc : F32
  driveSm : F32
  cutT : F32
  cutSm : F32
  resT : F32
  resSm : F32
  curve : SwPos
  tap : SwPos
  gateEnv : Stereo F32
  aa1 : Stereo SvfState
  aa2 : Stereo SvfState
  hist : Stereo Hist
  svfA : Stereo SvfState
  svfB : Stereo SvfState
deriving DecidableEq, Repr

/-- SpaceEcho state (table E, R47). -/
structure SeState where
  band : SwPos
  tone : SwPos
  tT : F32
  tSm : F32
  fb : F32
  revAmt : F32
  line : Stereo DelayLine
  flutPh : F32
  driftPh : F32
  noise : NoiseState
  lp : Stereo SvfState
  hp : Stereo SvfState
  compEnv : Stereo F32
  rev : ReverbState
deriving DecidableEq, Repr

/-- ShimmerReverb state (table H, R48). -/
structure SrState where
  trans : SwPos
  tone : SwPos
  hpT : F32
  hpSm : F32
  shAmt : F32
  revFb : F32
  pitchT : F32
  pitchSm : F32
  hp1 : Stereo SvfState
  hp2 : Stereo SvfState
  pd : Stereo DelayLine
  rev : ReverbState
  ar : Stereo SvfState
  shift : Stereo ShifterState
  tlp : Stereo SvfState
  dcX : Stereo F32
  dcY : Stereo F32
  compEnv : Stereo F32
  fb : Stereo F32
deriving DecidableEq, Repr

/-- ShepardTone state (table T, R49). -/
structure ShState where
  dir : SwPos
  range : SwPos
  speed : F32
  toneFc : F32
  revAmt : F32
  p : Oct F32
  th : Oct F32
  panPh : F32
  tlp : Stereo SvfState
  rev : ReverbState
deriving DecidableEq, Repr

/-- An SVF instance at `init`, then configured (R44). -/
def svfFresh (fc res : F32) : SvfState := svfConfigure svfInit fc res

/-- Four history samples of 0.0 (R44). -/
def histZero : Hist := ⟨.zero, .zero, .zero, .zero⟩

/-- FilterDrive's initial configuration (R255, table F). -/
def fdInit (c : Cfg) : FdState where
  driveAcc := .zero
  driveSm := .zero
  cutT := .dec 5 1
  cutSm := .dec 5 1
  resT := .zero
  resSm := .zero
  curve := .p0
  tap := .p0
  gateEnv := .both .zero
  aa1 := .both (svfFresh c.fdAaFc c.fdAaRes)
  aa2 := .both (svfFresh c.fdAaFc c.fdAaRes)
  hist := .both histZero
  svfA := .both (svfFresh (.dec 5 1) .zero)
  svfB := .both (svfFresh (.dec 5 1) .zero)

/-- SpaceEcho's initial configuration (R295, table E). -/
def seInit (c : Cfg) : SeState where
  band := .p0
  tone := .p0
  tT := c.seBandLo.a0
  tSm := c.seBandLo.a0
  fb := .zero
  revAmt := .zero
  line := .both dlReset
  flutPh := .zero
  driftPh := .zero
  noise := noiseInit
  lp := .both (svfFresh c.seToneLp.a0 c.auxRes)
  hp := .both (svfFresh c.seToneHp.a0 c.auxRes)
  compEnv := .both .zero
  rev := reverbConfigure reverbInit (.preset c.seRevCfg)

/-- ShimmerReverb's initial configuration (R336, table H). -/
def srInit (c : Cfg) : SrState where
  trans := .p0
  tone := .p0
  hpT := .dec 150 1
  hpSm := .dec 150 1
  shAmt := .zero
  revFb := .dec 7 10
  pitchT := .dec 12 1
  pitchSm := .dec 12 1
  hp1 := .both (svfFresh (.dec 150 1) c.auxRes)
  hp2 := .both (svfFresh (.dec 150 1) c.auxRes)
  pd := .both dlReset
  rev := reverbConfigure reverbInit (.feedback (.dec 7 10) c.srRevDamp.a0)
  ar := .both (svfFresh c.srArFc c.auxRes)
  shift := ⟨shifterConfigure (shifterInit c.srShiftCfg) (.dec 1195 100),
    shifterConfigure (shifterInit c.srShiftCfg) (.dec 1205 100)⟩
  tlp := .both (svfFresh c.srToneLp.a0 c.auxRes)
  dcX := .both .zero
  dcY := .both .zero
  compEnv := .both .zero
  fb := .both .zero

/-- ShepardTone's initial configuration (R376, table T): `sh.p[i] = i / 8`. -/
def shInit (c : Cfg) : ShState where
  dir := .p0
  range := .p0
  speed := .dec 1 100
  toneFc := .dec 200 1
  revAmt := .zero
  p := ⟨.zero, .dec 1 8, .dec 2 8, .dec 3 8, .dec 4 8, .dec 5 8, .dec 6 8, .dec 7 8⟩
  th := .all .zero
  panPh := .zero
  tlp := ⟨svfFresh (.dec 200 1) c.auxRes, svfFresh ((F32.dec 200 1).mul (F32.one.add c.shToneDetune)) c.auxRes⟩
  rev := reverbConfigure reverbInit (.preset c.shRevCfg)

end Sys2Proof.Machine
end

