-- ==== Sys2Proof/Machine/State.lean ====
section
/-! DEFINITION. The state of the engine (10_state.md) as plain data, and the state after reset (R430, R541, R543). -/

namespace Sys2Proof.Machine

/-- A control snapshot (R34): the content of the `ctl` port and of the snapshot register. -/
structure Snapshot where
  ktop : F32
  kbot : F32
  enc : BitVec 16
  press : Bool
  swl : SwPos
  swr : SwPos
deriving DecidableEq, Repr

/-- `S0`, the reset snapshot (R44). -/
def Snapshot.s0 : Snapshot := ⟨.zero, .zero, 0#16, false, .p0, .p0⟩

/-- The crossfade state `xf` (table S, R35 to R39). `xf.switching` (S2) is derived: Machine/Flags.lean. -/
structure Xf where
  state : XfState
  volume : F32
  active : Mode
  pending : Mode
deriving DecidableEq, Repr

/-- The sequencer position `seq` (R31). -/
inductive Seq where
  | idle
  | ctrl
  | sample (n : Nat)
  | limit
deriving DecidableEq, Repr

/-- The indicator output (R42, R439). -/
structure Ind where
  mode : Mode
  switching : Bool
deriving DecidableEq, Repr

/-- An entry of the model's event log (R501): what happened and the information carried. UnmodelledDelay (code 20) is
no entry: it ends the run, as `Fault.unmodelledDelay`. -/
inductive Event where
  | guardFault (mode : Mode) (mask : BitVec 2) (frame : Option Nat)
  | badOpcode (cw : Word)
  | reservedBits (cw : Word)
  | badSwitchCode (cw : Word)
  | knobRange (ktop kbot : Word)
deriving DecidableEq, Repr

/-- Local values of FilterDrive's rules (R14): the outputs of the stages, the operand and result of DRIVE and of the
curve, and the operands and result of the tap. -/
structure FdWires where
  g : Stereo F32
  a : Stereo F32
  o : Stereo F32
  f : Stereo F32
  v : F32
  drive : F32
  u : F32
  c : F32
  taps : Taps
  tap : F32
deriving DecidableEq, Repr

/-- Local values of SpaceEcho's rules: the selected delay range and cutoffs, and the values of R294. -/
structure SeWires where
  lo : F32
  hi : F32
  lpFc : F32
  hpFc : F32
  d : Stereo F32
  r : Stereo F32
  fb : Stereo F32
  v : Stereo F32
deriving DecidableEq, Repr

/-- Local values of ShimmerReverb's rules: the selected transposition, cutoff and damping, and the values of R335. -/
structure SrWires where
  target : F32
  lpFc : F32
  damp : F32
  h : Stereo F32
  p : Stereo F32
  rv : Stereo F32
  a : Stereo F32
  s : Stereo F32
  w : Stereo F32
deriving DecidableEq, Repr

/-- Local values of ShepardTone's rules: the selected increment and bias, and the values of R375. -/
structure ShWires where
  delta : F32
  bias : F32
  f : Oct F32
  a : Oct F32
  o : Oct F32
  gL : Oct F32
  gR : Oct F32
  s : Stereo F32
  t : Stereo F32
deriving DecidableEq, Repr

/-- The wires of the datapath: the local values (`let`, operands and results) that the rules pass from one operation to
the next (R14). They are the model's own scratch, not engine state: a row of the opcode table that runs alone takes its
operands here and leaves its result here (assumption 13), and a host command leaves them all idle. -/
structure Wires where
  /-- SMOOTH: state, target, coefficient (R180) -/
  smY : F32
  smT : F32
  smC : F32
  /-- ACC: accumulator, step, bounds (R183) -/
  accA : F32
  accStep : F32
  accLo : F32
  accHi : F32
  /-- the input frame, the gained frame, the mode's output pair, the widened pair (R431) -/
  inp : Stereo F32
  x : Stereo F32
  y : Stereo F32
  w : Stereo F32
  /-- `frame[0 …]`, and the limiter's `out` (R431) -/
  frame : List (Stereo F32)
  out : List (Stereo F32)
  fd : FdWires
  se : SeWires
  sr : SrWires
  sh : ShWires
deriving DecidableEq, Repr

/-- No value on any wire. -/
def Wires.idle : Wires where
  smY := .zero
  smT := .zero
  smC := .zero
  accA := .zero
  accStep := .zero
  accLo := .zero
  accHi := .zero
  inp := .both .zero
  x := .both .zero
  y := .both .zero
  w := .both .zero
  frame := []
  out := []
  fd := ⟨.both .zero, .both .zero, .both .zero, .both .zero, .zero, .zero, .zero, .zero, ⟨.zero, .zero, .zero⟩, .zero⟩
  se := ⟨.zero, .zero, .zero, .zero, .both .zero, .both .zero, .both .zero, .both .zero⟩
  sr := ⟨.zero, .zero, .zero, .both .zero, .both .zero, .both .zero, .both .zero, .both .zero, .both .zero⟩
  sh := ⟨.zero, .zero, .all .zero, .all .zero, .all .zero, .all .zero, .all .zero, .both .zero, .both .zero⟩

/-- The interfaces of R33. `cmd` holds the command words that have arrived and are not taken yet, `ctl` and `ain` the
payload of the BLOCK in progress, `aout` every output frame emitted so far, `ind` the indicator output. -/
structure Ports where
  cmd : List Word
  ctl : Snapshot
  ain : List (Stereo F32)
  aout : List (Stereo F32)
  ind : Ind
deriving DecidableEq, Repr

/-- The whole state. `cfg` is static (R40, R543). `row` is the model's own: a selector in it makes the next step run that
one row of the opcode table (assumption 13); it is empty in every run from reset. -/
structure State where
  cfg : Cfg
  seq : Seq
  snap : Snapshot
  xf : Xf
  lim : LimiterState
  fd : FdState
  se : SeState
  sr : SrState
  sh : ShState
  refused : Bool
  events : List Event
  ports : Ports
  row : Option (Slot × BitVec 6)
  wires : Wires
deriving DecidableEq, Repr

/-- Why the machine stops. -/
inductive Fault where
  /-- Raised by DL.READ (SE.READ, SR.PREDLY and what calls them) at a delay that is not finite: R186, R511 "it ends the
  model's run, with the state of the block before it", I6 `stuck`. Safe: the run ends, and nothing is claimed of what
  the hardware does then. -/
  | unmodelledDelay (d : F32)
deriving DecidableEq, Repr

/-- Why there is no meaning. -/
inductive Refusal where
  /-- Raised by exec for an instruction that has no meaning yet. Safe. No arm does. -/
  | notModelled (mnemonic : String)
  /-- Raised by step when the row port holds a selector that no row of the opcode table fits (`xf.state` 3, switch code
  3: R35, R143, I10 say neither occurs). Safe; no run from reset meets it. -/
  | noRow (slot : Slot) (sel : BitVec 6)
deriving DecidableEq, Repr

/-- The switcher after reset (R408): Steady, full volume, mode 0. -/
def Xf.reset : Xf := ⟨.steady, .one, .fd, .fd⟩

/-- The state after reset, which is the state a model starts in (R541, R543). -/
def State.reset : State where
  cfg := Config.params.cfg
  seq := .idle
  snap := .s0
  xf := .reset
  lim := limiterInit
  fd := fdInit Config.params.cfg
  se := seInit Config.params.cfg
  sr := srInit Config.params.cfg
  sh := shInit Config.params.cfg
  refused := false
  events := []
  ports := ⟨[], .s0, [], [], ⟨.fd, false⟩⟩
  row := none
  wires := .idle

end Sys2Proof.Machine
end

