-- ==== Sys2Proof/Machine/Flags.lean ====
section
/-! DEFINITION. The engine's one-bit state and signals (R52): `xf.switching`, the guard's mask, and the indicator derived
from `xf`; the codes of the event log (R501). There are no arithmetic condition codes. -/

namespace Sys2Proof.Machine

/-- `xf.switching`: 1 exactly when the switcher is FadingOut or FadingIn (R36). -/
def Xf.switching (xf : Xf) : Bool := xf.state != .steady

/-- The guard-fault signal: bit 0 set when the left output is not finite, bit 1 when the right is not (R16, R200). -/
def guardMask (y : Stereo F32) : BitVec 2 :=
  (if y.l.isFinite then 0#2 else 1#2) ||| (if y.r.isFinite then 0#2 else 2#2)

/-- `ind.mode` and `ind.switching` (R42, R439). -/
def indicatorOf (xf : Xf) : Ind :=
  { mode := if xf.state = .steady then xf.active else xf.pending, switching := xf.switching }

/-- The colour of a mode index as RGB in [0, 1] (R151): red, green, white, cyan. -/
def indicatorColour : Mode → F32 × F32 × F32
  | .fd => (.one, .zero, .zero)
  | .se => (.zero, .one, .zero)
  | .sr => (.one, .one, .one)
  | .sh => (.zero, .one, .one)

/-- The frame index n inside a block, none outside (R31, R501). -/
def frameIndex : Seq → Option Nat
  | .sample n => some n
  | _ => none

/-- The event codes (R501). -/
def Event.code : Event → Nat
  | .guardFault _ _ _ => 1
  | .badOpcode _ => 16
  | .reservedBits _ => 17
  | .badSwitchCode _ => 18
  | .knobRange _ _ => 19

/-- The code of the event that ends a run (R501). -/
def Fault.code : Fault → Nat
  | .unmodelledDelay _ => 20

end Sys2Proof.Machine
end

