-- ==== Sys2Proof/Machine/Ops.lean ====
section
/-! DEFINITION. The operations the meanings share: replacing one component of the state, running one operation after
another, MODE_RESET (R201), taking a GuardFault and going on after it (R502, R505), refusing a command (R510), forming the
selector (R142), and the per-sample operators every mode uses (R189, R195 to R198, R202, R203). -/

namespace Sys2Proof.Machine

/-- What an operation answers. -/
abbrev Result := Host.Outcome State Fault Refusal

def State.setSeq (s : State) (q : Seq) : State := { s with seq := q }

def State.setSnap (s : State) (v : Snapshot) : State := { s with snap := v }

def State.setXf (s : State) (v : Xf) : State := { s with xf := v }

def State.setLim (s : State) (v : LimiterState) : State := { s with lim := v }

def State.setFd (s : State) (v : FdState) : State := { s with fd := v }

def State.setSe (s : State) (v : SeState) : State := { s with se := v }

def State.setSr (s : State) (v : SrState) : State := { s with sr := v }

def State.setSh (s : State) (v : ShState) : State := { s with sh := v }

def State.setPorts (s : State) (v : Ports) : State := { s with ports := v }

def State.setWires (s : State) (v : Wires) : State := { s with wires := v }

def State.setRow (s : State) (v : Option (Slot × BitVec 6)) : State := { s with row := v }

/-- Appends to the event log (R501). -/
def State.log (s : State) (e : Event) : State := { s with events := s.events ++ [e] }

/-- Sets the refusal mark, which nothing clears (R43). -/
def State.mark (s : State) : State := { s with refused := true }

/-- Runs an operation on the state another one left, unless the run has ended. -/
def thenDo (o : Result) (k : State → Result) : Result :=
  match o with
  | .next s => k s
  | .fault r => .fault r
  | .refused r => .refused r

/-- Puts the mode's raw output pair on its wire. -/
def State.setY (s : State) (y : Stereo F32) : State := s.setWires { s.wires with y := y }

/-! MODE_RESET and the GuardFault. -/

/-- MODE_RESET(m): every state element of mode m takes its reset value, its delay lines and units with it; nothing
outside mode m changes (R201). -/
def modeReset (m : Mode) (s : State) : State :=
  match m with
  | .fd => s.setFd (fdInit s.cfg)
  | .se => s.setSe (seInit s.cfg)
  | .sr => s.setSr (srInit s.cfg)
  | .sh => s.setSh (shInit s.cfg)

/-- `raise GuardFault(m, mask)` (R502): mode m is reset in place, and the event log gets the fault with its frame index
(R501). Nothing is saved and there is no vector (R503). -/
def takeGuardFault (m : Mode) (mask : BitVec 2) (s : State) : State :=
  (modeReset m s).log (.guardFault m mask (frameIndex s.seq))

/-- The return from a GuardFault (R505): no state to restore; the frame goes on with the silent pair. -/
def returnSilent (s : State) : State := s.setY (.both .zero)

/-- GUARD for mode m on the output pair (R200): a finite pair passes unchanged, otherwise the fault is taken and the pair
is silent. -/
def guardOutput (m : Mode) (s : State) : State :=
  if guardMask s.wires.y = 0#2 then s else returnSilent (takeGuardFault m (guardMask s.wires.y) s)

/-! Refusals. -/

/-- `refuse` (R16, R510): no state change but the refusal mark, and the reason in the event log. -/
def refuse (e : Event) (s : State) : State := s.mark.log e

/-! The selector. -/

/-- The left-switch selection register of a mode (R142). -/
def leftCode (s : State) : Mode → SwPos
  | .fd => s.fd.curve
  | .se => s.se.band
  | .sr => s.sr.trans
  | .sh => s.sh.dir

/-- The right-switch selection register of a mode (R142). -/
def rightCode (s : State) : Mode → SwPos
  | .fd => s.fd.tap
  | .se => s.se.tone
  | .sr => s.sr.tone
  | .sh => s.sh.range

/-- SEL: `M` in bits 1:0, `SL` in bits 3:2, `SR` in bits 5:4 (R142). -/
def selector (s : State) : BitVec 6 :=
  (rightCode s s.xf.active).toBits ++ (leftCode s s.xf.active).toBits ++ s.xf.active.toBits

/-- The selector of the XF rows: `xf.state` (R400). -/
def xfSelector (s : State) : BitVec 6 := (0#4 : BitVec 4) ++ s.xf.state.toBits

/-! Per-sample operators. -/

/-- One SVF instance per channel processes one sample per channel. -/
def svfBoth (f : Stereo SvfState) (x : Stereo F32) : Stereo SvfState × Stereo Taps :=
  (⟨(svfProcess f.l x.l).1, (svfProcess f.r x.r).1⟩, ⟨(svfProcess f.l x.l).2, (svfProcess f.r x.r).2⟩)

/-- One SVF instance per channel, configured alike. -/
def svfConfigureBoth (f : Stereo SvfState) (fc res : F32) : Stereo SvfState := f.map fun s => svfConfigure s fc res

/-- The parameters of a compressor (R189). -/
structure CompParams where
  t : F32
  rho : F32
  wk : F32
  att : F32
  rel : F32
deriving DecidableEq, Repr

/-- COMP's envelope step (R189): attack when the rectified input is above the envelope, else release. -/
def compEnvelope (p : CompParams) (e x : F32) : F32 :=
  if e.lt x.abs then e.add (p.att.mul (x.abs.sub e)) else e.add (p.rel.mul (x.abs.sub e))

/-- `comp_gain(e)` (R189). -/
def compGain (p : CompParams) (e : F32) : F32 :=
  if e.le (p.t.sub (p.wk.div (.dec 2 1))) then .one
  else if (p.t.add (p.wk.div (.dec 2 1))).le e then (p.t.add (p.rho.mul (e.sub p.t))).div e
  else Config.compKnee.f e p.t p.rho p.wk

/-- COMP: the new envelope and `comp_gain(e) × x` (R189). -/
def comp (p : CompParams) (e x : F32) : F32 × F32 :=
  (compEnvelope p e x, (compGain p (compEnvelope p e x)).mul x)

/-- The sine of a phase: `osc(θ)`, `lfo_sin(φ)` (R195, R196). -/
def sinPhase (ph : F32) : F32 := Config.math.sin (F32.twoPi.mul ph)

/-- `lfo_tri(φ) = 4.0 × abs(φ - 0.5) - 1.0` (R197). -/
def triPhase (ph : F32) : F32 := ((F32.dec 4 1).mul (ph.sub (.dec 5 10)).abs).sub .one

/-- An LFO's phase step: `wrap01(φ + rate / i2f(FS))` (R196). -/
def stepPhase (c : Cfg) (ph rate : F32) : F32 := (ph.add (rate.div c.fsf)).wrap01

/-- SOFTLIM: `tanh(x)` (R198). -/
def softlim (x : F32) : F32 := Config.math.tanh x

/-- DCBLOCK's output (R202): `x - x1 + r × y1`. -/
def dcblock (r x1 y1 x : F32) : F32 := (x.sub x1).add (r.mul y1)

/-- SAT (R203): `tanh(gp × x)` for x at or above 0.0, else `tanh(gn × x)`. -/
def sat (gp gn x : F32) : F32 :=
  if F32.zero.le x then Config.math.tanh (gp.mul x) else Config.math.tanh (gn.mul x)

end Sys2Proof.Machine
end

