-- ==== Sys2Proof/Machine/FilterDrive.lean ====
section
/-! DEFINITION. Mode 0 FilterDrive (41_filterdrive.md). A row that runs alone takes its operands from the wires and leaves
its result there; FD.PROCESS runs the rows in the order of R254. -/

namespace Sys2Proof.Machine

/-- Replaces FilterDrive's wires. -/
def State.setFdWires (s : State) (v : FdWires) : State := s.setWires { s.wires with fd := v }

/-! Control update. -/

/-- FD.UPDATE on the mode's state (R241). -/
def fdUpdated (k : Snapshot) (f : FdState) : FdState :=
  let cutT := maplog k.ktop (.dec 5 1) (.dec 18000 1)
  let resT := k.kbot
  let driveAcc := accumulated f.driveAcc encStep .zero .one k.enc
  let cutSm := smoothed f.cutSm cutT (.dec 5 100)
  let resSm := smoothed f.resSm resT (.dec 5 100)
  let driveSm := smoothed f.driveSm driveAcc (.dec 5 100)
  let fL := cutSm
  let fR := cutSm.mul (F32.one.add ((F32.dec 5 100).mul resSm))
  { f with
    cutT := cutT, resT := resT, driveAcc := driveAcc, curve := k.swl, tap := k.swr
    cutSm := cutSm, resSm := resSm, driveSm := driveSm
    svfA := ⟨svfConfigure f.svfA.l fL resSm, svfConfigure f.svfA.r fR resSm⟩
    svfB := ⟨svfConfigure f.svfB.l fL resSm, svfConfigure f.svfB.r fR resSm⟩ }

/-- FD.UPDATE (R241). -/
def fdUpdate (s : State) : State := s.setFd (fdUpdated s.snap s.fd)

/-! Stages. -/

/-- The gate's leaky integrator (R242). -/
def fdGateEnv (env x : F32) : F32 := ((F32.dec 99 100).mul env).add ((F32.dec 1 100).mul x.abs)

/-- The gate's gain at an envelope, with the threshold `FD_GATE_T` (R242). -/
def fdGateGain (gateT e : F32) : F32 := if e.lt gateT then (e.div gateT).mul (e.div gateT) else .one

/-- FD.GATE on both channels (R242): gained input in, gated signal out. -/
def fdGate (s : State) : State :=
  let env := Stereo.zip fdGateEnv s.fd.gateEnv s.wires.x
  (s.setFd { s.fd with gateEnv := env }).setFdWires
    { s.wires.fd with g := Stereo.zip (fun e x => (fdGateGain s.cfg.approx.fdGateT e).mul x) env s.wires.x }

/-- FD.AAF on both channels (R243): the low taps of two stages in series. -/
def fdAaf (s : State) : State :=
  let r1 := svfBoth s.fd.aa1 s.wires.fd.g
  let r2 := svfBoth s.fd.aa2 (r1.2.map Taps.low)
  (s.setFd { s.fd with aa1 := r1.1, aa2 := r2.1 }).setFdWires { s.wires.fd with a := r2.2.map Taps.low }

/-- FD.WARM: `C(u) = FD_WARM(u)` (R246). -/
def fdWarmCurve (c : Cfg) (u : F32) : F32 := Config.fdWarm.f c.fdWarmKp c.fdWarmKn u

/-- FD.HARD: `C(u) = u / sqrt(1.0 + u × u)` (R247). -/
def fdHardCurve (u : F32) : F32 := u.div (F32.one.add (u.mul u)).sqrt

/-- One stage of the wavefolder: pre-gain, clamp at ±5, fold (R248). -/
def fdFoldStage (g v : F32) : F32 := Config.fdFold.f ((g.mul v).clamp (F32.dec 5 1).neg (.dec 5 1))

/-- FD.DESTROY: three folding stages (R248). -/
def fdDestroyCurve (c : Cfg) (u : F32) : F32 :=
  fdFoldStage c.fdFoldG.a2 (fdFoldStage c.fdFoldG.a1 (fdFoldStage c.fdFoldG.a0 u))

/-- The curve that `fd.curve` selects (R245, R144): Warm, Hard, Destroy. -/
def fdCurve (c : Cfg) (code : SwPos) (u : F32) : F32 :=
  match code with
  | .p0 => fdWarmCurve c u
  | .p1 => fdHardCurve u
  | .p2 => fdDestroyCurve c u

/-- FD.DRIVE: `(1.0 - d) × v + d × C(FD_PG(d) × v)` (R245). -/
def fdDriveOf (c : Cfg) (code : SwPos) (d v : F32) : F32 :=
  ((F32.one.sub d).mul v).add (d.mul (fdCurve c code ((Config.fdPg.f d).mul v)))

/-- The history with one more sample (R244, R46). -/
def histShift (h : Hist) (x : F32) : Hist := ⟨h.h1, h.h2, h.h3, x⟩

/-- The oversampled drive of a history: 0.4 of the mid-sample's drive and 0.6 of the newest's (R244). -/
def fdOversample (drive : F32 → F32) (h : Hist) : F32 :=
  ((F32.dec 4 10).mul (drive (hermite4 h.h0 h.h1 h.h2 h.h3 (.dec 5 10)))).add ((F32.dec 6 10).mul (drive h.h3))

/-- FD.OS on both channels (R244). -/
def fdOs (s : State) : State :=
  let h := Stereo.zip histShift s.fd.hist s.wires.fd.a
  (s.setFd { s.fd with hist := h }).setFdWires
    { s.wires.fd with o := h.map (fdOversample (fdDriveOf s.cfg s.fd.curve s.fd.driveSm)) }

/-- FD.DRIVE on its operand (R245). -/
def fdDrive (s : State) : State :=
  s.setFdWires { s.wires.fd with drive := fdDriveOf s.cfg s.fd.curve s.fd.driveSm s.wires.fd.v }

/-- The tap that `fd.tap` selects (R250 to R252, R144): low, band, high. -/
def fdTapOf (code : SwPos) (t : Taps) : F32 :=
  match code with
  | .p0 => t.low
  | .p1 => t.band
  | .p2 => t.high

/-- FD.SVF on both channels (R249): two stages in series, the same tap on both. -/
def fdSvf (s : State) : State :=
  let ra := svfBoth s.fd.svfA s.wires.fd.o
  let rb := svfBoth s.fd.svfB (ra.2.map (fdTapOf s.fd.tap))
  (s.setFd { s.fd with svfA := ra.1, svfB := rb.1 }).setFdWires { s.wires.fd with f := rb.2.map (fdTapOf s.fd.tap) }

/-- FD.COMP: `tanh(x × (1.0 / sqrt(1.0 + d × 16.0)))` (R253). -/
def fdCompOf (d x : F32) : F32 :=
  softlim (x.mul (F32.one.div (F32.one.add (d.mul (.dec 16 1))).sqrt))

/-- FD.COMP on both channels (R253): the mode's output pair. -/
def fdComp (s : State) : State := s.setY (s.wires.fd.f.map (fdCompOf s.fd.driveSm))

/-- FD.PROCESS: one FilterDrive sample (R254). -/
def fdProcess (s : State) : State := guardOutput .fd (fdComp (fdSvf (fdOs (fdAaf (fdGate s)))))

/-! The rows. -/

def execFdUpdate (s : State) : Result := .next (fdUpdate s)

def execFdProcess (s : State) : Result := .next (fdProcess s)

def execFdWarm (s : State) : Result := .next (s.setFdWires { s.wires.fd with c := fdWarmCurve s.cfg s.wires.fd.u })

def execFdHard (s : State) : Result := .next (s.setFdWires { s.wires.fd with c := fdHardCurve s.wires.fd.u })

def execFdDestroy (s : State) : Result := .next (s.setFdWires { s.wires.fd with c := fdDestroyCurve s.cfg s.wires.fd.u })

/-- FD.TAP_LP: `TAP(l, b, h) = l` (R250). -/
def execFdTapLp (s : State) : Result := .next (s.setFdWires { s.wires.fd with tap := s.wires.fd.taps.low })

/-- FD.TAP_BP: `TAP(l, b, h) = b` (R251). -/
def execFdTapBp (s : State) : Result := .next (s.setFdWires { s.wires.fd with tap := s.wires.fd.taps.band })

/-- FD.TAP_HP: `TAP(l, b, h) = h` (R252). -/
def execFdTapHp (s : State) : Result := .next (s.setFdWires { s.wires.fd with tap := s.wires.fd.taps.high })

def execFdGate (s : State) : Result := .next (fdGate s)

def execFdAaf (s : State) : Result := .next (fdAaf s)

def execFdOs (s : State) : Result := .next (fdOs s)

def execFdDrive (s : State) : Result := .next (fdDrive s)

def execFdSvf (s : State) : Result := .next (fdSvf s)

def execFdComp (s : State) : Result := .next (fdComp s)

end Sys2Proof.Machine
end

