-- ==== Sys2Proof/Machine/Shepard.lean ====
section
/-! DEFINITION. Mode 3 ShepardTone (44_shepard.md): a generator that never reads its input. SH.PROCESS runs the rows in the
order of R375; every per-voice loop runs in ascending voice order. -/

namespace Sys2Proof.Machine

/-- Replaces ShepardTone's wires. -/
def State.setShWires (s : State) (v : ShWires) : State := s.setWires { s.wires with sh := v }

/-! Control update. -/

/-- `200.0 + 12000.0 × kb × kb`, grouped from the left (R361). -/
def shToneTarget (kb : F32) : F32 := (F32.dec 200 1).add (((F32.dec 12000 1).mul kb).mul kb)

/-- SH.UPDATE on the mode's state (R361); nothing is smoothed (R182). -/
def shUpdated (c : Cfg) (k : Snapshot) (m : ShState) : ShState :=
  let fc := shToneTarget k.kbot
  { m with
    dir := k.swl, range := k.swr, speed := mapexp k.ktop (.dec 1 100) .one, toneFc := fc
    revAmt := accumulated m.revAmt encStep .zero .one k.enc
    tlp := ⟨svfConfigure m.tlp.l fc c.auxRes, svfConfigure m.tlp.r (fc.mul (F32.one.add c.shToneDetune)) c.auxRes⟩ }

/-- SH.UPDATE (R361). -/
def shUpdate (s : State) : State := s.setSh (shUpdated s.cfg s.snap s.sh)

/-- The pitch-phase increment δ of a direction: up, pause, down (R362 to R364). -/
def shDelta (c : Cfg) (speed : F32) : SwPos → F32
  | .p0 => speed.div c.fsf
  | .p1 => .zero
  | .p2 => (speed.div c.fsf).neg

/-- The increment of a direction on the wires (R362 to R364). -/
def shSelectDir (code : SwPos) (s : State) : State :=
  s.setShWires { s.wires.sh with delta := shDelta s.cfg s.sh.speed code }

/-- The frequency bias of a range on the wires (R365 to R367). -/
def shSelectRange (code : SwPos) (s : State) : State :=
  s.setShWires { s.wires.sh with bias := s.cfg.shRangeB.at code }

/-! Stages. -/

/-- A voice's frequency: `(20.0 × B) × exp2(p × 10.0)` (R368). -/
def shFrequency (b p : F32) : F32 := ((F32.dec 20 1).mul b).mul (Config.math.exp2 (p.mul (.dec 10 1)))

/-- A voice's envelope: `0.5 - 0.5 × cos(2π × p)` (R368). -/
def shEnvelope (p : F32) : F32 := (F32.dec 5 10).sub ((F32.dec 5 10).mul (Config.math.cos (F32.twoPi.mul p)))

/-- SH.VOICE for every voice (R368). -/
def shVoice (s : State) : State :=
  s.setShWires { s.wires.sh with
    f := s.sh.p.map (shFrequency (s.cfg.shRangeB.at s.sh.range)), a := s.sh.p.map shEnvelope }

/-- SH.OSC for every voice (R369): the sine value is taken before the phase advances. -/
def shOsc (s : State) : State :=
  (s.setSh { s.sh with th := Oct.zip (stepPhase s.cfg) s.sh.th s.wires.sh.f }).setShWires
    { s.wires.sh with o := s.sh.th.map sinPhase }

/-- A voice's pan position: even voices lean right, odd voices left (R370). -/
def shPanOf (c : Cfg) (q : F32) (odd : Bool) : F32 :=
  (((F32.dec 5 10).add (c.shPanDepth.mul q)).add ((F32.signOf odd).mul c.shPanOff)).clamp .zero .one

/-- The pan positions of the eight voices at one spread-LFO value (R370). -/
def shPans (c : Cfg) (q : F32) : Oct F32 :=
  ⟨shPanOf c q false, shPanOf c q true, shPanOf c q false, shPanOf c q true,
    shPanOf c q false, shPanOf c q true, shPanOf c q false, shPanOf c q true⟩

/-- SH.PAN (R370): both gains of every voice, and one step of the spread LFO. -/
def shPan (s : State) : State :=
  let pan := shPans s.cfg (sinPhase s.sh.panPh)
  (s.setSh { s.sh with panPh := stepPhase s.cfg s.sh.panPh s.cfg.shPanRate }).setShWires
    { s.wires.sh with gL := pan.map F32.one.sub, gR := pan }

/-- The voices' products `(a × o) × g`, summed from 0.0 in ascending order and scaled by 0.15 (R371). -/
def shSumOf (a o g : Oct F32) : F32 :=
  (((Oct.zip F32.mul (Oct.zip F32.mul a o) g).toList.foldl F32.add .zero)).mul (.dec 15 100)

/-- SH.SUM (R371). -/
def shSum (s : State) : State :=
  s.setShWires { s.wires.sh with
    s := ⟨shSumOf s.wires.sh.a s.wires.sh.o s.wires.sh.gL, shSumOf s.wires.sh.a s.wires.sh.o s.wires.sh.gR⟩ }

/-- SH.ADV (R372): every pitch phase moves by δ and wraps. -/
def shAdv (s : State) : State :=
  s.setSh { s.sh with p := s.sh.p.map fun p => (p.add (shDelta s.cfg s.sh.speed s.sh.dir)).wrap01 }

/-- SH.TONE on both channels (R373). -/
def shTone (s : State) : State :=
  let r := svfBoth s.sh.tlp s.wires.sh.s
  (s.setSh { s.sh with tlp := r.1 }).setShWires { s.wires.sh with t := r.2.map Taps.low }

/-- SH.REV (R374): reverb mix and soft limit; the mode's output pair. -/
def shRev (s : State) : State :=
  let r := reverbProcess s.sh.rev s.wires.sh.t
  (s.setSh { s.sh with rev := r.1 }).setY
    (Stereo.zip (fun t rv => softlim (t.add (s.sh.revAmt.mul rv))) s.wires.sh.t r.2)

/-- SH.PROCESS: one ShepardTone sample (R375). -/
def shProcess (s : State) : State :=
  guardOutput .sh (shRev (shTone (shAdv (shSum (shPan (shOsc (shVoice s)))))))

/-! The rows. -/

def execShUpdate (s : State) : Result := .next (shUpdate s)

def execShProcess (s : State) : Result := .next (shProcess s)

/-- SH.UP: `δ = sh.speed / FSf` (R362). -/
def execShUp (s : State) : Result := .next (shSelectDir .p0 s)

/-- SH.PAUSE: `δ = 0.0` (R363). -/
def execShPause (s : State) : Result := .next (shSelectDir .p1 s)

/-- SH.DOWN: `δ = -(sh.speed / FSf)` (R364). -/
def execShDown (s : State) : Result := .next (shSelectDir .p2 s)

/-- SH.LOW: `B = SH_RANGE_B[0]` (R365). -/
def execShLow (s : State) : Result := .next (shSelectRange .p0 s)

/-- SH.MID: `B = SH_RANGE_B[1]` (R366). -/
def execShMid (s : State) : Result := .next (shSelectRange .p1 s)

/-- SH.HIGH: `B = SH_RANGE_B[2]` (R367). -/
def execShHigh (s : State) : Result := .next (shSelectRange .p2 s)

def execShVoice (s : State) : Result := .next (shVoice s)

def execShOsc (s : State) : Result := .next (shOsc s)

def execShPan (s : State) : Result := .next (shPan s)

def execShSum (s : State) : Result := .next (shSum s)

def execShAdv (s : State) : Result := .next (shAdv s)

def execShTone (s : State) : Result := .next (shTone s)

def execShRev (s : State) : Result := .next (shRev s)

end Sys2Proof.Machine
end

