-- ==== Sys2Proof/Machine/Shimmer.lean ====
section
/-! DEFINITION. Mode 2 ShimmerReverb (43_shimmer.md). SR.PROCESS runs the rows in the order of R335. -/

namespace Sys2Proof.Machine

/-- Replaces ShimmerReverb's wires. -/
def State.setSrWires (s : State) (v : SrWires) : State := s.setWires { s.wires with sr := v }

/-! Control update. -/

/-- `SR_TRANS[c]`: +12, -12, +7 semitones (R8, R322 to R324). -/
def srTrans : Tri F32 := ⟨.dec 12 1, (F32.dec 12 1).neg, .dec 7 1⟩

/-- `SR_DETUNE`, 5 cents (R8, R321). -/
def srDetune : F32 := .dec 5 100

/-- SR.UPDATE on the mode's state (R321). -/
def srUpdated (c : Cfg) (k : Snapshot) (m : SrState) : SrState :=
  let hpT := maplin k.kbot (.dec 150 1) (.dec 500 1)
  let hpSm := smoothed m.hpSm hpT (.dec 1 100)
  let revFb := maplin k.ktop (.dec 7 10) (.dec 98 100)
  let pitchT := srTrans.at k.swl
  let pitchSm := smoothed m.pitchSm pitchT c.srPitchSmooth
  { m with
    trans := k.swl, tone := k.swr, hpT := hpT, hpSm := hpSm, revFb := revFb
    shAmt := accumulated m.shAmt encStep .zero (.dec 4 10) k.enc
    pitchT := pitchT, pitchSm := pitchSm
    hp1 := svfConfigureBoth m.hp1 hpSm c.auxRes
    hp2 := svfConfigureBoth m.hp2 hpSm c.auxRes
    tlp := svfConfigureBoth m.tlp (c.srToneLp.at k.swr) c.auxRes
    rev := reverbConfigure m.rev (.feedback revFb (c.srRevDamp.at k.swr))
    shift := ⟨shifterConfigure m.shift.l (pitchSm.sub srDetune), shifterConfigure m.shift.r (pitchSm.add srDetune)⟩ }

/-- SR.UPDATE (R321). -/
def srUpdate (s : State) : State := s.setSr (srUpdated s.cfg s.snap s.sr)

/-- A transposition target on the wires (R322 to R324). -/
def srSelectTrans (code : SwPos) (s : State) : State := s.setSrWires { s.wires.sr with target := srTrans.at code }

/-- The low-pass and damping frequencies of a tone preset on the wires (R325 to R327). -/
def srSelectTone (code : SwPos) (s : State) : State :=
  s.setSrWires { s.wires.sr with lpFc := s.cfg.srToneLp.at code, damp := s.cfg.srRevDamp.at code }

/-! Stages. -/

/-- SR.HPF on both channels (R328): the high taps of two stages in series. -/
def srHpf (s : State) : State :=
  let r1 := svfBoth s.sr.hp1 s.wires.x
  let r2 := svfBoth s.sr.hp2 (r1.2.map Taps.high)
  (s.setSr { s.sr with hp1 := r1.1, hp2 := r2.1 }).setSrWires { s.wires.sr with h := r2.2.map Taps.high }

/-- The pre-delay in samples: `SR_PREDELAY × FSf`, nominally `0.040 × FSf` (R329, I14). -/
def srPreDelay (c : Cfg) : F32 := c.approx.srPredelay.f32.mul c.fsf

/-- SR.PREDLY on both channels (R329): read, then write. -/
def srPredly (s : State) : Result :=
  if !(srPreDelay s.cfg).isFinite then .fault (.unmodelledDelay (srPreDelay s.cfg))
  else .next ((s.setSr { s.sr with pd := Stereo.zip (dlWrite s.cfg.srCap) s.sr.pd s.wires.sr.h }).setSrWires
    { s.wires.sr with p := s.sr.pd.map fun dl => dlRead s.cfg.srCap dl (srPreDelay s.cfg) })

/-- SR.REVIN (R330): pre-delayed input plus scaled shimmer feedback of the previous sample, through the reverb. -/
def srRevin (s : State) : State :=
  let r := reverbProcess s.sr.rev (Stereo.zip (fun p fb => p.add (s.sr.shAmt.mul fb)) s.wires.sr.p s.sr.fb)
  (s.setSr { s.sr with rev := r.1 }).setSrWires { s.wires.sr with rv := r.2 }

/-- SR.AR on both channels (R331): anti-rumble high-pass. -/
def srAr (s : State) : State :=
  let r := svfBoth s.sr.ar s.wires.sr.rv
  (s.setSr { s.sr with ar := r.1 }).setSrWires { s.wires.sr with a := r.2.map Taps.high }

/-- SR.SHIFT on both channels (R332). -/
def srShift (s : State) : State :=
  let l := shifterProcess s.sr.shift.l s.wires.sr.a.l
  let r := shifterProcess s.sr.shift.r s.wires.sr.a.r
  (s.setSr { s.sr with shift := ⟨l.1, r.1⟩ }).setSrWires { s.wires.sr with s := ⟨l.2, r.2⟩ }

/-- `SR_COMP_T`, `SR_COMP_RHO`, and the instance's knee and coefficients (R333). -/
def srCompParams (c : Cfg) : CompParams :=
  ⟨c.approx.srCompT, c.approx.srCompRho, c.srCompW, c.srCompAtt, c.srCompRel⟩

/-- SR.POST on both channels (R333): tone low-pass, DC block, compressor, soft limit; the result is stored as the next
sample's shimmer feedback. -/
def srPost (s : State) : State :=
  let r := svfBoth s.sr.tlp s.wires.sr.s
  let l := r.2.map Taps.low
  let q : Stereo F32 :=
    ⟨dcblock s.cfg.srDcR s.sr.dcX.l s.sr.dcY.l l.l, dcblock s.cfg.srDcR s.sr.dcX.r s.sr.dcY.r l.r⟩
  let k := Stereo.zip (comp (srCompParams s.cfg)) s.sr.compEnv q
  let w := k.map fun p => softlim p.2
  (s.setSr { s.sr with tlp := r.1, dcX := l, dcY := q, compEnv := k.map Prod.fst, fb := w }).setSrWires
    { s.wires.sr with w := w }

/-- `x × (1.0 - 0.5) + w × 0.5` (R334). -/
def srMix (x w : F32) : F32 := (x.mul (F32.one.sub (.dec 5 10))).add (w.mul (.dec 5 10))

/-- SR.OUT on both channels (R334): the mode's output pair. -/
def srOut (s : State) : State := s.setY (Stereo.zip srMix s.wires.x s.wires.sr.w)

/-- SR.PROCESS: one ShimmerReverb sample (R335). -/
def srProcess (s : State) : Result :=
  thenDo (srPredly (srHpf s)) fun s => .next (guardOutput .sr (srOut (srPost (srShift (srAr (srRevin s))))))

/-! The rows. -/

def execSrUpdate (s : State) : Result := .next (srUpdate s)

def execSrProcess (s : State) : Result := srProcess s

/-- SR.UP12: target +12 semitones (R322). -/
def execSrUp12 (s : State) : Result := .next (srSelectTrans .p0 s)

/-- SR.DN12: target -12 semitones (R323). -/
def execSrDn12 (s : State) : Result := .next (srSelectTrans .p1 s)

/-- SR.UP7: target +7 semitones (R324). -/
def execSrUp7 (s : State) : Result := .next (srSelectTrans .p2 s)

/-- SR.BRIGHT: tone code 0 (R325). -/
def execSrBright (s : State) : Result := .next (srSelectTone .p0 s)

/-- SR.NORMAL: tone code 1 (R326). -/
def execSrNormal (s : State) : Result := .next (srSelectTone .p1 s)

/-- SR.DARK: tone code 2 (R327). -/
def execSrDark (s : State) : Result := .next (srSelectTone .p2 s)

def execSrHpf (s : State) : Result := .next (srHpf s)

def execSrPredly (s : State) : Result := srPredly s

def execSrRevin (s : State) : Result := .next (srRevin s)

def execSrAr (s : State) : Result := .next (srAr s)

def execSrShift (s : State) : Result := .next (srShift s)

def execSrPost (s : State) : Result := .next (srPost s)

def execSrOut (s : State) : Result := .next (srOut s)

end Sys2Proof.Machine
end

