-- ==== Sys2Proof/Machine/SpaceEcho.lean ====
section
/-! DEFINITION. Mode 1 SpaceEcho (42_spaceecho.md). SE.PROCESS runs the rows in the order of R294. -/

namespace Sys2Proof.Machine

/-- Replaces SpaceEcho's wires. -/
def State.setSeWires (s : State) (v : SeWires) : State := s.setWires { s.wires with se := v }

/-! Control update. -/

/-- The delay-time target (R281): the top knob ranges over the band that the left switch selects (R282 to R284). -/
def seDelayTarget (c : Cfg) (k : Snapshot) : F32 := maplin k.ktop (c.seBandLo.at k.swl) (c.seBandHi.at k.swl)

/-- SE.UPDATE on the mode's state (R281). -/
def seUpdated (c : Cfg) (k : Snapshot) (e : SeState) : SeState :=
  let tT := seDelayTarget c k
  { e with
    band := k.swl, tone := k.swr, tT := tT, tSm := smoothed e.tSm tT (.dec 5 100)
    fb := k.kbot.mul (.dec 11 10), revAmt := accumulated e.revAmt encStep .zero .one k.enc
    lp := svfConfigureBoth e.lp (c.seToneLp.at k.swr) c.auxRes
    hp := svfConfigureBoth e.hp (c.seToneHp.at k.swr) c.auxRes }

/-- SE.UPDATE (R281). -/
def seUpdate (s : State) : State := s.setSe (seUpdated s.cfg s.snap s.se)

/-- The range of a delay band on the wires (R282 to R284). -/
def seSelectBand (code : SwPos) (s : State) : State :=
  s.setSeWires { s.wires.se with lo := s.cfg.seBandLo.at code, hi := s.cfg.seBandHi.at code }

/-- The cutoffs of a tone preset on the wires (R285 to R287). -/
def seSelectTone (code : SwPos) (s : State) : State :=
  s.setSeWires { s.wires.se with lpFc := s.cfg.seToneLp.at code, hpFc := s.cfg.seToneHp.at code }

/-! Stages. -/

/-- `tL` of SE.MOD, in seconds: smoothed delay time, flutter, noise and drift (R288). -/
def seDelaySeconds (c : Cfg) (e : SeState) : F32 :=
  ((e.tSm.add (c.seFlutDepth.mul (sinPhase e.flutPh))).add (c.seNoiseDepth.mul (noiseNext e.noise).2)).add
    (c.seDriftDepth.mul (triPhase e.driftPh))

/-- `(dL, dR)` of SE.MOD, in samples; the right read is `SE_R_OFFSET` behind (R288). -/
def seDelays (c : Cfg) (e : SeState) : Stereo F32 :=
  ⟨(seDelaySeconds c e).mul c.fsf, ((seDelaySeconds c e).add c.approx.seROffset).mul c.fsf⟩

/-- SE.MOD (R288): the delays, one noise draw, and the phase steps at `SE_FLUT_HZ` and `SE_DRIFT_HZ`. -/
def seMod (s : State) : State :=
  (s.setSe { s.se with
    noise := (noiseNext s.se.noise).1
    flutPh := stepPhase s.cfg s.se.flutPh s.cfg.approx.seFlutHz
    driftPh := stepPhase s.cfg s.se.driftPh s.cfg.approx.seDriftHz }).setSeWires { s.wires.se with d := seDelays s.cfg s.se }

/-- SE.READ (R289): both lines at the delays on the wires; a delay that is not finite ends the run (R186, R511). -/
def seRead (s : State) : Result :=
  if !s.wires.se.d.l.isFinite then .fault (.unmodelledDelay s.wires.se.d.l)
  else if !s.wires.se.d.r.isFinite then .fault (.unmodelledDelay s.wires.se.d.r)
  else .next (s.setSeWires { s.wires.se with r := Stereo.zip (dlRead s.cfg.seCap) s.se.line s.wires.se.d })

/-- `SE_COMP_T`, `SE_COMP_RHO`, and the instance's knee and coefficients (R290). -/
def seCompParams (c : Cfg) : CompParams :=
  ⟨c.approx.seCompT, c.approx.seCompRho, c.seCompW, c.seCompAtt, c.seCompRel⟩

/-- SE.FB on both channels (R290): tone low-pass and high-pass, compressor, saturation, limiter, feedback amount. -/
def seFb (s : State) : State :=
  let r1 := svfBoth s.se.lp s.wires.se.r
  let r2 := svfBoth s.se.hp (r1.2.map Taps.low)
  let k := Stereo.zip (comp (seCompParams s.cfg)) s.se.compEnv (r2.2.map Taps.high)
  (s.setSe { s.se with lp := r1.1, hp := r2.1, compEnv := k.map Prod.fst }).setSeWires
    { s.wires.se with fb := k.map fun p => s.se.fb.mul (softlim (sat s.cfg.seSatGp s.cfg.seSatGn p.2)) }

/-- SE.WRITE on both channels (R291): input plus feedback into the line. -/
def seWrite (s : State) : State :=
  s.setSe { s.se with line := Stereo.zip (dlWrite s.cfg.seCap) s.se.line (Stereo.zip F32.add s.wires.x s.wires.se.fb) }

/-- SE.REV (R292): the reverb on the raw read signals. -/
def seRev (s : State) : State :=
  let r := reverbProcess s.se.rev s.wires.se.r
  (s.setSe { s.se with rev := r.1 }).setSeWires { s.wires.se with v := r.2 }

/-- `x + 0.8 × r + rev_amt × v` (R293). -/
def seMix (amt x r v : F32) : F32 := (x.add ((F32.dec 8 10).mul r)).add (amt.mul v)

/-- SE.OUT on both channels (R293): the mode's output pair. -/
def seOut (s : State) : State :=
  s.setY ⟨seMix s.se.revAmt s.wires.x.l s.wires.se.r.l s.wires.se.v.l,
    seMix s.se.revAmt s.wires.x.r s.wires.se.r.r s.wires.se.v.r⟩

/-- SE.PROCESS: one SpaceEcho sample (R294). -/
def seProcess (s : State) : Result :=
  thenDo (seRead (seMod s)) fun s => .next (guardOutput .se (seOut (seRev (seWrite (seFb s)))))

/-! The rows. -/

def execSeUpdate (s : State) : Result := .next (seUpdate s)

def execSeProcess (s : State) : Result := seProcess s

/-- SE.SHORT: delay band code 0 (R282). -/
def execSeShort (s : State) : Result := .next (seSelectBand .p0 s)

/-- SE.MED: delay band code 1 (R283). -/
def execSeMed (s : State) : Result := .next (seSelectBand .p1 s)

/-- SE.LONG: delay band code 2 (R284). -/
def execSeLong (s : State) : Result := .next (seSelectBand .p2 s)

/-- SE.BRIGHT: tone preset code 0 (R285). -/
def execSeBright (s : State) : Result := .next (seSelectTone .p0 s)

/-- SE.NORMAL: tone preset code 1 (R286). -/
def execSeNormal (s : State) : Result := .next (seSelectTone .p1 s)

/-- SE.DARK: tone preset code 2 (R287). -/
def execSeDark (s : State) : Result := .next (seSelectTone .p2 s)

def execSeMod (s : State) : Result := .next (seMod s)

def execSeRead (s : State) : Result := seRead s

def execSeFb (s : State) : Result := .next (seFb s)

def execSeWrite (s : State) : Result := .next (seWrite s)

def execSeRev (s : State) : Result := .next (seRev s)

def execSeOut (s : State) : Result := .next (seOut s)

end Sys2Proof.Machine
end

