-- ==== Sys2Proof/Machine/Switcher.lean ====
section
/-! DEFINITION. The ModeSwitcher (45_modeswitcher.md): one step per block. -/

namespace Sys2Proof.Machine

/-- `XF_THRESH` = 0.001 (R8, R402). -/
def xfThresh : F32 := .dec 1 1000

/-- The volume after one fade-out step: `d × d` with `d = max(v - s, 0.0)` (R402). -/
def fadeOutVolume (step v : F32) : F32 := ((v.sub step).max .zero).mul ((v.sub step).max .zero)

/-- SW.FADEOUT on `xf` (R402): step down, and swap at or below the threshold. -/
def xfFadeOut (step : F32) (xf : Xf) : Xf :=
  if (fadeOutVolume step xf.volume).le xfThresh then
    { xf with volume := fadeOutVolume step xf.volume, active := xf.pending, state := .fadingIn }
  else { xf with volume := fadeOutVolume step xf.volume }

/-- The volume after one fade-in step: `sqrt(min(v + s, 1.0))` (R403). -/
def fadeInVolume (step v : F32) : F32 := ((v.add step).min .one).sqrt

/-- SW.FADEIN on `xf` (R403): step up, and Steady at full volume. -/
def xfFadeIn (step : F32) (xf : Xf) : Xf :=
  if F32.one.le (fadeInVolume step xf.volume) then { xf with volume := .one, state := .steady }
  else { xf with volume := fadeInVolume step xf.volume }

/-- The Steady case (R401): a press starts the fade-out toward the next mode; the volume stays. -/
def xfPress (press : Bool) (xf : Xf) : Xf :=
  if press then { xf with pending := xf.active.next, state := .fadingOut } else xf

/-- SW.ADVANCE on `xf` (R400, R401). A press outside Steady has no effect (R404). -/
def xfAdvance (step : F32) (press : Bool) (xf : Xf) : Xf :=
  match xf.state with
  | .steady => xfPress press xf
  | .fadingOut => xfFadeOut step xf
  | .fadingIn => xfFadeIn step xf

/-- SW.ADVANCE (R401). -/
def swAdvance (s : State) : State := s.setXf (xfAdvance s.cfg.xfStep s.snap.press s.xf)

def execSwAdvance (s : State) : Result := .next (swAdvance s)

/-- SW.FADEOUT (R402). -/
def execSwFadeout (s : State) : Result := .next (s.setXf (xfFadeOut s.cfg.xfStep s.xf))

/-- SW.FADEIN (R403). -/
def execSwFadein (s : State) : Result := .next (s.setXf (xfFadeIn s.cfg.xfStep s.xf))

end Sys2Proof.Machine
end

