-- ==== Sys2Proof/Machine/Engine.lean ====
section
/-! DEFINITION. The AudioEngine (46_engine.md): the operations of format ENGINE, and the host commands RESET and BLOCK. -/

namespace Sys2Proof.Machine

/-! Block rate. -/

/-- ENG.READ: latches the control snapshot from the port; -0.0 is read as 0.0 (R432). -/
def engRead (s : State) : State :=
  s.setSnap { s.ports.ctl with ktop := s.ports.ctl.ktop.positiveZero, kbot := s.ports.ctl.kbot.positiveZero }

/-- The control update of a mode (R433). -/
def updateMode (m : Mode) (s : State) : State :=
  match m with
  | .fd => fdUpdate s
  | .se => seUpdate s
  | .sr => srUpdate s
  | .sh => shUpdate s

/-- ENG.UPDATE: the control update of the active mode (R433). -/
def engUpdate (s : State) : State := updateMode s.xf.active s

/-- SMOOTH on its operands (R180). -/
def smoothWires (w : Wires) : Wires := { w with smY := smoothed w.smY w.smT w.smC }

/-- ACC on its operands, the delta being `snap.enc` (R183). -/
def accWires (enc : BitVec 16) (w : Wires) : Wires := { w with accA := accumulated w.accA w.accStep w.accLo w.accHi enc }

/-! Sample rate. -/

/-- ENG.INGAIN: `G_IN[a] × in` on both channels (R434). -/
def engIngain (s : State) : State :=
  s.setWires { s.wires with x := s.wires.inp.map ((s.cfg.gIn.at s.xf.active).mul) }

/-- One sample of a mode (R435). -/
def processMode (m : Mode) (s : State) : Result :=
  match m with
  | .fd => .next (fdProcess s)
  | .se => seProcess s
  | .sr => srProcess s
  | .sh => .next (shProcess s)

/-- ENG.DISPATCH: one sample of the active mode (R435). -/
def engDispatch (s : State) : Result := processMode s.xf.active s

/-- Mid/side widening of one pair (R436). -/
def widen (w : F32) (y : Stereo F32) : Stereo F32 :=
  let mid := (y.l.add y.r).div (.dec 2 1)
  let side := (y.l.sub y.r).div (.dec 2 1)
  let sw := side.mul (F32.one.add w)
  ⟨mid.add sw, mid.sub sw⟩

/-- ENG.WIDTH (R436). -/
def engWidth (s : State) : State := s.setWires { s.wires with w := widen s.cfg.w s.wires.y }

/-- ENG.XFADE: the crossfade gain; the result is the block's next frame (R437). -/
def engXfade (s : State) : State :=
  s.setWires { s.wires with frame := s.wires.frame ++ [s.wires.w.map fun v => v.mul s.xf.volume] }

/-! End of block. -/

/-- ENG.LIMIT: the block limiter with the pregain of the active mode (R438). -/
def engLimit (s : State) : State :=
  let r := limiterProcess s.cfg.limCeil (s.cfg.gLim.at s.xf.active) s.lim s.wires.frame
  (s.setLim r.1).setWires { s.wires with out := r.2 }

/-- IND: the indicator output (R439). -/
def indicate (s : State) : State := s.setPorts { s.ports with ind := indicatorOf s.xf }

/-! Host commands. -/

/-- The end of an accepted command: the sequencer is IDLE again, the command's payload and local values are gone, and
the indicator is updated (R431, R33). -/
def finishCommand (s : State) : State :=
  indicate (((s.setSeq .idle).setPorts { s.ports with ctl := .s0, ain := [] }).setWires .idle)

/-- The state changes of RESET in the order of R430. -/
def resetEngine (s : State) : State :=
  let s := s.setXf .reset
  let s := modeReset .sh (modeReset .sr (modeReset .se (modeReset .fd s)))
  ((s.setLim limiterInit).setSnap .s0).setSeq .idle

/-- A BLOCK is taken: its snapshot and frames stand at the ports (R33), and the sequencer is at CTRL (R31). -/
def acceptBlock (k : Snapshot) (frames : List (Stereo F32)) (s : State) : State :=
  ((s.setPorts { s.ports with ctl := k, ain := frames }).setWires .idle).setSeq .ctrl

/-- The CTRL part of a block: latch, update the mode active before the advance, advance the switcher (R431). -/
def runCtrl (s : State) : State := swAdvance (engUpdate (engRead s))

/-- One frame: input gain, mode, guard, widening, crossfade (R431). -/
def runFrame (n : Nat) (f : Stereo F32) (s : State) : Result :=
  thenDo (engDispatch (engIngain ((s.setSeq (.sample n)).setWires { s.wires with inp := f })))
    fun s => .next (engXfade (engWidth s))

/-- Frames n, n+1, … in order (R431). -/
def runFrames : Nat → List (Stereo F32) → State → Result
  | _, [], s => .next s
  | n, f :: rest, s => thenDo (runFrame n f s) (runFrames (n + 1) rest)

/-- The limiter's frames leave on `aout` (R440, R141). -/
def emit (s : State) : State := s.setPorts { s.ports with aout := s.ports.aout ++ s.wires.out }

/-- The LIMIT part of a block (R431). -/
def runLimit (s : State) : State := finishCommand (emit (engLimit (s.setSeq .limit)))

/-- A BLOCK whose checks have passed (R431). -/
def runBlock (k : Snapshot) (frames : List (Stereo F32)) (s : State) : Result :=
  thenDo (runFrames 0 frames (runCtrl (acceptBlock k frames s))) fun s => .next (runLimit s)

/-! The rows. -/

/-- RESET (R430). -/
def execReset (s : State) : Result := .next (finishCommand (resetEngine s))

/-- BLOCK (R431): the checks in their order (R511), then the block. -/
def execBlock (enc : BitVec 16) (press : Bool) (swl swr : BitVec 2) (ktop kbot : Word) (frames : List (Stereo Word))
    (s : State) : Result :=
  match SwPos.ofBits swl, SwPos.ofBits swr with
  | some l, some r =>
    if knobOk ktop && knobOk kbot then
      runBlock ⟨.ofBits ktop, .ofBits kbot, enc, press, l, r⟩ (frames.map (Stereo.map F32.ofBits)) s
    else .next (refuse (.knobRange ktop kbot) s)
  | _, _ => .next (refuse (.badSwitchCode (blockWord enc press swl swr)) s)

def execEngRead (s : State) : Result := .next (engRead s)

def execEngUpdate (s : State) : Result := .next (engUpdate s)

def execSmooth (s : State) : Result := .next (s.setWires (smoothWires s.wires))

def execAcc (s : State) : Result := .next (s.setWires (accWires s.snap.enc s.wires))

def execEngIngain (s : State) : Result := .next (engIngain s)

def execEngDispatch (s : State) : Result := engDispatch s

/-- GUARD for the active mode (R200). -/
def execGuard (s : State) : Result := .next (guardOutput s.xf.active s)

def execEngWidth (s : State) : Result := .next (engWidth s)

def execEngXfade (s : State) : Result := .next (engXfade s)

def execEngLimit (s : State) : Result := .next (engLimit s)

def execInd (s : State) : Result := .next (indicate s)

end Sys2Proof.Machine
end

