-- ==== Sys2Proof/Machine/Dispatch.lean ====
section
/-! DEFINITION. The meaning of every instruction, one arm per constructor. -/

namespace Sys2Proof.Machine

def exec (i : Instr) (s : State) : Host.Outcome State Fault Refusal :=
  match i with
  -- host commands
  | .reset => Sys2Proof.Machine.execReset s
  | .block enc press swl swr ktop kbot frames => Sys2Proof.Machine.execBlock enc press swl swr ktop kbot frames s
  -- FilterDrive
  | .fdUpdate => Sys2Proof.Machine.execFdUpdate s
  | .fdProcess => Sys2Proof.Machine.execFdProcess s
  | .fdWarm => Sys2Proof.Machine.execFdWarm s
  | .fdHard => Sys2Proof.Machine.execFdHard s
  | .fdDestroy => Sys2Proof.Machine.execFdDestroy s
  | .fdTapLp => Sys2Proof.Machine.execFdTapLp s
  | .fdTapBp => Sys2Proof.Machine.execFdTapBp s
  | .fdTapHp => Sys2Proof.Machine.execFdTapHp s
  | .fdGate => Sys2Proof.Machine.execFdGate s
  | .fdAaf => Sys2Proof.Machine.execFdAaf s
  | .fdOs => Sys2Proof.Machine.execFdOs s
  | .fdDrive => Sys2Proof.Machine.execFdDrive s
  | .fdSvf => Sys2Proof.Machine.execFdSvf s
  | .fdComp => Sys2Proof.Machine.execFdComp s
  -- SpaceEcho
  | .seUpdate => Sys2Proof.Machine.execSeUpdate s
  | .seProcess => Sys2Proof.Machine.execSeProcess s
  | .seShort => Sys2Proof.Machine.execSeShort s
  | .seMed => Sys2Proof.Machine.execSeMed s
  | .seLong => Sys2Proof.Machine.execSeLong s
  | .seBright => Sys2Proof.Machine.execSeBright s
  | .seNormal => Sys2Proof.Machine.execSeNormal s
  | .seDark => Sys2Proof.Machine.execSeDark s
  | .seMod => Sys2Proof.Machine.execSeMod s
  | .seRead => Sys2Proof.Machine.execSeRead s
  | .seFb => Sys2Proof.Machine.execSeFb s
  | .seWrite => Sys2Proof.Machine.execSeWrite s
  | .seRev => Sys2Proof.Machine.execSeRev s
  | .seOut => Sys2Proof.Machine.execSeOut s
  -- ShimmerReverb
  | .srUpdate => Sys2Proof.Machine.execSrUpdate s
  | .srProcess => Sys2Proof.Machine.execSrProcess s
  | .srUp12 => Sys2Proof.Machine.execSrUp12 s
  | .srDn12 => Sys2Proof.Machine.execSrDn12 s
  | .srUp7 => Sys2Proof.Machine.execSrUp7 s
  | .srBright => Sys2Proof.Machine.execSrBright s
  | .srNormal => Sys2Proof.Machine.execSrNormal s
  | .srDark => Sys2Proof.Machine.execSrDark s
  | .srHpf => Sys2Proof.Machine.execSrHpf s
  | .srPredly => Sys2Proof.Machine.execSrPredly s
  | .srRevin => Sys2Proof.Machine.execSrRevin s
  | .srAr => Sys2Proof.Machine.execSrAr s
  | .srShift => Sys2Proof.Machine.execSrShift s
  | .srPost => Sys2Proof.Machine.execSrPost s
  | .srOut => Sys2Proof.Machine.execSrOut s
  -- ShepardTone
  | .shUpdate => Sys2Proof.Machine.execShUpdate s
  | .shProcess => Sys2Proof.Machine.execShProcess s
  | .shUp => Sys2Proof.Machine.execShUp s
  | .shPause => Sys2Proof.Machine.execShPause s
  | .shDown => Sys2Proof.Machine.execShDown s
  | .shLow => Sys2Proof.Machine.execShLow s
  | .shMid => Sys2Proof.Machine.execShMid s
  | .shHigh => Sys2Proof.Machine.execShHigh s
  | .shVoice => Sys2Proof.Machine.execShVoice s
  | .shOsc => Sys2Proof.Machine.execShOsc s
  | .shPan => Sys2Proof.Machine.execShPan s
  | .shSum => Sys2Proof.Machine.execShSum s
  | .shAdv => Sys2Proof.Machine.execShAdv s
  | .shTone => Sys2Proof.Machine.execShTone s
  | .shRev => Sys2Proof.Machine.execShRev s
  -- ModeSwitcher
  | .swAdvance => Sys2Proof.Machine.execSwAdvance s
  | .swFadeout => Sys2Proof.Machine.execSwFadeout s
  | .swFadein => Sys2Proof.Machine.execSwFadein s
  -- AudioEngine
  | .engRead => Sys2Proof.Machine.execEngRead s
  | .engUpdate => Sys2Proof.Machine.execEngUpdate s
  | .smooth => Sys2Proof.Machine.execSmooth s
  | .acc => Sys2Proof.Machine.execAcc s
  | .engIngain => Sys2Proof.Machine.execEngIngain s
  | .engDispatch => Sys2Proof.Machine.execEngDispatch s
  | .guard => Sys2Proof.Machine.execGuard s
  | .engWidth => Sys2Proof.Machine.execEngWidth s
  | .engXfade => Sys2Proof.Machine.execEngXfade s
  | .engLimit => Sys2Proof.Machine.execEngLimit s
  | .ind => Sys2Proof.Machine.execInd s

end Sys2Proof.Machine
end

