-- ==== Sys2Proof/Machine/Fetch.lean ====
section
/-! DEFINITION. What the next step decodes: the row port when it holds a selector, otherwise the command stream (R130). -/

namespace Sys2Proof.Machine

/-- The code at the head of the machine's input. -/
def nextCode (s : State) : Code :=
  match s.row with
  | some (slot, sel) => .select slot sel
  | none => .command s.ports.cmd

/-- The state with the fetched code taken from the input: the row port emptied, or the command's words removed
(R148). -/
def consume (rest : List Word) (s : State) : State :=
  match s.row with
  | some _ => s.setRow none
  | none => s.setPorts { s.ports with cmd := rest }

/-- A code that is no instruction: a host command is refused and the next one follows it (R132, R136, R510); a selector
without a row stops the model. -/
def rejectCode (why : Reject) (s : State) : Result :=
  match why with
  | .badOpcode cw => .next (refuse (.badOpcode cw) s)
  | .reservedBits cw => .next (refuse (.reservedBits cw) s)
  | .noRow slot sel => .refused (.noRow slot sel)

/-- A code placed where the next step takes it. -/
def placeCode (c : Code) (s : State) : State :=
  match c with
  | .command words => (s.setRow none).setPorts { s.ports with cmd := words }
  | .select slot sel => s.setRow (some (slot, sel))

end Sys2Proof.Machine
end

