-- ==== Sys2Proof/Machine/Step.lean ====
section
/-! DEFINITION. One step: one host command (R130), or the one row whose selector stands in the row port. With no whole
command arrived the engine is idle with its state held (R519). -/

namespace Sys2Proof.Machine

def step (s : State) : Host.Outcome State Fault Refusal :=
  match decode s.cfg.n (nextCode s) with
  | .waiting => .next s
  | .rejected why rest => rejectCode why (consume rest s)
  | .instr i rest => exec i (consume rest s)

/-- `s` with the instruction whose bits are `w` where `step` takes its next one (assumption 12). -/
def State.withFetchWord (s : State) (nbits w : Nat) : State := placeCode (codeOfTableWord s.cfg.n nbits w) s

end Sys2Proof.Machine
end

