-- ==== Sys2Proof/Machine/Asm.lean ====
section
/-! DEFINITION. The spec's textual form of commands (R149) and its pseudo-commands (R150), as syntax trees, and the words a
program of them assembles to. -/

namespace Sys2Proof

/-- `in=<frames>` (R149). Samples are binary32 words. -/
inductive FramesArg where
  | zero
  | const (l r : Word)
  | impulse (a : Word)
  | list (frames : List (Stereo Word))
  | nanAt (k : Nat)
deriving DecidableEq, Repr

/-- The frames of a block of `n` frames (R149). -/
def FramesArg.frames (n : Nat) : FramesArg → List (Stereo Word)
  | .zero => List.replicate n (.both 0#32)
  | .const l r => List.replicate n ⟨l, r⟩
  | .impulse a => (List.range n).map fun k => if k = 0 then .both a else .both 0#32
  | .list fs => fs
  | .nanAt k => (List.range n).map fun j => if j = k then .both F32.nan.toBits else .both 0#32

/-- The fields of a textual BLOCK; `none` is an omitted field (R149). -/
structure BlockArgs where
  kt : Option Word
  kb : Option Word
  enc : Option (BitVec 16)
  press : Option Bool
  swl : Option (BitVec 2)
  swr : Option (BitVec 2)
  inp : Option FramesArg
deriving DecidableEq, Repr

/-- Every field omitted. -/
def BlockArgs.defaults : BlockArgs := ⟨none, none, none, none, none, none, none⟩

/-- A line of a program (R149, R150). -/
inductive AsmLine where
  | reset
  | block (a : BlockArgs)
  | press
  | turn (d : BitVec 16)
  | idle (k : Nat)
  | set (kt kb : Option Word) (swl swr : Option (BitVec 2))
deriving DecidableEq, Repr

/-- The expansion of a pseudo-command (R150). -/
def AsmLine.expand : AsmLine → List AsmLine
  | .press => [.block { BlockArgs.defaults with press := some true }]
  | .turn d => [.block { BlockArgs.defaults with enc := some d }]
  | .idle k => List.replicate k (.block .defaults)
  | .set kt kb swl swr =>
    [.block { BlockArgs.defaults with kt := kt, kb := kb, swl := swl, swr := swr, enc := some 0#16, press := some false }]
  | line => [line]

/-- The fields an omitted one takes its value from: the previous BLOCK's, or S0's (R149). -/
structure AsmCarry where
  kt : Word
  kb : Word
  swl : BitVec 2
  swr : BitVec 2
deriving DecidableEq, Repr

/-- S0's fields (R44, R149). -/
def AsmCarry.s0 : AsmCarry := ⟨0#32, 0#32, 0#2, 0#2⟩

/-- The fields after a BLOCK. -/
def AsmCarry.after (c : AsmCarry) (a : BlockArgs) : AsmCarry :=
  ⟨a.kt.getD c.kt, a.kb.getD c.kb, a.swl.getD c.swl, a.swr.getD c.swr⟩

/-- The instruction of an expanded line, for a block size of `n` frames. -/
def asmInstr (n : Nat) (c : AsmCarry) (a : BlockArgs) : Instr :=
  .block (a.enc.getD 0#16) (a.press.getD false) (a.swl.getD c.swl) (a.swr.getD c.swr) (a.kt.getD c.kt) (a.kb.getD c.kb)
    ((a.inp.getD .zero).frames n)

/-- The instructions of expanded lines. -/
def asmExpanded (n : Nat) : AsmCarry → List AsmLine → List Instr
  | _, [] => []
  | c, .block a :: rest => asmInstr n c a :: asmExpanded n (c.after a) rest
  | _, .reset :: rest => .reset :: asmExpanded n .s0 rest
  | c, _ :: rest => asmExpanded n c rest

/-- The instructions of a program. -/
def asmProgram (n : Nat) (lines : List AsmLine) : List Instr :=
  asmExpanded n .s0 (lines.flatMap AsmLine.expand)

/-- A command's words. -/
def wordsOf (i : Instr) : List Word :=
  match encode i with
  | .command ws => ws
  | .select _ _ => []

/-- The command stream of a program (R130). -/
def assemble (n : Nat) (lines : List AsmLine) : List Word := (asmProgram n lines).flatMap wordsOf

end Sys2Proof
end

