-- ==== Sys2Proof/Safety.lean ====
section
/-! DEFINITION. What counts as a safe run, in the terms the statements use: ranges of control values, the form of the
memories, the shape of a fade, which mode a row of the opcode table belongs to, and rows run one after another. -/

namespace Sys2Proof.Machine

/-- A datum in [lo, hi]; NaN is in no range. -/
def within (lo hi x : F32) : Bool := lo.le x && x.le hi

/-- A datum in [0, 1]. -/
def inUnit (x : F32) : Bool := within .zero .one x

/-- A datum in [-1, 1]. -/
def inOne (x : F32) : Bool := within F32.one.neg .one x

/-- The same number: the same datum, or two zeros (binary32 has two zeros, which compare equal: R9). -/
def sameNumber (x y : F32) : Prop := x = y ∨ (x.isZero = true ∧ y.isZero = true)

/-- Every delay line has the canonical form at its capacity, with its write index in range (R100, R101, R103). -/
def memoryOk (s : State) : Bool :=
  Memory.wf s.cfg.seCap s.se.line.l && Memory.wf s.cfg.seCap s.se.line.r &&
  Memory.wf s.cfg.srCap s.sr.pd.l && Memory.wf s.cfg.srCap s.sr.pd.r

/-- A snapshot whose knobs are in [0, 1] (R34). -/
def Snapshot.ok (k : Snapshot) : Bool := inUnit k.ktop && inUnit k.kbot

/-- A phase, or another datum in [0, 1). -/
def inPhase (x : F32) : Bool := F32.zero.le x && x.lt .one

/-- The LFO and pitch phases are in [0, 1) (tables E, T), and the speed they advance by is a finite number. (The oscillator
phases `sh.th` are in [0, 1) as long as the voice frequencies are finite, which R11 does not grant of `exp2`.) -/
def phasesOk (s : State) : Bool :=
  inPhase s.se.flutPh && inPhase s.se.driftPh && inPhase s.sh.panPh && s.sh.p.toList.all inPhase && s.sh.speed.isFinite

/-- The ranges the state tables give (R34, R37, tables F, E, H, T): knobs, crossfade volume, encoder accumulators, FilterDrive's
resonance and smoothed values, SpaceEcho's feedback, ShimmerReverb's high-pass, shimmer amount, reverb feedback and
transposition target, ShepardTone's tone cutoff, and the phases. -/
def controlsOk (s : State) : Bool :=
  s.snap.ok && s.ports.ctl.ok && inUnit s.xf.volume &&
  inUnit s.fd.driveAcc && inUnit s.fd.driveSm && inUnit s.fd.resT && inUnit s.fd.resSm &&
  inUnit s.se.revAmt && within .zero (.dec 11 10) s.se.fb && within .zero (.dec 4 10) s.sr.shAmt && inUnit s.sh.revAmt &&
  within (.dec 150 1) (.dec 500 1) s.sr.hpT && within (.dec 150 1) (.dec 500 1) s.sr.hpSm &&
  within (.dec 7 10) (.dec 98 100) s.sr.revFb && within (F32.dec 12 1).neg (.dec 12 1) s.sr.pitchT &&
  within (.dec 200 1) (.dec 12200 1) s.sh.toneFc && phasesOk s

/-- The smoothed transposition is in [-12, 12] semitones (table H). -/
def pitchOk (s : State) : Bool := within (F32.dec 12 1).neg (.dec 12 1) s.sr.pitchSm

/-- What the engine configures with these parameters is in the stable ranges of THE instance's units (R199, R550). -/
def unitsOk (c : Cfg) : Prop := c.InRange Config.svf Config.reverb Config.shifter

/-- During FadingIn the pending mode is the active one (R439). -/
def fadeOk (xf : Xf) : Bool := decide (xf.state = .fadingIn → xf.pending = xf.active)

/-- The checks a BLOCK's operands pass to be accepted (R431): legal switch codes, knobs in [0, 1]. -/
def blockAccepted (swl swr : BitVec 2) (ktop kbot : Word) : Bool :=
  switchOk swl && switchOk swr && knobOk ktop && knobOk kbot

/-- SpaceEcho's delay settings are of ordinary size: a sample rate of 1 to 2^24 Hz, times, depths and the offset of at
most 2^20 seconds, LFO phases in [0, 1], LFO rates finite. Then every read delay is a finite number, now and through the
frames of a block (R186: "a non-finite d cannot arise"). -/
def echoTame (s : State) : Bool :=
  let small := within (F32.dec 1048576 1).neg (.dec 1048576 1)
  decide (0 < s.cfg.fs) && decide (s.cfg.fs ≤ 2 ^ 24) &&
  small s.cfg.seFlutDepth && small s.cfg.seNoiseDepth && small s.cfg.seDriftDepth &&
  small s.cfg.approx.seROffset &&
  small s.cfg.seBandLo.a0 && small s.cfg.seBandLo.a1 && small s.cfg.seBandLo.a2 &&
  small s.cfg.seBandHi.a0 && small s.cfg.seBandHi.a1 && small s.cfg.seBandHi.a2 &&
  small s.se.tSm && inUnit s.se.flutPh && inUnit s.se.driftPh &&
  s.cfg.approx.seFlutHz.isFinite && s.cfg.approx.seDriftHz.isFinite

/-- The mode a row belongs to: the rows of formats SEL and STAGE name it in `M` (R142). -/
def modeOfRow : Instr → Option Mode
  | .reset | .block .. => none
  | .fdUpdate | .fdProcess | .fdWarm | .fdHard | .fdDestroy | .fdTapLp | .fdTapBp | .fdTapHp => some .fd
  | .fdGate | .fdAaf | .fdOs | .fdDrive | .fdSvf | .fdComp => some .fd
  | .seUpdate | .seProcess | .seShort | .seMed | .seLong | .seBright | .seNormal | .seDark => some .se
  | .seMod | .seRead | .seFb | .seWrite | .seRev | .seOut => some .se
  | .srUpdate | .srProcess | .srUp12 | .srDn12 | .srUp7 | .srBright | .srNormal | .srDark => some .sr
  | .srHpf | .srPredly | .srRevin | .srAr | .srShift | .srPost | .srOut => some .sr
  | .shUpdate | .shProcess | .shUp | .shPause | .shDown | .shLow | .shMid | .shHigh => some .sh
  | .shVoice | .shOsc | .shPan | .shSum | .shAdv | .shTone | .shRev => some .sh
  | .swAdvance | .swFadeout | .swFadein => none
  | .engRead | .engUpdate | .smooth | .acc | .engIngain | .engDispatch | .guard | .engWidth | .engXfade => none
  | .engLimit | .ind => none

/-- Rows run one after another. -/
def runRows : List Instr → State → Result
  | [], s => .next s
  | i :: rest, s => thenDo (exec i s) (runRows rest)

/-- Frames n, n+1, … of a block, each fed to the rows of R431's loop body in their order. -/
def runFrameRows : Nat → List (Stereo F32) → State → Result
  | _, [], s => .next s
  | n, f :: rest, s =>
    thenDo (runRows [.engIngain, .engDispatch, .engWidth, .engXfade]
      { s with seq := .sample n, wires := { s.wires with inp := f } }) (runFrameRows (n + 1) rest)

/-- `k` fade-out steps (R402). -/
def fadeOutSteps (step : F32) : Nat → Xf → Xf
  | 0, xf => xf
  | k + 1, xf => fadeOutSteps step k (if xf.state = .fadingOut then xfFadeOut step xf else xf)

/-- `k` fade-in steps (R403). -/
def fadeInSteps (step : F32) : Nat → Xf → Xf
  | 0, xf => xf
  | k + 1, xf => fadeInSteps step k (if xf.state = .fadingIn then xfFadeIn step xf else xf)

end Sys2Proof.Machine
end

