-- ==== Sys2Proof/Certificates/Slice0/Obligations.lean ====
section
/-! DEFINITION. The statements for the provers. A statement whose conclusion is `exec i s = .next { s with … }` says at once
that the instruction completes, what it computes and that everything the record update does not name is unchanged: every
other register, every mode's state, every element of every delay line, the ports and the event log. -/

open Sys2Proof Sys2Proof.Machine

/-! Encoding and decoding (30_encoding.md). -/

/-- Decoding the code of a well-formed instruction gives it back, whatever words follow a command (R131, R133 to R138,
R142, R148, R149). -/
def Obligations.DecodeOfEncodeIsIdentity : Prop :=
  ∀ (n : Nat) (i : Instr), i.wf n = true →
    decode n (encode i) = .instr i [] ∧
    (∀ words rest, encode i = .command words → decode n (.command (words ++ rest)) = .instr i rest)

/-- Every stream of words that decodes to an instruction begins with exactly that instruction's encoding: no accepted
command word has a bit the instruction does not show (R131, R136, R137, R148). -/
def Obligations.EncodeOfDecodeIsIdentity : Prop :=
  ∀ (n : Nat) (words : List Word) (i : Instr) (rest : List Word), decode n (.command words) = .instr i rest →
    ∃ used, encode i = .command used ∧ words = used ++ rest

/-- R132: OP 1 is RESET, OP 2 is BLOCK; at any other OP the step refuses with BadOpcode and takes only the command
word. -/
def Obligations.OpcodeFieldSelectsCommand : Prop :=
  (∀ (n : Nat) (cw : Word) (words : List Word) (i : Instr) (rest : List Word),
    decode n (.command (cw :: words)) = .instr i rest →
      (cwOp cw = 1#4 ∧ i = .reset) ∨
      (cwOp cw = 2#4 ∧ ∃ ktop kbot frames,
        i = .block (cwEnc cw) (cwPress cw) (cwSwl cw) (cwSwr cw) ktop kbot frames)) ∧
  (∀ (s : State) (cw : Word) (rest : List Word), s.row = none → s.ports.cmd = cw :: rest →
    cwOp cw ≠ 1#4 → cwOp cw ≠ 2#4 →
      step s = .next { s with
        ports := { s.ports with cmd := rest }, refused := true, events := s.events ++ [.badOpcode cw] })

/-- R136: the four reserved encodings of a command word are refused with no state change but the refusal mark and the
logged reason (R510). Two things are the model's choice: a BLOCK is looked at only once its payload has arrived
(assumption 14), and a refusal is a next state in which the words of the command are taken (assumption 15). -/
def Obligations.ReservedEncodingsAreRefused : Prop :=
  ∀ (s : State) (cw : Word) (payload rest : List Word), s.row = none →
    (cwOp cw ≠ 1#4 → cwOp cw ≠ 2#4 → s.ports.cmd = cw :: rest →
      step s = .next { s with
        ports := { s.ports with cmd := rest }, refused := true, events := s.events ++ [.badOpcode cw] }) ∧
    (cwOp cw = 1#4 → cwAboveOp cw ≠ 0#28 → s.ports.cmd = cw :: rest →
      step s = .next { s with
        ports := { s.ports with cmd := rest }, refused := true, events := s.events ++ [.reservedBits cw] }) ∧
    (cwOp cw = 2#4 → payload.length = 2 + 2 * s.cfg.n → s.ports.cmd = cw :: (payload ++ rest) →
      (cwRsv cw ≠ 0#7 →
        step s = .next { s with
          ports := { s.ports with cmd := rest }, refused := true, events := s.events ++ [.reservedBits cw] }) ∧
      (cwRsv cw = 0#7 → cwSwl cw = 3#2 ∨ cwSwr cw = 3#2 →
        step s = .next { s with
          ports := { s.ports with cmd := rest }, refused := true, events := s.events ++ [.badSwitchCode cw] }))

/-- BLOCK's own refusals in their order (R431, R511): a switch code 3 first, then a knob word that is NaN, infinite,
below 0.0 or above 1.0 (R139). Nothing changes but the refusal mark and the log (R510); no frame is emitted. -/
def Obligations.BlockRefusalsInOrder : Prop :=
  ∀ (s : State) (enc : BitVec 16) (press : Bool) (swl swr : BitVec 2) (ktop kbot : Word) (frames : List (Stereo Word)),
    (swl = 3#2 ∨ swr = 3#2 →
      exec (.block enc press swl swr ktop kbot frames) s =
        .next { s with refused := true, events := s.events ++ [.badSwitchCode (blockWord enc press swl swr)] }) ∧
    (swl ≠ 3#2 → swr ≠ 3#2 →
      (∃ k ∈ [ktop, kbot], (F32.ofBits k).isFinite = false ∨ (F32.ofBits k).lt .zero = true ∨
        F32.one.lt (F32.ofBits k) = true) →
      exec (.block enc press swl swr ktop kbot frames) s =
        .next { s with refused := true, events := s.events ++ [.knobRange ktop kbot] })

/-- R143: any selector matches exactly one `*.PROCESS` row and exactly one `*.UPDATE` row; with neither switch code 3 it
matches exactly one left-switch row and exactly one right-switch row; and the selector the engine forms never has a switch
code 3. -/
def Obligations.SelectorPicksExactlyOneRow : Prop :=
  (∀ sel : BitVec 6,
    (rows.filter fun r => r.fits .process sel).length = 1 ∧
    (rows.filter fun r => r.fits .update sel).length = 1 ∧
    (sel.extractLsb' 2 2 ≠ 3#2 → sel.extractLsb' 4 2 ≠ 3#2 →
      (rows.filter fun r => r.fits .left sel).length = 1 ∧ (rows.filter fun r => r.fits .right sel).length = 1)) ∧
  (∀ s : State, (selector s).extractLsb' 0 2 = s.xf.active.toBits ∧
    (selector s).extractLsb' 2 2 = (leftCode s s.xf.active).toBits ∧ (selector s).extractLsb' 2 2 ≠ 3#2 ∧
    (selector s).extractLsb' 4 2 = (rightCode s s.xf.active).toBits ∧ (selector s).extractLsb' 4 2 ≠ 3#2)

/-- Command words of R131 and selectors of R142, written out and decoded: the words and selectors of 95_test_vectors.md
section 3.1, an update row of each mode, a STAGE row of each mode, the XF rows (R400) and an ENGINE row. (A stage and an
engine row have no bits of their own; the number in their slot, their place in the table, is the model's: assumption 12.) -/
def Obligations.WrittenOutWordsDecode : Prop :=
  decode 1 (.command [0x00000001#32]) = .instr .reset [] ∧
  decode 1 (.command [0x00030112#32, 0x3F800000#32, 0x00000000#32, 0x3F000000#32, 0xBF000000#32]) =
    .instr (.block 3#16 true 1#2 0#2 0x3F800000#32 0x00000000#32 [⟨0x3F000000#32, 0xBF000000#32⟩]) [] ∧
  decode 1 (.command [0x80000002#32, 0#32, 0#32, 0#32, 0#32]) =
    .instr (.block 0x8000#16 false 0#2 0#2 0#32 0#32 [⟨0#32, 0#32⟩]) [] ∧
  decode 1 (.select .left 0x24#6) = .instr .fdHard [] ∧ decode 1 (.select .right 0x24#6) = .instr .fdTapHp [] ∧
  decode 1 (.select .left 0x19#6) = .instr .seLong [] ∧ decode 1 (.select .right 0x19#6) = .instr .seNormal [] ∧
  decode 1 (.select .process 0x26#6) = .instr .srProcess [] ∧ decode 1 (.select .left 0x26#6) = .instr .srDn12 [] ∧
  decode 1 (.select .left 0x1B#6) = .instr .shDown [] ∧ decode 1 (.select .right 0x1B#6) = .instr .shMid [] ∧
  decode 1 (.select .xf 0x00#6) = .instr .swAdvance [] ∧ decode 1 (.select .xf 0x01#6) = .instr .swFadeout [] ∧
  decode 1 (.select .xf 0x02#6) = .instr .swFadein [] ∧
  decode 1 (.select .update 0x24#6) = .instr .fdUpdate [] ∧ decode 1 (.select .update 0x19#6) = .instr .seUpdate [] ∧
  decode 1 (.select .update 0x26#6) = .instr .srUpdate [] ∧ decode 1 (.select .update 0x1B#6) = .instr .shUpdate [] ∧
  decode 1 (.select (.stage 0) 0x24#6) = .instr .fdGate [] ∧ decode 1 (.select (.stage 1) 0x19#6) = .instr .seRead [] ∧
  decode 1 (.select (.stage 6) 0x26#6) = .instr .srOut [] ∧ decode 1 (.select (.stage 6) 0x1B#6) = .instr .shRev [] ∧
  decode 1 (.select (.engine 0) 0x00#6) = .instr .engRead []

/-- A step runs the instruction its input decodes to: the next host command, its words taken from the stream (R130,
R148), or the row whose selector stands in the row port (the model's own: assumption 13). One step for a whole command
is assumption 1. With no whole command arrived the engine is idle with its state held (R519); that a partly arrived command
waits too is the model's choice (assumption 14). -/
def Obligations.StepRunsTheDecodedInstruction : Prop :=
  ∀ (s : State) (i : Instr),
    (∀ rest, s.row = none → decode s.cfg.n (.command s.ports.cmd) = .instr i rest →
      step s = exec i { s with ports := { s.ports with cmd := rest } }) ∧
    (∀ slot sel rest, s.row = some (slot, sel) → decode s.cfg.n (.select slot sel) = .instr i rest →
      step s = exec i { s with row := none }) ∧
    (s.row = none → decode s.cfg.n (.command s.ports.cmd) = .waiting → step s = .next s)

/-! RESET and MODE_RESET. -/

/-- R541: RESET gives every state element the value of the table, leaves the configuration and the refusal mark, and
emits nothing. (The idle values of the ports and of the local values `wires` are the model's own: assumption 13.) -/
def Obligations.ResetState : Prop :=
  ∀ s : State, exec .reset s = .next { s with
    seq := .idle
    snap := ⟨.zero, .zero, 0#16, false, .p0, .p0⟩
    xf := { state := .steady, volume := .one, active := .fd, pending := .fd }
    lim := limiterInit
    fd := {
      driveAcc := .zero, driveSm := .zero, cutT := .dec 5 1, cutSm := .dec 5 1, resT := .zero, resSm := .zero
      curve := .p0, tap := .p0, gateEnv := ⟨.zero, .zero⟩
      aa1 := .both (svfConfigure svfInit s.cfg.fdAaFc s.cfg.fdAaRes)
      aa2 := .both (svfConfigure svfInit s.cfg.fdAaFc s.cfg.fdAaRes)
      hist := .both ⟨.zero, .zero, .zero, .zero⟩
      svfA := .both (svfConfigure svfInit (.dec 5 1) .zero), svfB := .both (svfConfigure svfInit (.dec 5 1) .zero) }
    se := {
      band := .p0, tone := .p0, tT := s.cfg.seBandLo.a0, tSm := s.cfg.seBandLo.a0, fb := .zero, revAmt := .zero
      line := .both ⟨[], 0⟩, flutPh := .zero, driftPh := .zero, noise := noiseInit
      lp := .both (svfConfigure svfInit s.cfg.seToneLp.a0 s.cfg.auxRes)
      hp := .both (svfConfigure svfInit s.cfg.seToneHp.a0 s.cfg.auxRes)
      compEnv := ⟨.zero, .zero⟩, rev := reverbConfigure reverbInit (.preset s.cfg.seRevCfg) }
    sr := {
      trans := .p0, tone := .p0, hpT := .dec 150 1, hpSm := .dec 150 1, shAmt := .zero, revFb := .dec 7 10
      pitchT := .dec 12 1, pitchSm := .dec 12 1
      hp1 := .both (svfConfigure svfInit (.dec 150 1) s.cfg.auxRes)
      hp2 := .both (svfConfigure svfInit (.dec 150 1) s.cfg.auxRes)
      pd := .both ⟨[], 0⟩
      rev := reverbConfigure reverbInit (.feedback (.dec 7 10) s.cfg.srRevDamp.a0)
      ar := .both (svfConfigure svfInit s.cfg.srArFc s.cfg.auxRes)
      shift := ⟨shifterConfigure (shifterInit s.cfg.srShiftCfg) (.dec 1195 100),
        shifterConfigure (shifterInit s.cfg.srShiftCfg) (.dec 1205 100)⟩
      tlp := .both (svfConfigure svfInit s.cfg.srToneLp.a0 s.cfg.auxRes)
      dcX := ⟨.zero, .zero⟩, dcY := ⟨.zero, .zero⟩, compEnv := ⟨.zero, .zero⟩, fb := ⟨.zero, .zero⟩ }
    sh := {
      dir := .p0, range := .p0, speed := .dec 1 100, toneFc := .dec 200 1, revAmt := .zero
      p := ⟨.zero, .dec 1 8, .dec 2 8, .dec 3 8, .dec 4 8, .dec 5 8, .dec 6 8, .dec 7 8⟩
      th := .all .zero, panPh := .zero
      tlp := ⟨svfConfigure svfInit (.dec 200 1) s.cfg.auxRes,
        svfConfigure svfInit ((F32.dec 200 1).mul (F32.one.add s.cfg.shToneDetune)) s.cfg.auxRes⟩
      rev := reverbConfigure reverbInit (.preset s.cfg.shRevCfg) }
    ports := { s.ports with ctl := .s0, ain := [], ind := ⟨.fd, false⟩ }
    wires := .idle }

/-- Two RESETs leave the state one leaves (R430), and RESET leaves the state a model starts in as it is (R543). -/
def Obligations.ResetTwiceIsResetOnce : Prop :=
  (∀ s t : State, exec .reset s = .next t → exec .reset t = .next t) ∧
  exec .reset State.reset = .next State.reset ∧ State.reset.refused = false ∧ State.reset.cfg = Config.params.cfg

/-- GUARD (R200): a finite pair passes and nothing changes. Otherwise the fault is taken (R502): every state element of
the active mode takes its reset value (R201), the pair is silent, the event log gets the fault, its mask and the frame
index (R501), and nothing else changes (R503). The frame index is R501's inside a BLOCK; that it is none outside one, and
that a GUARD run alone guards the active mode, are the model's choices (assumptions 31 and 13). -/
def Obligations.GuardPassesFiniteElseResets : Prop :=
  ∀ s : State,
    (s.wires.y.l.isFinite = true → s.wires.y.r.isFinite = true → exec .guard s = .next s) ∧
    (s.wires.y.l.isFinite = false ∨ s.wires.y.r.isFinite = false →
      exec .guard s = .next { s with
        fd := if s.xf.active = .fd then fdInit s.cfg else s.fd
        se := if s.xf.active = .se then seInit s.cfg else s.se
        sr := if s.xf.active = .sr then srInit s.cfg else s.sr
        sh := if s.xf.active = .sh then shInit s.cfg else s.sh
        wires := { s.wires with y := ⟨.zero, .zero⟩ }
        events := s.events ++ [.guardFault s.xf.active
          ((if s.wires.y.l.isFinite then 0#2 else 1#2) ||| (if s.wires.y.r.isFinite then 0#2 else 2#2))
          (match s.seq with
            | .sample n => some n
            | _ => none)] })

/-! The ModeSwitcher (45_modeswitcher.md). -/

/-- R400: the six transitions. -/
def Obligations.SwitcherTransitions : Prop :=
  ∀ s : State, ∃ xf : Xf, exec .swAdvance s = .next { s with xf := xf } ∧
    (s.xf.state = .steady → s.snap.press = true →
      xf = { s.xf with pending := s.xf.active.next, state := .fadingOut }) ∧
    (s.xf.state = .steady → s.snap.press = false → xf = s.xf) ∧
    (s.xf.state = .fadingOut → (fadeOutVolume s.cfg.xfStep s.xf.volume).le (.dec 1 1000) = false →
      xf = { s.xf with volume := fadeOutVolume s.cfg.xfStep s.xf.volume }) ∧
    (s.xf.state = .fadingOut → (fadeOutVolume s.cfg.xfStep s.xf.volume).le (.dec 1 1000) = true →
      xf = { state := .fadingIn, volume := fadeOutVolume s.cfg.xfStep s.xf.volume, active := s.xf.pending,
             pending := s.xf.pending }) ∧
    (s.xf.state = .fadingIn → F32.one.le (fadeInVolume s.cfg.xfStep s.xf.volume) = false →
      xf = { s.xf with volume := fadeInVolume s.cfg.xfStep s.xf.volume }) ∧
    (s.xf.state = .fadingIn → F32.one.le (fadeInVolume s.cfg.xfStep s.xf.volume) = true →
      xf = { s.xf with volume := .one, state := .steady })

/-- SW.FADEOUT (R402): the step `d × d` with `d = max(v - s, 0.0)`, and the swap at or below 0.001. SW.FADEIN (R403): the
step `sqrt(min(v + s, 1.0))`, and Steady at full volume. -/
def Obligations.FadeStepResults : Prop :=
  ∀ s : State,
    let d := (s.xf.volume.sub s.cfg.xfStep).max .zero
    let v := ((s.xf.volume.add s.cfg.xfStep).min .one).sqrt
    ((d.mul d).le (.dec 1 1000) = true →
      exec .swFadeout s = .next { s with xf :=
        { s.xf with volume := d.mul d, active := s.xf.pending, state := .fadingIn } }) ∧
    ((d.mul d).le (.dec 1 1000) = false → exec .swFadeout s = .next { s with xf := { s.xf with volume := d.mul d } }) ∧
    (F32.one.le v = true → exec .swFadein s = .next { s with xf := { s.xf with volume := .one, state := .steady } }) ∧
    (F32.one.le v = false → exec .swFadein s = .next { s with xf := { s.xf with volume := v } })

/-- R145 and the press of R401: the mode numbers are 0 to 3 in their order, all four are valid, and a press in Steady
makes the successor modulo 4 the pending mode. -/
def Obligations.ModeSuccessorIsModuloFour : Prop :=
  Mode.fd.toBits = 0#2 ∧ Mode.se.toBits = 1#2 ∧ Mode.sr.toBits = 2#2 ∧ Mode.sh.toBits = 3#2 ∧
  (∀ b : BitVec 2, ∃ m : Mode, m.toBits = b) ∧ (∀ m : Mode, m.next.toBits = m.toBits + 1#2) ∧
  (∀ s t : State, s.xf.state = .steady → s.snap.press = true → exec .swAdvance s = .next t →
    t.xf.pending.toBits = s.xf.active.toBits + 1#2 ∧ t.xf.active = s.xf.active ∧ t.xf.volume = s.xf.volume)

/-- R404: outside Steady a press edge has no effect. The switcher does the same with it and without it and leaves the
pending mode; so does the block's control update, with its encoder delta; and a whole BLOCK with the press leaves what the
BLOCK without it leaves (the same frames, events and state), but for the latched edge itself, `snap.press`. -/
def Obligations.PressWhileFadingIsIgnored : Prop :=
  ∀ (s : State) (press : Bool), s.xf.state ≠ .steady →
    (∀ t, exec .swAdvance s = .next t →
      t.xf.pending = s.xf.pending ∧
      exec .swAdvance { s with snap := { s.snap with press := press } } =
        .next { t with snap := { s.snap with press := press } }) ∧
    (∀ t, exec .engUpdate s = .next t →
      exec .engUpdate { s with snap := { s.snap with press := press } } =
        .next { t with snap := { s.snap with press := press } }) ∧
    (∀ (enc : BitVec 16) (swl swr : BitVec 2) (ktop kbot : Word) (frames : List (Stereo Word)) (t : State),
      blockAccepted swl swr ktop kbot = true → exec (.block enc false swl swr ktop kbot frames) s = .next t →
      exec (.block enc press swl swr ktop kbot frames) s =
        .next { t with snap := { t.snap with press := press } })

/-- R406, R407: from a volume in [0, 1], a fade-out step does not raise the volume and a fade-in step does not lower it;
both stay in [0, 1]; and a fade-in value is never at or below the threshold 0.001, so that the low point of a switch is the
block of its swap. (The last for steps from 1.001e-6: closer to R407's bound 1e-6 the binary32 square root can round to
0.001, assumption 22.) -/
def Obligations.FadesAreMonotone : Prop :=
  ∀ (step : F32) (xf : Xf), (F32.dec 1 1000000).lt step = true → step.le .one = true → inUnit xf.volume = true →
    inUnit (xfFadeOut step xf).volume = true ∧ (xfFadeOut step xf).volume.le xf.volume = true ∧
    inUnit (xfFadeIn step xf).volume = true ∧ xf.volume.le (xfFadeIn step xf).volume = true ∧
    ((F32.dec 1001 1000000000).le step = true → (F32.dec 1 1000).lt (xfFadeIn step xf).volume = true)

/-- R406 in binary32: every fade ends. Within 2^21 steps a fade-out has swapped modes and a fade-in has reached Steady at
full volume, for every step R407 allows. (R406's own count, ceil(1/s), is derived in real arithmetic.) -/
def Obligations.FadesTerminate : Prop :=
  ∀ (step : F32) (xf : Xf), (F32.dec 1 1000000).lt step = true → step.le .one = true → inUnit xf.volume = true →
    (xf.state = .fadingOut → ∃ k, k ≤ 2 ^ 21 ∧ (fadeOutSteps step k xf).state = .fadingIn ∧
      (fadeOutSteps step k xf).active = xf.pending ∧ (fadeOutSteps step k xf).volume.le (.dec 1 1000) = true) ∧
    (xf.state = .fadingIn → ∃ k, k ≤ 2 ^ 21 ∧ (fadeInSteps step k xf).state = .steady ∧
      (fadeInSteps step k xf).active = xf.active ∧ (fadeInSteps step k xf).volume = .one)

/-! The engine's rows (46_engine.md). -/

/-- ENG.READ, SMOOTH, ACC, ENG.INGAIN, ENG.WIDTH, ENG.XFADE (R432, R180, R183, R434, R436, R437). -/
def Obligations.EngineRowResults : Prop :=
  ∀ s : State,
    exec .engRead s = .next { s with snap := {
      ktop := if s.ports.ctl.ktop.isZero then .zero else s.ports.ctl.ktop
      kbot := if s.ports.ctl.kbot.isZero then .zero else s.ports.ctl.kbot
      enc := s.ports.ctl.enc, press := s.ports.ctl.press, swl := s.ports.ctl.swl, swr := s.ports.ctl.swr } } ∧
    exec .smooth s = .next { s with wires := { s.wires with
      smY := s.wires.smY.add (s.wires.smC.mul (s.wires.smT.sub s.wires.smY)) } } ∧
    exec .acc s = .next { s with wires := { s.wires with
      accA := F32.clamp (s.wires.accA.add (s.wires.accStep.mul (.ofInt s.snap.enc.toInt))) s.wires.accLo s.wires.accHi } } ∧
    exec .engIngain s = .next { s with wires := { s.wires with
      x := ⟨(s.cfg.gIn.at s.xf.active).mul s.wires.inp.l, (s.cfg.gIn.at s.xf.active).mul s.wires.inp.r⟩ } } ∧
    exec .engWidth s = .next { s with wires := { s.wires with w :=
      ⟨((s.wires.y.l.add s.wires.y.r).div (.dec 2 1)).add
          (((s.wires.y.l.sub s.wires.y.r).div (.dec 2 1)).mul (F32.one.add s.cfg.w)),
        ((s.wires.y.l.add s.wires.y.r).div (.dec 2 1)).sub
          (((s.wires.y.l.sub s.wires.y.r).div (.dec 2 1)).mul (F32.one.add s.cfg.w))⟩ } } ∧
    exec .engXfade s = .next { s with wires := { s.wires with
      frame := s.wires.frame ++ [⟨s.wires.w.l.mul s.xf.volume, s.wires.w.r.mul s.xf.volume⟩] } }

/-- IND (R42, R439): the pending mode while `xf.state ≠ 0`, else the active one, and the switching flag (R36). -/
def Obligations.IndicatorShowsPendingWhileSwitching : Prop :=
  ∀ s : State, exec .ind s = .next { s with ports := { s.ports with ind := {
    mode := if s.xf.state = .steady then s.xf.active else s.xf.pending
    switching := decide (s.xf.state = .fadingOut ∨ s.xf.state = .fadingIn) } } }

/-- R17, R180, R183, R508: whatever the encoder delta, an accumulator in [0, 1] lands inside its bounds; a clamp puts every
number inside its bounds, leaves a number strictly inside them as it is, and keeps NaN; a smoother with a coefficient of
at most 1/4 (every stated one is) stays in [0, 1] between two values there, and at its target stays there. -/
def Obligations.ControlOperatorsKeepRanges : Prop :=
  (∀ (a lo hi : F32) (e : BitVec 16), inUnit a = true → lo.le hi = true →
    within lo hi (accumulated a encStep lo hi e) = true) ∧
  (∀ x lo hi : F32, x.isNaN = false → lo.le hi = true → within lo hi (x.clamp lo hi) = true) ∧
  (∀ x lo hi : F32, lo.lt x = true → x.lt hi = true → x.clamp lo hi = x) ∧
  (∀ lo hi : F32, F32.clamp .nan lo hi = .nan) ∧
  (∀ y t c : F32, inUnit y = true → inUnit t = true → F32.zero.le c = true → c.le (.dec 25 100) = true →
    inUnit (smoothed y t c) = true) ∧
  (∀ y c : F32, y.isFinite = true → c.isFinite = true → sameNumber (smoothed y y c) y)

/-- ENG.UPDATE and ENG.DISPATCH (R433, R435): each is the row that SEL picks (R142), the active mode's. ENG.UPDATE always
completes; ENG.DISPATCH completes in FilterDrive and ShepardTone always, in SpaceEcho and ShimmerReverb when the read
delays are finite (R186). -/
def Obligations.EngineRunsTheRowsSelPicks : Prop :=
  ∀ s : State,
    (∃ i t, decodeRow .update (selector s) = some i ∧ exec .engUpdate s = exec i s ∧ exec .engUpdate s = .next t ∧
      i = (match s.xf.active with
        | .fd => .fdUpdate
        | .se => .seUpdate
        | .sr => .srUpdate
        | .sh => .shUpdate)) ∧
    (∃ i, decodeRow .process (selector s) = some i ∧ exec .engDispatch s = exec i s ∧
      i = (match s.xf.active with
        | .fd => .fdProcess
        | .se => .seProcess
        | .sr => .srProcess
        | .sh => .shProcess)) ∧
    ((s.xf.active = .se → (seDelays s.cfg s.se).l.isFinite = true ∧ (seDelays s.cfg s.se).r.isFinite = true) →
      (s.xf.active = .sr → (srPreDelay s.cfg).isFinite = true) → ∃ t, exec .engDispatch s = .next t)

/-- R435: the pair ENG.DISPATCH returns is always finite, whatever the input frame, the state and the units do. -/
def Obligations.DispatchedPairIsFinite : Prop :=
  ∀ s t : State, exec .engDispatch s = .next t → t.wires.y.l.isFinite = true ∧ t.wires.y.r.isFinite = true

/-- ENG.LIMIT (R438): the limiter with the active mode's pregain; as many frames out as in, and every output sample within
the ceiling when every frame is finite (R193). -/
def Obligations.LimiterKeepsTheCeiling : Prop :=
  ∀ s : State, ∃ (lim : LimiterState) (out : List (Stereo F32)),
    exec .engLimit s = .next { s with lim := lim, wires := { s.wires with out := out } } ∧
    (lim, out) = limiterProcess s.cfg.limCeil (s.cfg.gLim.at s.xf.active) s.lim s.wires.frame ∧
    out.length = s.wires.frame.length ∧
    (s.cfg.ok = true → (∀ f ∈ s.wires.frame, f.l.isFinite = true ∧ f.r.isFinite = true) →
      ∀ f ∈ out, f.l.abs.le s.cfg.limCeil = true ∧ f.r.abs.le s.cfg.limCeil = true ∧ f.l.abs.le .one = true ∧
        f.r.abs.le .one = true)

/-! BLOCK (R431). -/

/-- R431: an accepted BLOCK is its rows in their order. The snapshot and the frames stand at the ports; ENG.READ,
ENG.UPDATE, SW.ADVANCE; for every frame ENG.INGAIN, ENG.DISPATCH, ENG.WIDTH, ENG.XFADE; ENG.LIMIT; the frames are
emitted; the sequencer is idle again; IND. (Clearing the ports and the local values: assumption 13.) -/
def Obligations.BlockIsItsTableRows : Prop :=
  ∀ (s : State) (enc : BitVec 16) (press : Bool) (swl swr : SwPos) (ktop kbot : Word) (frames : List (Stereo Word)),
    knobOk ktop = true → knobOk kbot = true →
    exec (.block enc press swl.toBits swr.toBits ktop kbot frames) s =
      thenDo
        (runRows [.engRead, .engUpdate, .swAdvance] { s with
          seq := .ctrl, wires := .idle
          ports := { s.ports with
            ctl := ⟨.ofBits ktop, .ofBits kbot, enc, press, swl, swr⟩
            ain := frames.map fun f => ⟨.ofBits f.l, .ofBits f.r⟩ } })
        fun s₁ => thenDo (runFrameRows 0 (frames.map fun f => ⟨.ofBits f.l, .ofBits f.r⟩) s₁)
        fun s₂ => thenDo (exec .engLimit { s₂ with seq := .limit })
        fun s₃ => exec .ind { s₃ with
          seq := .idle, wires := .idle
          ports := { s₃.ports with ctl := .s0, ain := [], aout := s₃.ports.aout ++ s₃.wires.out } }

/-- R440, R509: an accepted BLOCK completes when the processing mode after the advance is FilterDrive or ShepardTone, or
ShimmerReverb with a finite pre-delay, or SpaceEcho with delay settings of ordinary size and finite LFO rates (`echoTame`):
one output frame for every input frame, the sequencer idle, the indicator as the switcher leaves it, and the refusal mark, the command stream
and the configuration as they were. -/
def Obligations.BlockCompletes : Prop :=
  ∀ (s : State) (enc : BitVec 16) (press : Bool) (swl swr : BitVec 2) (ktop kbot : Word) (frames : List (Stereo Word)),
    blockAccepted swl swr ktop kbot = true →
    ((xfAdvance s.cfg.xfStep press s.xf).active = .se → echoTame s = true) →
    ((xfAdvance s.cfg.xfStep press s.xf).active = .sr → (srPreDelay s.cfg).isFinite = true) →
    ∃ t, exec (.block enc press swl swr ktop kbot frames) s = .next t ∧
      (∃ out, out.length = frames.length ∧ t.ports.aout = s.ports.aout ++ out) ∧
      t.seq = .idle ∧ t.ports.ind = indicatorOf t.xf ∧ t.xf = xfAdvance s.cfg.xfStep press s.xf ∧
      t.refused = s.refused ∧ t.ports.cmd = s.ports.cmd ∧ t.cfg = s.cfg ∧ t.row = s.row

/-- The source's output bound (R193, R438): in FilterDrive and ShepardTone every emitted sample is within the limiter ceiling
for any input words (NaN, infinities), any accepted controls and any state of the units; in ShimmerReverb for input in
[-1, 1] with an input gain in [-1, 1]. Nothing is said of SpaceEcho, whose reverb is not bounded (I13). -/
def Obligations.BlockOutputWithinCeiling : Prop :=
  ∀ (s t : State) (enc : BitVec 16) (press : Bool) (swl swr : BitVec 2) (ktop kbot : Word) (frames : List (Stereo Word)),
    s.cfg.ok = true → inUnit s.xf.volume = true → blockAccepted swl swr ktop kbot = true →
    ((xfAdvance s.cfg.xfStep press s.xf).active = .fd ∨ (xfAdvance s.cfg.xfStep press s.xf).active = .sh ∨
      ((xfAdvance s.cfg.xfStep press s.xf).active = .sr ∧ inOne s.cfg.gIn.sr = true ∧
        ∀ f ∈ frames, inOne (F32.ofBits f.l) = true ∧ inOne (F32.ofBits f.r) = true)) →
    exec (.block enc press swl swr ktop kbot frames) s = .next t →
    ∀ f ∈ t.ports.aout.drop s.ports.aout.length,
      f.l.abs.le s.cfg.limCeil = true ∧ f.r.abs.le s.cfg.limCeil = true

/-- R50, R433, R441: a BLOCK changes the state of no mode but the one active before the advance (its control update) and
the one active after it (its frames). -/
def Obligations.InactiveModesAreFrozen : Prop :=
  ∀ (s t : State) (enc : BitVec 16) (press : Bool) (swl swr : BitVec 2) (ktop kbot : Word) (frames : List (Stereo Word)),
    exec (.block enc press swl swr ktop kbot frames) s = .next t →
    (s.xf.active ≠ .fd → t.xf.active ≠ .fd → t.fd = s.fd) ∧ (s.xf.active ≠ .se → t.xf.active ≠ .se → t.se = s.se) ∧
    (s.xf.active ≠ .sr → t.xf.active ≠ .sr → t.sr = s.sr) ∧ (s.xf.active ≠ .sh → t.xf.active ≠ .sh → t.sh = s.sh)

/-- R50, R502: a row of a mode (its update, its process row with whatever faults it takes, its stages and its variants)
changes nothing outside that mode but the datapath's local values and the event log, which it only extends. -/
def Obligations.ModeRowsTouchOnlyTheirMode : Prop :=
  ∀ (i : Instr) (m : Mode) (s t : State), modeOfRow i = some m → exec i s = .next t →
    t.cfg = s.cfg ∧ t.seq = s.seq ∧ t.snap = s.snap ∧ t.xf = s.xf ∧ t.lim = s.lim ∧ t.refused = s.refused ∧
    t.ports = s.ports ∧ t.row = s.row ∧ s.events <+: t.events ∧
    (m ≠ .fd → t.fd = s.fd) ∧ (m ≠ .se → t.se = s.se) ∧ (m ≠ .sr → t.sr = s.sr) ∧ (m ≠ .sh → t.sh = s.sh)

/-- R405, R430: `xf.active` changes only where the switcher swaps (SW.FADEOUT, the same step inside SW.ADVANCE and BLOCK)
and at RESET; it then becomes the pending mode or mode 0. -/
def Obligations.ActiveModeChangesOnlyAtASwap : Prop :=
  ∀ (i : Instr) (s t : State), exec i s = .next t → t.xf.active ≠ s.xf.active →
    (i = .reset ∧ t.xf.active = .fd) ∨
    (t.xf.active = s.xf.pending ∧ t.xf.state = .fadingIn ∧ t.xf.volume.le (.dec 1 1000) = true ∧
      (i = .swFadeout ∨ (s.xf.state = .fadingOut ∧ (i = .swAdvance ∨
        ∃ enc press swl swr ktop kbot frames, i = .block enc press swl swr ktop kbot frames))))

/-! FilterDrive (41_filterdrive.md). -/

/-- FD.UPDATE (R241). -/
def Obligations.FdUpdateResult : Prop :=
  ∀ s : State, exec .fdUpdate s = .next { s with fd :=
    let cutT := (F32.dec 5 1).mul (Config.math.pow ((F32.dec 18000 1).div (.dec 5 1)) s.snap.ktop)
    let resT := s.snap.kbot
    let driveAcc := F32.clamp (s.fd.driveAcc.add ((F32.dec 5 100).mul (.ofInt s.snap.enc.toInt))) .zero .one
    let cutSm := s.fd.cutSm.add ((F32.dec 5 100).mul (cutT.sub s.fd.cutSm))
    let resSm := s.fd.resSm.add ((F32.dec 5 100).mul (resT.sub s.fd.resSm))
    let driveSm := s.fd.driveSm.add ((F32.dec 5 100).mul (driveAcc.sub s.fd.driveSm))
    let fR := cutSm.mul (F32.one.add ((F32.dec 5 100).mul resSm))
    { s.fd with
      cutT := cutT, resT := resT, driveAcc := driveAcc, curve := s.snap.swl, tap := s.snap.swr
      cutSm := cutSm, resSm := resSm, driveSm := driveSm
      svfA := ⟨svfConfigure s.fd.svfA.l cutSm resSm, svfConfigure s.fd.svfA.r fR resSm⟩
      svfB := ⟨svfConfigure s.fd.svfB.l cutSm resSm, svfConfigure s.fd.svfB.r fR resSm⟩ } }

/-- FD.GATE, FD.AAF and FD.OS (R242 to R244), on both channels. The threshold is the instance's `FD_GATE_T` (I14); its nominal
value, 10^(-54/20), is the pattern 0x3B02C2F2 (the model's choice: assumption 11). In FD.OS the
history shifts, the mid-sample is interpolated at 0.5, and the drive of the two is recombined with weights 0.4 and 0.6;
`fdDriveOf` with the selected curve is FD.DRIVE, tied to its row by `FdDriveUsesTheSelectedCurve`. -/
def Obligations.FdFrontStageResults : Prop :=
  ∀ s : State,
    let w := s.wires.fd
    let x := s.wires.x
    let env := fun e x : F32 => ((F32.dec 99 100).mul e).add ((F32.dec 1 100).mul x.abs)
    let gateT := s.cfg.approx.fdGateT
    let gain := fun e : F32 => if e.lt gateT then (e.div gateT).mul (e.div gateT) else .one
    let drive := fdDriveOf s.cfg s.fd.curve s.fd.driveSm
    let hL : Hist := ⟨s.fd.hist.l.h1, s.fd.hist.l.h2, s.fd.hist.l.h3, w.a.l⟩
    let hR : Hist := ⟨s.fd.hist.r.h1, s.fd.hist.r.h2, s.fd.hist.r.h3, w.a.r⟩
    let os := fun h : Hist =>
      ((F32.dec 4 10).mul (drive (hermite4 h.h0 h.h1 h.h2 h.h3 (.dec 5 10)))).add ((F32.dec 6 10).mul (drive h.h3))
    let lL := svfProcess s.fd.aa1.l w.g.l
    let lR := svfProcess s.fd.aa1.r w.g.r
    let mL := svfProcess s.fd.aa2.l lL.2.low
    let mR := svfProcess s.fd.aa2.r lR.2.low
    (s.cfg.approx = {} → gateT = .ofBits 0x3B02C2F2#32) ∧
    exec .fdGate s = .next { s with
      fd := { s.fd with gateEnv := ⟨env s.fd.gateEnv.l x.l, env s.fd.gateEnv.r x.r⟩ }
      wires := { s.wires with fd := { w with
        g := ⟨(gain (env s.fd.gateEnv.l x.l)).mul x.l, (gain (env s.fd.gateEnv.r x.r)).mul x.r⟩ } } } ∧
    exec .fdAaf s = .next { s with
      fd := { s.fd with aa1 := ⟨lL.1, lR.1⟩, aa2 := ⟨mL.1, mR.1⟩ }
      wires := { s.wires with fd := { w with a := ⟨mL.2.low, mR.2.low⟩ } } } ∧
    exec .fdOs s = .next { s with
      fd := { s.fd with hist := ⟨hL, hR⟩ }
      wires := { s.wires with fd := { w with o := ⟨os hL, os hR⟩ } } }

/-- FD.DRIVE (R245): `(1.0 - d) × v + d × C(FD_PG(d) × v)`, where C is what the curve row that SEL picks computes (R144,
R246 to R248). -/
def Obligations.FdDriveUsesTheSelectedCurve : Prop :=
  ∀ s : State, s.xf.active = .fd →
    ∃ (i : Instr) (t : State), decodeRow .left (selector s) = some i ∧
      exec i { s with wires := { s.wires with fd := { s.wires.fd with
        u := (Config.fdPg.f s.fd.driveSm).mul s.wires.fd.v } } } = .next t ∧
      exec .fdDrive s = .next { s with wires := { s.wires with fd := { s.wires.fd with
        drive := ((F32.one.sub s.fd.driveSm).mul s.wires.fd.v).add (s.fd.driveSm.mul t.wires.fd.c) } } } ∧
      i = (match s.fd.curve with
        | .p0 => .fdWarm
        | .p1 => .fdHard
        | .p2 => .fdDestroy)

/-- FD.WARM, FD.HARD, FD.DESTROY, FD.DRIVE and the three taps (R245 to R248, R250 to R252). -/
def Obligations.FdCurveAndTapResults : Prop :=
  ∀ s : State,
    let w := s.wires.fd
    let fold := fun g v : F32 => Config.fdFold.f ((g.mul v).clamp (F32.dec 5 1).neg (.dec 5 1))
    exec .fdWarm s = .next { s with wires := { s.wires with fd := { w with
      c := Config.fdWarm.f s.cfg.fdWarmKp s.cfg.fdWarmKn w.u } } } ∧
    exec .fdHard s = .next { s with wires := { s.wires with fd := { w with
      c := w.u.div (F32.one.add (w.u.mul w.u)).sqrt } } } ∧
    exec .fdDestroy s = .next { s with wires := { s.wires with fd := { w with
      c := fold s.cfg.fdFoldG.a2 (fold s.cfg.fdFoldG.a1 (fold s.cfg.fdFoldG.a0 w.u)) } } } ∧
    exec .fdDrive s = .next { s with wires := { s.wires with fd := { w with
      drive := fdDriveOf s.cfg s.fd.curve s.fd.driveSm w.v } } } ∧
    exec .fdTapLp s = .next { s with wires := { s.wires with fd := { w with tap := w.taps.low } } } ∧
    exec .fdTapBp s = .next { s with wires := { s.wires with fd := { w with tap := w.taps.band } } } ∧
    exec .fdTapHp s = .next { s with wires := { s.wires with fd := { w with tap := w.taps.high } } }

/-- FD.SVF (R249) and FD.COMP (R253): two filters in series with the tap `fd.tap` selects on both (R144), then
`tanh(x × (1.0 / sqrt(1.0 + d × 16.0)))`. -/
def Obligations.FdFilterAndCompResults : Prop :=
  ∀ s : State,
    let tap := fun t : Taps => match s.fd.tap with
      | .p0 => t.low
      | .p1 => t.band
      | .p2 => t.high
    let gain := F32.one.div (F32.one.add (s.fd.driveSm.mul (.dec 16 1))).sqrt
    (exec .fdSvf s = .next { s with
      fd := { s.fd with
        svfA := ⟨(svfProcess s.fd.svfA.l s.wires.fd.o.l).1, (svfProcess s.fd.svfA.r s.wires.fd.o.r).1⟩
        svfB := ⟨(svfProcess s.fd.svfB.l (tap (svfProcess s.fd.svfA.l s.wires.fd.o.l).2)).1,
          (svfProcess s.fd.svfB.r (tap (svfProcess s.fd.svfA.r s.wires.fd.o.r).2)).1⟩ }
      wires := { s.wires with fd := { s.wires.fd with
        f := ⟨tap (svfProcess s.fd.svfB.l (tap (svfProcess s.fd.svfA.l s.wires.fd.o.l).2)).2,
          tap (svfProcess s.fd.svfB.r (tap (svfProcess s.fd.svfA.r s.wires.fd.o.r).2)).2⟩ } } }) ∧
    (exec .fdComp s = .next { s with wires := { s.wires with
      y := ⟨Config.math.tanh (s.wires.fd.f.l.mul gain), Config.math.tanh (s.wires.fd.f.r.mul gain)⟩ } })

/-- R256, R245, R253: (1) at drive 0 the drive stage gives the same number as its input, for finite data where the curve's
value is finite (the same number, not the same bits: a zero may change its sign, assumption 24); (3) after FD.PROCESS both outputs are in [-1, 1], whatever the input and the state. -/
def Obligations.FilterDriveIdentityAndRange : Prop :=
  (∀ (c : Cfg) (curve : SwPos) (v : F32), v.isFinite = true →
    (fdCurve c curve ((Config.fdPg.f .zero).mul v)).isFinite = true → sameNumber (fdDriveOf c curve .zero v) v) ∧
  (∀ s t : State, exec .fdProcess s = .next t →
    inOne t.wires.y.l = true ∧ inOne t.wires.y.r = true)

/-! The process rows. -/

/-- FD.PROCESS, SE.PROCESS, SR.PROCESS, SH.PROCESS (R254, R294, R335, R375): each runs its mode's stage rows in their
order, then GUARD for its mode. FD.PROCESS and SH.PROCESS complete on every state; SE.PROCESS completes when the two
delays SE.MOD computes are finite, SR.PROCESS when the pre-delay is. -/
def Obligations.ProcessRowsAreTheirStages : Prop :=
  ∀ s : State,
    exec .fdProcess s = thenDo (runRows [.fdGate, .fdAaf, .fdOs, .fdSvf, .fdComp] s)
      (fun t => .next (guardOutput .fd t)) ∧
    exec .seProcess s = thenDo (runRows [.seMod, .seRead, .seFb, .seWrite, .seRev, .seOut] s)
      (fun t => .next (guardOutput .se t)) ∧
    exec .srProcess s = thenDo (runRows [.srHpf, .srPredly, .srRevin, .srAr, .srShift, .srPost, .srOut] s)
      (fun t => .next (guardOutput .sr t)) ∧
    exec .shProcess s = thenDo (runRows [.shVoice, .shOsc, .shPan, .shSum, .shAdv, .shTone, .shRev] s)
      (fun t => .next (guardOutput .sh t)) ∧
    (∃ t, exec .fdProcess s = .next t) ∧ (∃ t, exec .shProcess s = .next t) ∧
    ((seDelays s.cfg s.se).l.isFinite = true → (seDelays s.cfg s.se).r.isFinite = true →
      ∃ t, exec .seProcess s = .next t) ∧
    ((srPreDelay s.cfg).isFinite = true → ∃ t, exec .srProcess s = .next t)

/-- The examples of R254, R294, R335 and R375: the first frame after a mode's reset. FilterDrive gives silence for silence
and stays as it is; SpaceEcho gives the dry input; ShimmerReverb half of it; none takes a fault. In ShepardTone every voice
outputs `sin(0)` whatever the input; where that is 0.0, as R369 and R375 have it and R11 does not list it (assumption 7),
the output is silence. The parameters are in the units' stable ranges (R550, R199). -/
def Obligations.FirstFrameAfterReset : Prop :=
  ∀ s t : State, unitsOk s.cfg →
    (s.fd = fdInit s.cfg → s.wires.x = ⟨.zero, .zero⟩ → exec .fdProcess s = .next t →
      t.wires.y = ⟨.zero, .zero⟩ ∧ t.fd = s.fd ∧ t.events = s.events) ∧
    (s.se = seInit s.cfg → 5 ≤ s.cfg.seCap → s.cfg.seCap ≤ 2 ^ 24 → s.wires.x.isFinite = true →
      exec .seProcess s = .next t →
      sameNumber t.wires.y.l s.wires.x.l ∧ sameNumber t.wires.y.r s.wires.x.r ∧ t.events = s.events) ∧
    (s.sr = srInit s.cfg → 5 ≤ s.cfg.srCap → s.cfg.srCap ≤ 2 ^ 24 → s.cfg.ok = true → s.wires.x = ⟨.one, .one⟩ →
      exec .srProcess s = .next t →
      t.wires.y = ⟨.dec 5 10, .dec 5 10⟩ ∧ t.events = s.events) ∧
    (s.sh = shInit s.cfg → s.cfg.ok = true → exec .shProcess s = .next t →
      t.wires.sh.o = .all (Config.math.sin .zero) ∧
      (Config.math.sin .zero = .zero → t.wires.y = ⟨.zero, .zero⟩ ∧ t.events = s.events))

/-! The switch rows. -/

/-- The eighteen switch rows of SpaceEcho, ShimmerReverb and ShepardTone (R282 to R287, R322 to R327, R362 to R367): each
names its range, cutoffs, transposition, increment or bias, and changes nothing but the local values it leaves them in. -/
def Obligations.SwitchRowResults : Prop :=
  ∀ s : State,
    let range := fun lo hi : F32 => { s with wires := { s.wires with se := { s.wires.se with lo := lo, hi := hi } } }
    let tone := fun lp hp : F32 => { s with wires := { s.wires with se := { s.wires.se with lpFc := lp, hpFc := hp } } }
    let target := fun t : F32 => { s with wires := { s.wires with sr := { s.wires.sr with target := t } } }
    let damped := fun lp d : F32 => { s with wires := { s.wires with sr := { s.wires.sr with lpFc := lp, damp := d } } }
    let delta := fun d : F32 => { s with wires := { s.wires with sh := { s.wires.sh with delta := d } } }
    let bias := fun b : F32 => { s with wires := { s.wires with sh := { s.wires.sh with bias := b } } }
    exec .seShort s = .next (range s.cfg.seBandLo.a0 s.cfg.seBandHi.a0) ∧
    exec .seMed s = .next (range s.cfg.seBandLo.a1 s.cfg.seBandHi.a1) ∧
    exec .seLong s = .next (range s.cfg.seBandLo.a2 s.cfg.seBandHi.a2) ∧
    exec .seBright s = .next (tone s.cfg.seToneLp.a0 s.cfg.seToneHp.a0) ∧
    exec .seNormal s = .next (tone s.cfg.seToneLp.a1 s.cfg.seToneHp.a1) ∧
    exec .seDark s = .next (tone s.cfg.seToneLp.a2 s.cfg.seToneHp.a2) ∧
    exec .srUp12 s = .next (target (.dec 12 1)) ∧
    exec .srDn12 s = .next (target (F32.dec 12 1).neg) ∧
    exec .srUp7 s = .next (target (.dec 7 1)) ∧
    exec .srBright s = .next (damped s.cfg.srToneLp.a0 s.cfg.srRevDamp.a0) ∧
    exec .srNormal s = .next (damped s.cfg.srToneLp.a1 s.cfg.srRevDamp.a1) ∧
    exec .srDark s = .next (damped s.cfg.srToneLp.a2 s.cfg.srRevDamp.a2) ∧
    exec .shUp s = .next (delta (s.sh.speed.div (.ofInt s.cfg.fs))) ∧
    exec .shPause s = .next (delta .zero) ∧
    exec .shDown s = .next (delta (s.sh.speed.div (.ofInt s.cfg.fs)).neg) ∧
    exec .shLow s = .next (bias s.cfg.shRangeB.a0) ∧
    exec .shMid s = .next (bias s.cfg.shRangeB.a1) ∧
    exec .shHigh s = .next (bias s.cfg.shRangeB.a2)

/-! SpaceEcho (42_spaceecho.md). -/

/-- SE.UPDATE (R281). -/
def Obligations.SeUpdateResult : Prop :=
  ∀ s : State, exec .seUpdate s = .next { s with se :=
    let lo := s.cfg.seBandLo.at s.snap.swl
    let hi := s.cfg.seBandHi.at s.snap.swl
    let tT := lo.add ((hi.sub lo).mul s.snap.ktop)
    { s.se with
      band := s.snap.swl, tone := s.snap.swr, tT := tT
      tSm := s.se.tSm.add ((F32.dec 5 100).mul (tT.sub s.se.tSm))
      fb := s.snap.kbot.mul (.dec 11 10)
      revAmt := F32.clamp (s.se.revAmt.add ((F32.dec 5 100).mul (.ofInt s.snap.enc.toInt))) .zero .one
      lp := ⟨svfConfigure s.se.lp.l (s.cfg.seToneLp.at s.snap.swr) s.cfg.auxRes,
        svfConfigure s.se.lp.r (s.cfg.seToneLp.at s.snap.swr) s.cfg.auxRes⟩
      hp := ⟨svfConfigure s.se.hp.l (s.cfg.seToneHp.at s.snap.swr) s.cfg.auxRes,
        svfConfigure s.se.hp.r (s.cfg.seToneHp.at s.snap.swr) s.cfg.auxRes⟩ } }

/-- SE.READ (R289, R186): with finite delays both lines are read and nothing else changes; a delay that is not finite
ends the run with `UnmodelledDelay` (R511). -/
def Obligations.SeReadResult : Prop :=
  ∀ s : State,
    (s.wires.se.d.l.isFinite = true → s.wires.se.d.r.isFinite = true →
      exec .seRead s = .next { s with wires := { s.wires with se := { s.wires.se with
        r := ⟨dlRead s.cfg.seCap s.se.line.l s.wires.se.d.l, dlRead s.cfg.seCap s.se.line.r s.wires.se.d.r⟩ } } }) ∧
    (s.wires.se.d.l.isFinite = false → exec .seRead s = .fault (.unmodelledDelay s.wires.se.d.l)) ∧
    (s.wires.se.d.l.isFinite = true → s.wires.se.d.r.isFinite = false →
      exec .seRead s = .fault (.unmodelledDelay s.wires.se.d.r))

/-- SE.MOD (R288): the two delays in samples, one noise draw, and the phase steps. SE.FB (R290, R189, R203), SE.REV (R292)
and SE.OUT (R293). The rates, the right offset, the compressor's threshold and slope are the instance's (I14), with their
nominal values at the end: 2.5 and 0.2 Hz, 15 ms, 10^(-10/20) as the pattern 0x3EA1E89B (the model's choice:
assumption 11), 0.66. `compEnvelope` and `compGain` are R189, spelled out in `CompressorEnvelopeAndGain`. -/
def Obligations.SeStageResults : Prop :=
  ∀ s : State,
    let w := s.wires.se
    let a := s.cfg.approx
    let lp := svfProcess
    let flut := s.cfg.seFlutDepth.mul (Config.math.sin (F32.twoPi.mul s.se.flutPh))
    let nz := s.cfg.seNoiseDepth.mul (noiseNext s.se.noise).2
    let dr := s.cfg.seDriftDepth.mul (((F32.dec 4 1).mul (s.se.driftPh.sub (.dec 5 10)).abs).sub .one)
    let tL := ((s.se.tSm.add flut).add nz).add dr
    let p : CompParams := ⟨a.seCompT, a.seCompRho, s.cfg.seCompW, s.cfg.seCompAtt, s.cfg.seCompRel⟩
    let sat := fun x : F32 => if F32.zero.le x then Config.math.tanh (s.cfg.seSatGp.mul x)
      else Config.math.tanh (s.cfg.seSatGn.mul x)
    let hL := lp s.se.hp.l (lp s.se.lp.l w.r.l).2.low
    let hR := lp s.se.hp.r (lp s.se.lp.r w.r.r).2.low
    let eL := compEnvelope p s.se.compEnv.l hL.2.high
    let eR := compEnvelope p s.se.compEnv.r hR.2.high
    exec .seMod s = .next { s with
      se := { s.se with
        noise := (noiseNext s.se.noise).1
        flutPh := (s.se.flutPh.add (a.seFlutHz.div (.ofInt s.cfg.fs))).wrap01
        driftPh := (s.se.driftPh.add (a.seDriftHz.div (.ofInt s.cfg.fs))).wrap01 }
      wires := { s.wires with se := { w with
        d := ⟨tL.mul (.ofInt s.cfg.fs), (tL.add a.seROffset).mul (.ofInt s.cfg.fs)⟩ } } } ∧
    exec .seFb s = .next { s with
      se := { s.se with
        lp := ⟨(lp s.se.lp.l w.r.l).1, (lp s.se.lp.r w.r.r).1⟩, hp := ⟨hL.1, hR.1⟩, compEnv := ⟨eL, eR⟩ }
      wires := { s.wires with se := { w with fb :=
        ⟨s.se.fb.mul (Config.math.tanh (sat ((compGain p eL).mul hL.2.high))),
          s.se.fb.mul (Config.math.tanh (sat ((compGain p eR).mul hR.2.high)))⟩ } } } ∧
    exec .seRev s = .next { s with
      se := { s.se with rev := (reverbProcess s.se.rev w.r).1 }
      wires := { s.wires with se := { w with v := (reverbProcess s.se.rev w.r).2 } } } ∧
    exec .seOut s = .next { s with wires := { s.wires with y :=
      ⟨(s.wires.x.l.add ((F32.dec 8 10).mul w.r.l)).add (s.se.revAmt.mul w.v.l),
        (s.wires.x.r.add ((F32.dec 8 10).mul w.r.r)).add (s.se.revAmt.mul w.v.r)⟩ } } ∧
    (a = {} → a.seFlutHz = .dec 25 10 ∧ a.seDriftHz = .dec 2 10 ∧ a.seROffset = .dec 15 1000 ∧
      a.seCompT = .ofBits 0x3EA1E89B#32 ∧ a.seCompRho = .dec 66 100)

/-- SE.WRITE (R291, R187, R104): each line stores `x[c] + fb[c]` at its write index, which advances modulo the capacity;
every other element of the line reads as before, and nothing else changes. -/
def Obligations.SeWriteStoresAtTheWriteIndex : Prop :=
  ∀ s : State, ∃ line : Stereo DelayLine,
    exec .seWrite s = .next { s with se := { s.se with line := line } } ∧
    line.l.w = (s.se.line.l.w + 1) % (2 * s.cfg.fs + 4) ∧ line.r.w = (s.se.line.r.w + 1) % (2 * s.cfg.fs + 4) ∧
    (Memory.wf (2 * s.cfg.fs + 4) s.se.line.l = true →
      readCell line.l.cells s.se.line.l.w = s.wires.x.l.add s.wires.se.fb.l ∧
      ∀ a, a ≠ s.se.line.l.w → readCell line.l.cells a = readCell s.se.line.l.cells a) ∧
    (Memory.wf (2 * s.cfg.fs + 4) s.se.line.r = true →
      readCell line.r.cells s.se.line.r.w = s.wires.x.r.add s.wires.se.fb.r ∧
      ∀ a, a ≠ s.se.line.r.w → readCell line.r.cells a = readCell s.se.line.r.cells a)

/-- R290, R291, R296, R507: whatever the line holds, the fed-back sample is at most `se.fb` in magnitude (or NaN, which the
guard catches); and at `se.fb` zero SE.FB and SE.WRITE together store the fresh input in the line, where the fed-back value
is not NaN (the same number, not the same bits: a zero may change its sign, assumption 24). -/
def Obligations.SeFeedbackIsBounded : Prop :=
  (∀ s t : State, s.se.fb.isFinite = true → F32.zero.le s.se.fb = true → exec .seFb s = .next t →
    (t.wires.se.fb.l.isNaN = true ∨ t.wires.se.fb.l.abs.le s.se.fb = true) ∧
    (t.wires.se.fb.r.isNaN = true ∨ t.wires.se.fb.r.abs.le s.se.fb = true)) ∧
  (∀ s t u : State, s.se.fb.isZero = true → exec .seFb s = .next t → exec .seWrite t = .next u →
    (t.wires.se.fb.l.isNaN = false → Memory.wf s.cfg.seCap s.se.line.l = true →
      sameNumber (readCell u.se.line.l.cells s.se.line.l.w) s.wires.x.l) ∧
    (t.wires.se.fb.r.isNaN = false → Memory.wf s.cfg.seCap s.se.line.r = true →
      sameNumber (readCell u.se.line.r.cells s.se.line.r.w) s.wires.x.r))

/-! Delay lines (20_memory.md, R185 to R188). -/

/-- DL.READ (R186) with its index arithmetic modulo the capacity (R104), and HERMITE4 (R185), in full. (At capacities above
2^24 + 3, where `i2f(C - 3)` can round above `C - 3`, the bound is the model's choice: assumption 36.) -/
def Obligations.DelayReadInterpolatesFourElements : Prop :=
  ∀ (cap : Nat) (dl : DelayLine) (d : F32),
    let dc := (d.max (.dec 2 1)).min (.ofInt ((cap : Int) - 3))
    let i := dc.floor.toNat
    let t := dc.sub dc.floor
    let h := fun k : Nat => readCell dl.cells (((dl.w : Int) - k) % cap).toNat
    let y0 := h (i - 1)
    let y1 := h i
    let y2 := h (i + 1)
    let y3 := h (i + 2)
    let c1 := (F32.dec 5 10).mul (y2.sub y0)
    let c2 := ((y0.sub ((F32.dec 25 10).mul y1)).add ((F32.dec 2 1).mul y2)).sub ((F32.dec 5 10).mul y3)
    let c3 := ((F32.dec 5 10).mul (y3.sub y0)).add ((F32.dec 15 10).mul (y1.sub y2))
    dlRead cap dl d = (((((c3.mul t).add c2).mul t).add c1).mul t).add y1

/-- DL.WRITE (R187): after a write, the element written 1 write ago is the new one, and the one written k + 1 writes ago
is the one that was written k writes ago, for every k below the capacity (R104). DL.RESET (R188, R116): every element
reads 0.0, the write index is 0, and a reset line reads 0.0 at every finite delay. -/
def Obligations.DelayWriteAgesAndResetClears : Prop :=
  (∀ (cap : Nat) (dl : DelayLine) (x : F32), Memory.wf cap dl = true → 1 < cap →
    dlHistory cap (dlWrite cap dl x) 1 = x ∧
    (∀ k, 1 ≤ k → k < cap → dlHistory cap (dlWrite cap dl x) (k + 1) = dlHistory cap dl k)) ∧
  dlReset.w = 0 ∧ (∀ i, readCell dlReset.cells i = .zero) ∧
  (∀ (cap : Nat) (d : F32), 5 ≤ cap → cap ≤ 2 ^ 24 → d.isFinite = true → dlRead cap dlReset d = .zero)

/-! ShimmerReverb (43_shimmer.md). -/

/-- SR.UPDATE (R321). -/
def Obligations.SrUpdateResult : Prop :=
  ∀ s : State, exec .srUpdate s = .next { s with sr :=
    let hpT := (F32.dec 150 1).add (((F32.dec 500 1).sub (.dec 150 1)).mul s.snap.kbot)
    let hpSm := s.sr.hpSm.add ((F32.dec 1 100).mul (hpT.sub s.sr.hpSm))
    let revFb := (F32.dec 7 10).add (((F32.dec 98 100).sub (.dec 7 10)).mul s.snap.ktop)
    let pitchT := match s.snap.swl with
      | .p0 => F32.dec 12 1
      | .p1 => (F32.dec 12 1).neg
      | .p2 => .dec 7 1
    let pitchSm := s.sr.pitchSm.add (s.cfg.srPitchSmooth.mul (pitchT.sub s.sr.pitchSm))
    { s.sr with
      trans := s.snap.swl, tone := s.snap.swr, hpT := hpT, hpSm := hpSm, revFb := revFb
      shAmt := F32.clamp (s.sr.shAmt.add ((F32.dec 5 100).mul (.ofInt s.snap.enc.toInt))) .zero (.dec 4 10)
      pitchT := pitchT, pitchSm := pitchSm
      hp1 := ⟨svfConfigure s.sr.hp1.l hpSm s.cfg.auxRes, svfConfigure s.sr.hp1.r hpSm s.cfg.auxRes⟩
      hp2 := ⟨svfConfigure s.sr.hp2.l hpSm s.cfg.auxRes, svfConfigure s.sr.hp2.r hpSm s.cfg.auxRes⟩
      tlp := ⟨svfConfigure s.sr.tlp.l (s.cfg.srToneLp.at s.snap.swr) s.cfg.auxRes,
        svfConfigure s.sr.tlp.r (s.cfg.srToneLp.at s.snap.swr) s.cfg.auxRes⟩
      rev := reverbConfigure s.sr.rev (.feedback revFb (s.cfg.srRevDamp.at s.snap.swr))
      shift := ⟨shifterConfigure s.sr.shift.l (pitchSm.sub (.dec 5 100)),
        shifterConfigure s.sr.shift.r (pitchSm.add (.dec 5 100))⟩ } }

/-- SR.HPF, SR.REVIN, SR.AR, SR.SHIFT (R328, R330 to R332), SR.POST (R333, R202, R189) and SR.OUT (R334). The compressor's
threshold and slope are the instance's (I14), nominally 0.4 and 0.66; `compEnvelope` and `compGain` are R189, spelled out
in `CompressorEnvelopeAndGain`. -/
def Obligations.SrStageResults : Prop :=
  ∀ s : State,
    let w := s.wires.sr
    let x := s.wires.x
    let fl := svfProcess
    let r := reverbProcess s.sr.rev ⟨w.p.l.add (s.sr.shAmt.mul s.sr.fb.l), w.p.r.add (s.sr.shAmt.mul s.sr.fb.r)⟩
    let p : CompParams := ⟨s.cfg.approx.srCompT, s.cfg.approx.srCompRho, s.cfg.srCompW, s.cfg.srCompAtt, s.cfg.srCompRel⟩
    let lL := fl s.sr.tlp.l w.s.l
    let lR := fl s.sr.tlp.r w.s.r
    let qL := (lL.2.low.sub s.sr.dcX.l).add (s.cfg.srDcR.mul s.sr.dcY.l)
    let qR := (lR.2.low.sub s.sr.dcX.r).add (s.cfg.srDcR.mul s.sr.dcY.r)
    let eL := compEnvelope p s.sr.compEnv.l qL
    let eR := compEnvelope p s.sr.compEnv.r qR
    let o : Stereo F32 := ⟨Config.math.tanh ((compGain p eL).mul qL), Config.math.tanh ((compGain p eR).mul qR)⟩
    exec .srHpf s = .next { s with
      sr := { s.sr with
        hp1 := ⟨(fl s.sr.hp1.l x.l).1, (fl s.sr.hp1.r x.r).1⟩
        hp2 := ⟨(fl s.sr.hp2.l (fl s.sr.hp1.l x.l).2.high).1, (fl s.sr.hp2.r (fl s.sr.hp1.r x.r).2.high).1⟩ }
      wires := { s.wires with sr := { w with h :=
        ⟨(fl s.sr.hp2.l (fl s.sr.hp1.l x.l).2.high).2.high, (fl s.sr.hp2.r (fl s.sr.hp1.r x.r).2.high).2.high⟩ } } } ∧
    exec .srRevin s = .next { s with
      sr := { s.sr with rev := r.1 }, wires := { s.wires with sr := { w with rv := r.2 } } } ∧
    exec .srAr s = .next { s with
      sr := { s.sr with ar := ⟨(fl s.sr.ar.l w.rv.l).1, (fl s.sr.ar.r w.rv.r).1⟩ }
      wires := { s.wires with sr := { w with a := ⟨(fl s.sr.ar.l w.rv.l).2.high, (fl s.sr.ar.r w.rv.r).2.high⟩ } } } ∧
    exec .srShift s = .next { s with
      sr := { s.sr with shift := ⟨(shifterProcess s.sr.shift.l w.a.l).1, (shifterProcess s.sr.shift.r w.a.r).1⟩ }
      wires := { s.wires with sr := { w with
        s := ⟨(shifterProcess s.sr.shift.l w.a.l).2, (shifterProcess s.sr.shift.r w.a.r).2⟩ } } } ∧
    exec .srPost s = .next { s with
      sr := { s.sr with
        tlp := ⟨lL.1, lR.1⟩, dcX := ⟨lL.2.low, lR.2.low⟩, dcY := ⟨qL, qR⟩, compEnv := ⟨eL, eR⟩, fb := o }
      wires := { s.wires with sr := { w with w := o } } } ∧
    exec .srOut s = .next { s with wires := { s.wires with y :=
      ⟨(x.l.mul (F32.one.sub (.dec 5 10))).add (w.w.l.mul (.dec 5 10)),
        (x.r.mul (F32.one.sub (.dec 5 10))).add (w.w.r.mul (.dec 5 10))⟩ } } ∧
    (s.cfg.approx = {} → p.t = .dec 4 10 ∧ p.rho = .dec 66 100)

/-- SR.PREDLY (R329): each line is read at the pre-delay, then stores the high-passed sample at its write index; every
other element reads as before. A pre-delay that is not finite ends the run (R511). The pre-delay is the instance's
`SR_PREDELAY` (I14), `num / den` seconds, nominally 0.040; it gives the delay `SR_PREDELAY × FSf` and the capacity
`floor(SR_PREDELAY · FS) + 4` (R103; the exact product is the model's choice, assumption 10). -/
def Obligations.SrPreDelayReadsThenWrites : Prop :=
  ∀ s : State,
    let a := s.cfg.approx.srPredelay
    let d := (F32.dec a.num a.den).mul (.ofInt s.cfg.fs)
    let cap := a.num * s.cfg.fs / a.den + 4
    (s.cfg.approx = {} → d = (F32.dec 40 1000).mul (.ofInt s.cfg.fs) ∧ cap = 40 * s.cfg.fs / 1000 + 4) ∧
    (d.isFinite = false → exec .srPredly s = .fault (.unmodelledDelay d)) ∧
    (d.isFinite = true → ∃ pd : Stereo DelayLine,
      exec .srPredly s = .next { s with
        sr := { s.sr with pd := pd }
        wires := { s.wires with sr := { s.wires.sr with p := ⟨dlRead cap s.sr.pd.l d, dlRead cap s.sr.pd.r d⟩ } } } ∧
      pd.l.w = (s.sr.pd.l.w + 1) % cap ∧ pd.r.w = (s.sr.pd.r.w + 1) % cap ∧
      (Memory.wf cap s.sr.pd.l = true →
        readCell pd.l.cells s.sr.pd.l.w = s.wires.sr.h.l ∧
        ∀ a, a ≠ s.sr.pd.l.w → readCell pd.l.cells a = readCell s.sr.pd.l.cells a) ∧
      (Memory.wf cap s.sr.pd.r = true →
        readCell pd.r.cells s.sr.pd.r.w = s.wires.sr.h.r ∧
        ∀ a, a ≠ s.sr.pd.r.w → readCell pd.r.cells a = readCell s.sr.pd.r.cells a))

/-- R333, R337, R507: what a completed SR.PROCESS stores as shimmer feedback is in [-1, 1] (a NaN has been reset away by
the guard); for an input in [-1, 1] the outputs are in [-1, 1] (R334). -/
def Obligations.ShimmerFeedbackAndOutputInRange : Prop :=
  ∀ s t : State, exec .srProcess s = .next t →
    inOne t.sr.fb.l = true ∧ inOne t.sr.fb.r = true ∧
    (inOne s.wires.x.l = true → inOne s.wires.x.r = true → inOne t.wires.y.l = true ∧ inOne t.wires.y.r = true)

/-! ShepardTone (44_shepard.md). -/

/-- SH.UPDATE (R361): nothing is smoothed (R182). -/
def Obligations.ShUpdateResult : Prop :=
  ∀ s : State, exec .shUpdate s = .next { s with sh :=
    let fc := (F32.dec 200 1).add (((F32.dec 12000 1).mul s.snap.kbot).mul s.snap.kbot)
    { s.sh with
      dir := s.snap.swl, range := s.snap.swr
      speed := (F32.dec 1 100).mul (Config.math.pow (F32.one.div (.dec 1 100)) s.snap.ktop)
      toneFc := fc
      revAmt := F32.clamp (s.sh.revAmt.add ((F32.dec 5 100).mul (.ofInt s.snap.enc.toInt))) .zero .one
      tlp := ⟨svfConfigure s.sh.tlp.l fc s.cfg.auxRes,
        svfConfigure s.sh.tlp.r (fc.mul (F32.one.add s.cfg.shToneDetune)) s.cfg.auxRes⟩ } }

/-- SH.VOICE, SH.OSC, SH.PAN (R368 to R370), for every voice. -/
def Obligations.ShVoiceStageResults : Prop :=
  ∀ s : State,
    let w := s.wires.sh
    let b := match s.sh.range with
      | .p0 => s.cfg.shRangeB.a0
      | .p1 => s.cfg.shRangeB.a1
      | .p2 => s.cfg.shRangeB.a2
    let q := Config.math.sin (F32.twoPi.mul s.sh.panPh)
    let even := F32.clamp (((F32.dec 5 10).add (s.cfg.shPanDepth.mul q)).add (F32.one.mul s.cfg.shPanOff)) .zero .one
    let odd := F32.clamp (((F32.dec 5 10).add (s.cfg.shPanDepth.mul q)).add (F32.one.neg.mul s.cfg.shPanOff)) .zero .one
    (exec .shVoice s = .next { s with wires := { s.wires with sh := { w with
      f := s.sh.p.map fun p => ((F32.dec 20 1).mul b).mul (Config.math.exp2 (p.mul (.dec 10 1)))
      a := s.sh.p.map fun p => (F32.dec 5 10).sub ((F32.dec 5 10).mul (Config.math.cos (F32.twoPi.mul p))) } } }) ∧
    (exec .shOsc s = .next { s with
      sh := { s.sh with th := Oct.zip (fun th f => (th.add (f.div (.ofInt s.cfg.fs))).wrap01) s.sh.th w.f }
      wires := { s.wires with sh := { w with o := s.sh.th.map fun th => Config.math.sin (F32.twoPi.mul th) } } }) ∧
    (exec .shPan s = .next { s with
      sh := { s.sh with panPh := (s.sh.panPh.add (s.cfg.shPanRate.div (.ofInt s.cfg.fs))).wrap01 }
      wires := { s.wires with sh := { w with
        gL := ⟨F32.one.sub even, F32.one.sub odd, F32.one.sub even, F32.one.sub odd,
          F32.one.sub even, F32.one.sub odd, F32.one.sub even, F32.one.sub odd⟩
        gR := ⟨even, odd, even, odd, even, odd, even, odd⟩ } } })

/-- SH.SUM, SH.ADV, SH.TONE, SH.REV (R371 to R374). -/
def Obligations.ShMixStageResults : Prop :=
  ∀ s : State,
    let w := s.wires.sh
    let δ := match s.sh.dir with
      | .p0 => s.sh.speed.div (.ofInt s.cfg.fs)
      | .p1 => .zero
      | .p2 => (s.sh.speed.div (.ofInt s.cfg.fs)).neg
    let total := fun g : Oct F32 =>
      let v := Oct.zip F32.mul w.a w.o
      (((((((((F32.zero.add (v.v0.mul g.v0)).add (v.v1.mul g.v1)).add (v.v2.mul g.v2)).add (v.v3.mul g.v3)).add
        (v.v4.mul g.v4)).add (v.v5.mul g.v5)).add (v.v6.mul g.v6)).add (v.v7.mul g.v7)).mul (.dec 15 100))
    let tL := svfProcess s.sh.tlp.l w.s.l
    let tR := svfProcess s.sh.tlp.r w.s.r
    let rv := reverbProcess s.sh.rev w.t
    (exec .shSum s = .next { s with wires := { s.wires with sh := { w with s := ⟨total w.gL, total w.gR⟩ } } }) ∧
    (exec .shAdv s = .next { s with sh := { s.sh with p := s.sh.p.map fun p => (p.add δ).wrap01 } }) ∧
    (exec .shTone s = .next { s with
      sh := { s.sh with tlp := ⟨tL.1, tR.1⟩ }
      wires := { s.wires with sh := { w with t := ⟨tL.2.low, tR.2.low⟩ } } }) ∧
    (exec .shRev s = .next { s with
      sh := { s.sh with rev := rv.1 }
      wires := { s.wires with y := ⟨Config.math.tanh (w.t.l.add (s.sh.revAmt.mul rv.2.l)),
        Config.math.tanh (w.t.r.add (s.sh.revAmt.mul rv.2.r))⟩ } })

/-- R375: ShepardTone's input frame is not read: with any other one SH.PROCESS gives the same result. -/
def Obligations.ShepardIgnoresItsInput : Prop :=
  ∀ (s t : State) (x : Stereo F32), exec .shProcess s = .next t →
    exec .shProcess { s with wires := { s.wires with x := x } } = .next { t with wires := { t.wires with x := x } }

/-- R17, R196, R288, R369, R370, R372, R363. `wrap01(x)` is `x - floor(x)`, or 0.0 where that rounds to 1.0; `floor(x)` is the
largest whole number not above x; so `wrap01` maps every finite datum into [0, 1). The rows that advance phases keep them
there: SE.MOD, SH.PAN and SH.ADV the LFO and pitch phases, for an instance that meets its constraints, and SH.OSC the
oscillator phases, while the voice frequencies are finite. Paused, the pitch phases keep their values (the same numbers:
assumption 24). -/
def Obligations.PhasesStayInRange : Prop :=
  (∀ x : F32, x.wrap01 = if F32.one.le (x.sub x.floor) then .zero else x.sub x.floor) ∧
  (∀ x : F32, (F32.dec 16777216 1).neg.lt x = true → x.lt (.dec 16777216 1) = true →
    ∃ k : Int, sameNumber x.floor (.ofInt k) ∧ (F32.ofInt k).le x = true ∧ x.lt (.ofInt (k + 1)) = true) ∧
  (∀ x : F32, x.isFinite = true → inPhase x.wrap01 = true) ∧
  (∀ (i : Instr) (s t : State), i = .seMod ∨ i = .shPan ∨ i = .shAdv → s.cfg.ok = true → phasesOk s = true →
    exec i s = .next t → phasesOk t = true) ∧
  (∀ s t : State, s.cfg.ok = true → (∀ f ∈ s.wires.sh.f.toList, f.isFinite = true) →
    (∀ p ∈ s.sh.th.toList, inPhase p = true) → exec .shOsc s = .next t → ∀ p ∈ t.sh.th.toList, inPhase p = true) ∧
  (∀ s t : State, s.sh.dir = .p1 → (∀ p ∈ s.sh.p.toList, inPhase p = true) →
    exec .shAdv s = .next t → ∀ pq ∈ s.sh.p.toList.zip t.sh.p.toList, sameNumber pq.1 pq.2)

/-! Invariants. -/

/-- The delay lines keep their canonical form, their bounds and their write indices in range, through every step
(R100, R101, R104, R187, R188). -/
def Obligations.StepKeepsMemoryOk : Prop :=
  ∀ s t : State, memoryOk s = true → step s = .next t → memoryOk t = true

/-- Every step keeps ranges of the state tables, for an instance that meets its constraints (R34, R37, R183, R507, R508;
tables F, E, H, T): knobs, crossfade volume, accumulators, resonance, drive, feedback, shimmer amount, ShimmerReverb's
high-pass, reverb feedback and transposition target, ShepardTone's tone cutoff, and the phases. The smoothed transposition
stays in [-12, 12] where `SR_PITCH_SMOOTH` is at most 1/4 (near 1 binary32 can round past the target: assumption 34).
Whatever the configuration, the pending mode is the active one during FadingIn (R39, R402, R439). Left out are the values
through `pow`, which R11 does not bound (`fd.cut_t`, `fd.cut_sm`, and `sh.speed` but for being finite), the delay time,
whose bounds are OPEN parameters, envelopes, and signal history, which a NaN enters until the guard clears it. -/
def Obligations.StepKeepsControlRanges : Prop :=
  ∀ s t : State, step s = .next t →
    (s.cfg.ok = true → controlsOk s = true →
      controlsOk t = true ∧ (s.cfg.srPitchSmooth.le (.dec 25 100) = true → pitchOk s = true → pitchOk t = true)) ∧
    (fadeOk s.xf = true → fadeOk t.xf = true)

/-- Static configuration and model bookkeeping (R40, R43, R501): no step changes `cfg`, clears the refusal mark, or
removes an event or an emitted frame. -/
def Obligations.StepKeepsConfigAndLogs : Prop :=
  ∀ s t : State, step s = .next t →
    t.cfg = s.cfg ∧ (s.refused = true → t.refused = true) ∧ s.events <+: t.events ∧ s.ports.aout <+: t.ports.aout

/-- A step ends the run only at a delay that is not finite (R511; the form of that stop is assumption 16), and meets no
instruction without a meaning: beside that only a selector in the row port that no row fits stops it (the row port and this
refusal are the model's own: assumptions 13 and 29). -/
def Obligations.StepStopsOnlyAsStated : Prop :=
  ∀ s : State,
    (∃ t, step s = .next t) ∨ (∃ d, step s = .fault (.unmodelledDelay d) ∧ d.isFinite = false) ∨
    (∃ slot sel, s.row = some (slot, sel) ∧ decodeRow slot sel = none ∧ step s = .refused (.noRow slot sel))

/-- The invariants hold of the state after reset. -/
def Obligations.ResetMeetsTheInvariants : Prop :=
  State.reset.cfg.ok = true ∧ memoryOk State.reset = true ∧ controlsOk State.reset = true ∧
  fadeOk State.reset.xf = true ∧ pitchOk State.reset = true ∧ unitsOk State.reset.cfg

/-! The compressor of SE.FB and SR.POST (40_common.md). -/

/-- COMP (R189): attack when the rectified input is above the envelope, else release; the gain at the new envelope is 1.0 at
or below the lower knee edge, the line of slope ρ through the threshold over the envelope at or above the upper one, and
`COMP_KNEE` between, in (0, 1]. -/
def Obligations.CompressorEnvelopeAndGain : Prop :=
  ∀ (p : CompParams) (e x : F32),
    let a := x.abs
    let e' := if e.lt a then e.add (p.att.mul (a.sub e)) else e.add (p.rel.mul (a.sub e))
    let half := p.wk.div (.dec 2 1)
    let gain :=
      if e'.le (p.t.sub half) then .one
      else if (p.t.add half).le e' then (p.t.add (p.rho.mul (e'.sub p.t))).div e'
      else Config.compKnee.f e' p.t p.rho p.wk
    comp p e x = (e', gain.mul x) ∧ compEnvelope p e x = e' ∧ compGain p e' = gain ∧
    (e'.isNaN = false → F32.zero.lt (Config.compKnee.f e' p.t p.rho p.wk) = true ∧
      (Config.compKnee.f e' p.t p.rho p.wk).le .one = true)
end

