-- ==== Sys2Proof/Laws/Rounding.lean ====
section
/-! SUPPORT. Rounding (R9): `roundMag` is monotone, exact on representable values, and never leaves an interval whose ends
are representable. Terms over `unitsPerOne` or `units` are large numbers: generalize them before calling omega or simp. -/

namespace Sys2Proof
namespace F32

theorem nearestEven_near (n d : Nat) (hd : 0 < d) :
    2 * (nearestEven n d * d) ≤ 2 * n + d ∧ 2 * n ≤ 2 * (nearestEven n d * d) + d ∧
    (2 * n + d = 2 * (nearestEven n d * d) → nearestEven n d % 2 = 0) ∧
    (2 * n = 2 * (nearestEven n d * d) + d → nearestEven n d % 2 = 0) := by
  have hn := Nat.div_add_mod n d
  have hlt := Nat.mod_lt n hd
  set q := n / d with hq
  set r := n % d with hr
  have hn' : n = q * d + r := by rw [Nat.mul_comm]; exact hn.symm
  simp only [nearestEven, ← hq, ← hr]
  split
  · rename_i h
    simp only [Bool.or_eq_true, decide_eq_true_eq, Bool.and_eq_true, beq_iff_eq] at h
    have e : (q + 1) * d = q * d + d := by ring
    rw [e]
    refine ⟨by omega, by omega, fun h2 => ?_, fun h2 => by omega⟩
    rcases h with h | ⟨h, h'⟩ <;> omega
  · rename_i h
    simp only [Bool.or_eq_true, decide_eq_true_eq, Bool.and_eq_true, beq_iff_eq] at h
    refine ⟨by omega, by omega, fun h2 => by omega, fun h2 => ?_⟩
    by_contra h3
    exact h (Or.inr ⟨by omega, by omega⟩)

theorem nearestEven_mono {n₁ d₁ n₂ d₂ : Nat} (h₁ : 0 < d₁) (h₂ : 0 < d₂) (h : n₁ * d₂ ≤ n₂ * d₁) :
    nearestEven n₁ d₁ ≤ nearestEven n₂ d₂ := by
  obtain ⟨a1, -, a3, -⟩ := nearestEven_near n₁ d₁ h₁
  obtain ⟨-, b2, -, b4⟩ := nearestEven_near n₂ d₂ h₂
  set r₁ := nearestEven n₁ d₁
  set r₂ := nearestEven n₂ d₂
  by_contra hlt
  have hp : 0 < d₁ * d₂ := Nat.mul_pos h₁ h₂
  have e1 : 2 * (r₁ * (d₁ * d₂)) ≤ 2 * (n₁ * d₂) + d₁ * d₂ := by nlinarith
  have e2 : 2 * (n₂ * d₁) ≤ 2 * (r₂ * (d₁ * d₂)) + d₁ * d₂ := by nlinarith
  have e3 : r₁ * (d₁ * d₂) ≤ (r₂ + 1) * (d₁ * d₂) := by nlinarith
  have e4 : r₁ = r₂ + 1 := Nat.le_antisymm (Nat.le_of_mul_le_mul_right e3 hp) (by omega)
  rw [e4] at e1 a1 a3
  have t1 : 2 * n₁ + d₁ = 2 * ((r₂ + 1) * d₁) := by
    refine Nat.le_antisymm ?_ a1
    refine Nat.le_of_mul_le_mul_right (c := d₂) ?_ h₂
    nlinarith
  have t2 : 2 * n₂ = 2 * (r₂ * d₂) + d₂ := by
    refine Nat.le_antisymm b2 ?_
    refine Nat.le_of_mul_le_mul_right (c := d₁) ?_ h₁
    nlinarith
  have := a3 t1
  have := b4 t2
  omega

theorem nearestEven_exact (n d : Nat) (hd : 0 < d) : nearestEven (n * d) d = n := by
  simp [nearestEven, Nat.mul_mod_left, Nat.mul_div_cancel _ hd]
  omega

theorem units_step (k n : Nat) (h : k = 0 ∨ 2 ^ 23 ≤ n) (hn : n ≤ 2 ^ 24) : units (k * 2 ^ 23 + n) = n * 2 ^ k := by
  unfold units
  rcases Nat.lt_or_ge n (2 ^ 23) with h1 | h1
  · have hk : k = 0 := by omega
    subst hk
    have : (0 * 2 ^ 23 + n) / 2 ^ 23 = 0 := by omega
    rw [this]; simp
  · rcases Nat.lt_or_ge n (2 ^ 24) with h2 | h2
    · have : (k * 2 ^ 23 + n) / 2 ^ 23 = k + 1 := by omega
      rw [this]
      have : k * 2 ^ 23 + n - (k + 1 - 1) * 2 ^ 23 = n := by simp
      rw [this]; simp
    · have e : n = 2 ^ 24 := by omega
      subst e
      have : (k * 2 ^ 23 + 2 ^ 24) / 2 ^ 23 = k + 2 := by omega
      rw [this]
      have : k * 2 ^ 23 + 2 ^ 24 - (k + 2 - 1) * 2 ^ 23 = 2 ^ 23 := by omega
      rw [this, show k + 2 - 1 = k + 1 from rfl, pow_succ]; ring

/-- Every magnitude is `k * 2^23 + n`, its step `2^k` and its significand `n`. -/
theorem mag_split (m : Nat) : ∃ k n, m = k * 2 ^ 23 + n ∧ (k = 0 ∨ 2 ^ 23 ≤ n) ∧ n < 2 ^ 24 := by
  refine ⟨m / 2 ^ 23 - 1, m - (m / 2 ^ 23 - 1) * 2 ^ 23, by omega, by omega, by omega⟩

theorem stepOf_lt (num den : Nat) : num / den < 2 ^ (stepOf num den + 24) := by
  unfold stepOf
  exact Nat.lt_of_lt_of_le Nat.lt_log2_self (Nat.pow_le_pow_right (by decide) (by omega))

theorem le_stepOf (num den : Nat) (h : stepOf num den ≠ 0) : 2 ^ (stepOf num den + 23) ≤ num / den := by
  unfold stepOf at *
  rw [Nat.sub_add_cancel (by omega)]
  exact Nat.log2_self_le (by intro e; simp [e] at h)

/-- The significand of a rounded value. -/
theorem significand_bounds (num den : Nat) (hd : 0 < den) :
    (stepOf num den = 0 ∨ 2 ^ 23 ≤ nearestEven num (den * 2 ^ stepOf num den)) ∧
    nearestEven num (den * 2 ^ stepOf num den) ≤ 2 ^ 24 := by
  set k := stepOf num den with hk
  have hp : 0 < den * 2 ^ k := Nat.mul_pos hd (by positivity)
  constructor
  · by_cases h0 : k = 0
    · exact Or.inl h0
    · right
      have h := le_stepOf num den (hk ▸ h0)
      rw [← hk, Nat.le_div_iff_mul_le hd] at h
      calc 2 ^ 23 = nearestEven (2 ^ 23 * (den * 2 ^ k)) (den * 2 ^ k) := (nearestEven_exact _ _ hp).symm
        _ ≤ _ := nearestEven_mono hp hp (Nat.mul_le_mul_right _ (by
            calc 2 ^ 23 * (den * 2 ^ k) = 2 ^ (k + 23) * den := by rw [pow_add]; ring
              _ ≤ num := h))
  · have h := stepOf_lt num den
    rw [← hk, Nat.div_lt_iff_lt_mul hd] at h
    calc _ ≤ nearestEven (2 ^ 24 * (den * 2 ^ k)) (den * 2 ^ k) := nearestEven_mono hp hp (Nat.mul_le_mul_right _ (by
            calc num ≤ 2 ^ (k + 24) * den := h.le
              _ = 2 ^ 24 * (den * 2 ^ k) := by rw [pow_add]; ring))
      _ = 2 ^ 24 := nearestEven_exact _ _ hp

theorem stepOf_mono {a b c d : Nat} (hb : 0 < b) (hd : 0 < d) (h : a * d ≤ c * b) : stepOf a b ≤ stepOf c d := by
  have hq : a / b ≤ c / d := by
    rw [Nat.le_div_iff_mul_le hd]
    refine Nat.le_of_mul_le_mul_right (c := b) ?_ hb
    calc a / b * d * b = a / b * b * d := by ring
      _ ≤ a * d := Nat.mul_le_mul_right _ (Nat.div_mul_le_self a b)
      _ ≤ c * b := h
  unfold stepOf
  have : Nat.log2 (a / b) ≤ Nat.log2 (c / d) := by
    by_cases h0 : a / b = 0
    · simp [h0]
    · rw [Nat.le_log2 (Nat.pos_iff_ne_zero.1 (Nat.lt_of_lt_of_le (Nat.pos_of_ne_zero h0) hq))]
      exact (Nat.log2_self_le h0).trans hq
  omega

/-- Rounding is monotone. -/
theorem roundMag_mono {a b c d : Nat} (hb : 0 < b) (hd : 0 < d) (h : a * d ≤ c * b) : roundMag a b ≤ roundMag c d := by
  have hk := stepOf_mono hb hd h
  obtain ⟨-, h1⟩ := significand_bounds a b hb
  obtain ⟨h2, -⟩ := significand_bounds c d hd
  unfold roundMag
  rcases Nat.eq_or_lt_of_le hk with hk | hk
  · rw [hk]
    have : nearestEven a (b * 2 ^ stepOf c d) ≤ nearestEven c (d * 2 ^ stepOf c d) :=
      nearestEven_mono (Nat.mul_pos hb (by positivity)) (Nat.mul_pos hd (by positivity)) (by
        calc a * (d * 2 ^ stepOf c d) = a * d * 2 ^ stepOf c d := by ring
          _ ≤ c * b * 2 ^ stepOf c d := Nat.mul_le_mul_right _ h
          _ = c * (b * 2 ^ stepOf c d) := by ring)
    omega
  · have : 2 ^ 23 ≤ nearestEven c (d * 2 ^ stepOf c d) := by rcases h2 with h2 | h2 <;> omega
    omega

/-- A value that is a magnitude's is rounded to it. -/
theorem roundMag_units (m : Nat) : roundMag (units m) 1 = m := by
  obtain ⟨k, n, rfl, h1, h2⟩ := mag_split m
  rw [units_step k n h1 (by omega)]
  have hs : stepOf (n * 2 ^ k) 1 = k := by
    unfold stepOf
    rw [Nat.div_one]
    rcases h1 with rfl | h1
    · rw [pow_zero, Nat.mul_one]
      have : Nat.log2 n < 24 := by
        by_cases h0 : n = 0
        · simp [h0]
        · exact (Nat.log2_lt h0).2 h2
      omega
    · have h3 : n * 2 ^ k ≠ 0 := Nat.mul_ne_zero (by omega) (by positivity)
      have h4 : Nat.log2 (n * 2 ^ k) < 24 + k := (Nat.log2_lt h3).2 (by rw [pow_add]; exact Nat.mul_lt_mul_of_pos_right h2 (by positivity))
      have h5 : 23 + k ≤ Nat.log2 (n * 2 ^ k) := (Nat.le_log2 h3).2 (by rw [pow_add]; exact Nat.mul_le_mul_right _ h1)
      omega
  unfold roundMag
  rw [hs, Nat.one_mul, nearestEven_exact _ _ (by positivity)]

theorem roundMag_le {a b m : Nat} (hb : 0 < b) (h : a ≤ units m * b) : roundMag a b ≤ m := by
  calc roundMag a b ≤ roundMag (units m) 1 := roundMag_mono hb Nat.one_pos (by simpa using h)
    _ = m := roundMag_units m

theorem le_roundMag {a b m : Nat} (hb : 0 < b) (h : units m * b ≤ a) : m ≤ roundMag a b := by
  calc m = roundMag (units m) 1 := (roundMag_units m).symm
    _ ≤ roundMag a b := roundMag_mono Nat.one_pos hb (by simpa using h)

theorem units_strictMono {m n : Nat} (h : m < n) : units m < units n := by
  by_contra hc
  have : roundMag (units n) 1 ≤ roundMag (units m) 1 := roundMag_mono Nat.one_pos Nat.one_pos (by omega)
  rw [roundMag_units, roundMag_units] at this
  omega

theorem units_le_iff {m n : Nat} : units m ≤ units n ↔ m ≤ n := by
  constructor
  · intro h; by_contra hc; exact absurd (units_strictMono (Nat.lt_of_not_le hc)) (by omega)
  · intro h; rcases Nat.eq_or_lt_of_le h with rfl | h
    · exact Nat.le_refl _
    · exact (units_strictMono h).le

end F32
end Sys2Proof
end

