-- ==== Sys2Proof/Laws/Arith.lean ====
section
/-! SUPPORT. Binary32 arithmetic through exact values (R9, R17): `val` is a datum in units of 2^-149; comparisons are
comparisons of values, and an operation's result lies in every interval with representable ends that holds the exact
result (`add_between` and its companions). -/

namespace Sys2Proof
namespace F32

/-- A finite datum as a signed number of units of 2^-149; 0 for the others. -/
def val : F32 → Int
  | .fin s m => signedUnits s m.val
  | _ => 0

theorem fin_of_isFinite {x : F32} (h : x.isFinite = true) : ∃ s m, x = .fin s m := by
  rcases x with _ | s | ⟨s, m⟩
  · cases h
  · cases h
  · exact ⟨s, m, rfl⟩

@[simp] theorem isFinite_fin (s : Bool) (m : Fin 0x7F800000) : (F32.fin s m).isFinite = true := rfl

theorem val_fin (s : Bool) (m : Fin 0x7F800000) : (F32.fin s m).val = signedUnits s m.val := rfl

@[simp] theorem val_fin_false (m : Fin 0x7F800000) : (F32.fin false m).val = (units m.val : Int) := by
  simp only [val, signedUnits, Bool.false_eq_true, if_false]

@[simp] theorem val_fin_true (m : Fin 0x7F800000) : (F32.fin true m).val = -(units m.val : Int) := by
  simp only [val, signedUnits, if_true]

@[simp] theorem neg_neg (x : F32) : x.neg.neg = x := by
  rcases x with _ | s | ⟨s, m⟩ <;> simp [neg]

@[simp] theorem isFinite_neg (x : F32) : x.neg.isFinite = x.isFinite := by rcases x with _ | s | ⟨s, m⟩ <;> rfl

@[simp] theorem isNaN_neg (x : F32) : x.neg.isNaN = x.isNaN := by rcases x with _ | s | ⟨s, m⟩ <;> rfl

@[simp] theorem val_neg (x : F32) : x.neg.val = -x.val := by
  rcases x with _ | s | ⟨s, m⟩
  · rfl
  · rfl
  · cases s <;> simp [neg]

@[simp] theorem val_zero : zero.val = 0 := by decide

theorem val_one : one.val = (unitsPerOne : Int) := by decide +kernel

theorem units_zero : units 0 = 0 := by decide

theorem units_eq_zero {m : Nat} : units m = 0 ↔ m = 0 := by
  constructor
  · intro h
    by_contra hm
    have := units_strictMono (Nat.pos_of_ne_zero hm)
    omega
  · rintro rfl; exact units_zero

/-- On finite data the order is that of the values. -/
theorem le_iff {x y : F32} (hx : x.isFinite = true) (hy : y.isFinite = true) : x.le y = true ↔ x.val ≤ y.val := by
  obtain ⟨s, m, rfl⟩ := fin_of_isFinite hx
  obtain ⟨t, n, rfl⟩ := fin_of_isFinite hy
  have h1 := units_le_iff (m := m.val) (n := n.val)
  have h2 := units_le_iff (m := n.val) (n := m.val)
  have h3 := units_eq_zero (m := m.val)
  have h4 := units_eq_zero (m := n.val)
  cases s <;> cases t <;> simp [le, key] <;> omega

theorem lt_iff {x y : F32} (hx : x.isFinite = true) (hy : y.isFinite = true) : x.lt y = true ↔ x.val < y.val := by
  have h := le_iff hy hx
  obtain ⟨s, m, rfl⟩ := fin_of_isFinite hx
  obtain ⟨t, n, rfl⟩ := fin_of_isFinite hy
  simp only [le, lt, key, decide_eq_true_eq] at *
  omega

theorem lt_eq_not_le {x y : F32} (hx : x.isNaN = false) (hy : y.isNaN = false) : x.lt y = !y.le x := by
  rcases x with _ | s | ⟨s, m⟩ <;> rcases y with _ | t | ⟨t, n⟩ <;>
    first
    | cases hx; done
    | cases hy; done
    | simp only [lt, le, key, ← decide_not, not_le]

theorem le_trans {x y z : F32} (h1 : x.le y = true) (h2 : y.le z = true) : x.le z = true := by
  rcases x with _ | s | ⟨s, m⟩ <;> rcases y with _ | t | ⟨t, n⟩ <;> rcases z with _ | u | ⟨u, k⟩ <;>
    simp_all only [le, key, decide_eq_true_eq, Bool.false_eq_true] <;> omega

theorem le_refl {x : F32} (h : x.isNaN = false) : x.le x = true := by
  rcases x with _ | s | ⟨s, m⟩ <;> simp_all [le, key, isNaN]

theorem le_total {x y : F32} (hx : x.isNaN = false) (hy : y.isNaN = false) : x.le y = true ∨ y.le x = true := by
  rcases x with _ | s | ⟨s, m⟩ <;> rcases y with _ | t | ⟨t, n⟩ <;>
    simp_all only [le, key, decide_eq_true_eq, isNaN, Bool.true_eq_false] <;> omega

/-- Between two finite data there are only finite ones. -/
theorem isFinite_of_le_of_le {lo hi x : F32} (hlo : lo.isFinite = true) (hhi : hi.isFinite = true)
    (h1 : lo.le x = true) (h2 : x.le hi = true) : x.isFinite = true := by
  obtain ⟨s, m, rfl⟩ := fin_of_isFinite hlo
  obtain ⟨t, n, rfl⟩ := fin_of_isFinite hhi
  rcases x with _ | u | ⟨u, k⟩
  · cases h1
  · simp only [le, key, decide_eq_true_eq] at h1 h2
    have := m.isLt
    have := n.isLt
    cases u <;> cases s <;> cases t <;> simp_all <;> omega
  · rfl

/-! Rounding. -/

/-- A signed exact value `±a/b`. -/
def exact (s : Bool) (a : Nat) : Int := if s then -(a : Int) else (a : Int)

theorem ofMag_of_lt {s : Bool} {m : Nat} (h : m < 0x7F800000) : ofMag s m = .fin s ⟨m, h⟩ := by simp [ofMag, h]

/-- An exact value between two finite data is rounded to a finite datum between them. -/
theorem round_between {s : Bool} {a b : Nat} {lo hi : F32} (hb : 0 < b) (hlo : lo.isFinite = true)
    (hhi : hi.isFinite = true) (h1 : lo.val * b ≤ exact s a) (h2 : exact s a ≤ hi.val * b) :
    ∃ m, round s a b = .fin s m ∧ lo.val ≤ (F32.fin s m).val ∧ (F32.fin s m).val ≤ hi.val := by
  obtain ⟨u, n, rfl⟩ := fin_of_isFinite hlo
  obtain ⟨t, k, rfl⟩ := fin_of_isFinite hhi
  have hb' : (0 : Int) < b := by exact_mod_cast hb
  have key : ∀ c : Fin 0x7F800000, a ≤ units c.val * b →
      roundMag a b ≤ c.val ∧ units (roundMag a b) ≤ units c.val := fun c h =>
    ⟨roundMag_le hb h, units_le_iff.2 (roundMag_le hb h)⟩
  have low : ∀ c : Fin 0x7F800000, units c.val * b ≤ a → units c.val ≤ units (roundMag a b) := fun c h =>
    units_le_iff.2 (le_roundMag hb h)
  cases s
  · simp only [exact, Bool.false_eq_true, if_false] at h1 h2
    have hk : a ≤ units k.val * b := by
      cases t <;> simp only [val_fin_false, val_fin_true] at h2
      · exact_mod_cast h2
      · have : (0:Int) ≤ units k.val * b := by positivity
        have : (a : Int) ≤ 0 := by nlinarith
        have : a = 0 := by omega
        omega
    obtain ⟨r1, r2⟩ := key k hk
    have hlt : roundMag a b < 0x7F800000 := Nat.lt_of_le_of_lt r1 k.isLt
    refine ⟨⟨roundMag a b, hlt⟩, ofMag_of_lt hlt, ?_, ?_⟩
    · cases u <;> simp only [val_fin_false, val_fin_true] at *
      · exact_mod_cast low n (by exact_mod_cast h1)
      · omega
    · cases t <;> simp only [val_fin_false, val_fin_true] at *
      · exact_mod_cast r2
      · have : (0:Int) ≤ units k.val * b := by positivity
        have ha : (a : Int) = 0 := by nlinarith
        have ha : a = 0 := by omega
        have hu : (units k.val : Int) * b = 0 := by nlinarith
        have hu : units k.val = 0 := by
          rcases mul_eq_zero.1 hu with h | h <;> omega
        have : roundMag a b ≤ 0 := roundMag_le hb (by omega)
        have : roundMag a b = 0 := by omega
        rw [this, units_zero]; omega
  · simp only [exact, if_true] at h1 h2
    have hk : a ≤ units n.val * b := by
      cases u <;> simp only [val_fin_false, val_fin_true] at h1
      · have : (0:Int) ≤ units n.val * b := by positivity
        have : a = 0 := by omega
        omega
      · have : (a:Int) ≤ units n.val * b := by nlinarith
        exact_mod_cast this
    obtain ⟨r1, r2⟩ := key n hk
    have hlt : roundMag a b < 0x7F800000 := Nat.lt_of_le_of_lt r1 n.isLt
    refine ⟨⟨roundMag a b, hlt⟩, ofMag_of_lt hlt, ?_, ?_⟩
    · cases u <;> simp only [val_fin_false, val_fin_true] at *
      · have : (0:Int) ≤ units n.val * b := by positivity
        have ha : a = 0 := by omega
        have hu : (units n.val : Int) * b = 0 := by omega
        have hu : units n.val = 0 := by
          rcases mul_eq_zero.1 hu with h | h <;> omega
        have : roundMag a b ≤ 0 := roundMag_le hb (by omega)
        have : roundMag a b = 0 := by omega
        rw [this, units_zero]; omega
      · have : (units (roundMag a b) : Int) ≤ units n.val := by exact_mod_cast r2
        omega
    · cases t <;> simp only [val_fin_false, val_fin_true] at *
      · omega
      · have : units k.val * b ≤ a := by
          have : (units k.val : Int) * b ≤ a := by nlinarith
          exact_mod_cast this
        have : (units k.val : Int) ≤ units (roundMag a b) := by exact_mod_cast low k this
        omega

theorem exact_natAbs (z : Int) : exact (decide (z < 0)) z.natAbs = z := by
  unfold exact; split <;> rename_i h <;> simp at h <;> omega

/-- The sum of two finite data, when it lies between two finite data. -/
theorem add_between {x y lo hi : F32} (hx : x.isFinite = true) (hy : y.isFinite = true) (hlo : lo.isFinite = true)
    (hhi : hi.isFinite = true) (h1 : lo.val ≤ x.val + y.val) (h2 : x.val + y.val ≤ hi.val) :
    (x.add y).isFinite = true ∧ lo.val ≤ (x.add y).val ∧ (x.add y).val ≤ hi.val := by
  obtain ⟨s, m, rfl⟩ := fin_of_isFinite hx
  obtain ⟨t, n, rfl⟩ := fin_of_isFinite hy
  rw [val_fin, val_fin] at h1 h2
  simp only [add]
  split
  · rename_i hz
    rw [hz] at h1 h2
    refine ⟨rfl, ?_, ?_⟩ <;> cases s <;> cases t <;> simp [units_zero] <;> assumption
  · obtain ⟨r, e, l1, l2⟩ := round_between (s := decide (signedUnits s m.val + signedUnits t n.val < 0))
      (a := (signedUnits s m.val + signedUnits t n.val).natAbs) (b := 1) Nat.one_pos hlo hhi
      (by rw [exact_natAbs]; simpa using h1) (by rw [exact_natAbs]; simpa using h2)
    rw [e]; exact ⟨rfl, l1, l2⟩

theorem sub_between {x y lo hi : F32} (hx : x.isFinite = true) (hy : y.isFinite = true) (hlo : lo.isFinite = true)
    (hhi : hi.isFinite = true) (h1 : lo.val ≤ x.val - y.val) (h2 : x.val - y.val ≤ hi.val) :
    (x.sub y).isFinite = true ∧ lo.val ≤ (x.sub y).val ∧ (x.sub y).val ≤ hi.val :=
  add_between hx (by rwa [isFinite_neg]) hlo hhi (by rw [val_neg]; omega) (by rw [val_neg]; omega)

theorem exact_mul (s t : Bool) (m n : Nat) :
    exact (s ^^ t) (units m * units n) = signedUnits s m * signedUnits t n := by
  cases s <;> cases t <;> simp [exact, signedUnits]

theorem unitsPerOne_pos : 0 < unitsPerOne := by decide

/-- The product of two finite data, when it lies between two finite data. -/
theorem mul_between {x y lo hi : F32} (hx : x.isFinite = true) (hy : y.isFinite = true) (hlo : lo.isFinite = true)
    (hhi : hi.isFinite = true) (h1 : lo.val * unitsPerOne ≤ x.val * y.val) (h2 : x.val * y.val ≤ hi.val * unitsPerOne) :
    (x.mul y).isFinite = true ∧ lo.val ≤ (x.mul y).val ∧ (x.mul y).val ≤ hi.val := by
  obtain ⟨s, m, rfl⟩ := fin_of_isFinite hx
  obtain ⟨t, n, rfl⟩ := fin_of_isFinite hy
  obtain ⟨r, e, l1, l2⟩ := round_between (s := s ^^ t) (a := units m.val * units n.val) unitsPerOne_pos hlo hhi
    (by rw [exact_mul]; exact h1) (by rw [exact_mul]; exact h2)
  simp only [mul, e]; exact ⟨rfl, l1, l2⟩

/-- The quotient of two finite data with a positive divisor, when it lies between two finite data. -/
theorem div_between {x y lo hi : F32} (hx : x.isFinite = true) (hy : y.isFinite = true) (hp : 0 < y.val)
    (hlo : lo.isFinite = true) (hhi : hi.isFinite = true) (h1 : lo.val * y.val ≤ x.val * unitsPerOne)
    (h2 : x.val * unitsPerOne ≤ hi.val * y.val) :
    (x.div y).isFinite = true ∧ lo.val ≤ (x.div y).val ∧ (x.div y).val ≤ hi.val := by
  obtain ⟨s, m, rfl⟩ := fin_of_isFinite hx
  obtain ⟨t, n, rfl⟩ := fin_of_isFinite hy
  have ht : t = false := by cases t <;> simp_all <;> omega
  subst ht
  simp only [val_fin_false] at hp h1 h2
  have hn : n.val ≠ 0 := by intro h; rw [h, units_zero] at hp; omega
  have ex : exact s (units m.val * unitsPerOne) = (F32.fin s m).val * unitsPerOne := by
    cases s <;> simp [exact]
  obtain ⟨r, e, l1, l2⟩ := round_between (s := s) (a := units m.val * unitsPerOne) (b := units n.val) (by omega) hlo hhi
    (by rw [ex]; exact h1) (by rw [ex]; exact h2)
  simp only [div, hn, if_false, Bool.xor_false, e]; exact ⟨rfl, l1, l2⟩

/-! Square root. -/

theorem isqrtFrom_spec (n k r : Nat) (h1 : r * r ≤ n) (h2 : n < (r + 2 ^ k) * (r + 2 ^ k)) :
    isqrtFrom n k r * isqrtFrom n k r ≤ n ∧ n < (isqrtFrom n k r + 1) * (isqrtFrom n k r + 1) := by
  induction k generalizing r with
  | zero => exact ⟨h1, by simpa [isqrtFrom] using h2⟩
  | succ k ih =>
    unfold isqrtFrom
    split
    · rename_i h
      refine ih _ h ?_
      have : r + 2 ^ k + 2 ^ k = r + 2 ^ (k + 1) := by rw [pow_succ]; omega
      rw [this]; exact h2
    · rename_i h
      exact ih _ h1 (by omega)

theorem units_lt (m : Fin 0x7F800000) : units m.val < 2 ^ 277 := by
  calc units m.val ≤ units 0x7F7FFFFF := units_le_iff.2 (by have := m.isLt; omega)
    _ < 2 ^ 277 := by decide +kernel

theorem isqrt_spec (m : Fin 0x7F800000) :
    isqrt (units m.val * unitsPerOne) * isqrt (units m.val * unitsPerOne) ≤ units m.val * unitsPerOne ∧
    units m.val * unitsPerOne < (isqrt (units m.val * unitsPerOne) + 1) * (isqrt (units m.val * unitsPerOne) + 1) := by
  refine isqrtFrom_spec _ _ _ (Nat.zero_le _) ?_
  have h := units_lt m
  calc units m.val * unitsPerOne < 2 ^ 277 * unitsPerOne := Nat.mul_lt_mul_of_pos_right h unitsPerOne_pos
    _ ≤ (0 + 2 ^ 214) * (0 + 2 ^ 214) := by decide +kernel

/-- The square root of a finite datum that is not negative, when it lies between two finite data. -/
theorem sqrt_between {x lo hi : F32} (hx : x.isFinite = true) (h0 : 0 ≤ x.val) (hlo : lo.isFinite = true)
    (hhi : hi.isFinite = true) (hl : 0 ≤ lo.val) (hh : 0 ≤ hi.val) (h1 : lo.val * lo.val ≤ x.val * unitsPerOne)
    (h2 : x.val * unitsPerOne ≤ hi.val * hi.val) :
    x.sqrt.isFinite = true ∧ lo.val ≤ x.sqrt.val ∧ x.sqrt.val ≤ hi.val := by
  obtain ⟨s, m, rfl⟩ := fin_of_isFinite hx
  simp only [sqrt]
  by_cases hm : m.val = 0
  · have hv : (F32.fin s m).val = 0 := by cases s <;> simp [hm, units_zero]
    rw [hv] at h1 h2
    simp only [hm, if_true, isFinite_fin, hv, true_and]
    exact ⟨by nlinarith, hh⟩
  · have hu : units m.val ≠ 0 := fun h => hm (units_eq_zero.1 h)
    have hs : s = false := by cases s <;> simp_all
    subst hs
    simp only [hm, if_false, Bool.false_eq_true]
    have hspec := isqrt_spec m
    simp only [val_fin_false] at h1 h2
    rw [← Int.natCast_mul] at h1 h2
    generalize units m.val * unitsPerOne = n at *
    generalize isqrt n = q at *
    obtain ⟨q1, q2⟩ := hspec
    obtain ⟨l, hl'⟩ := Int.eq_ofNat_of_zero_le hl
    obtain ⟨h, hh'⟩ := Int.eq_ofNat_of_zero_le hh
    rw [hl'] at h1
    rw [hh'] at h2
    have h1 : l * l ≤ n := by exact_mod_cast h1
    have h2 : n ≤ h * h := by exact_mod_cast h2
    have hlq : l ≤ q := by nlinarith
    have hqh : q ≤ h := by nlinarith
    have hqh' : q * q ≠ n → q < h := by
      intro hne; by_contra hc; have : q = h := by omega
      subst this; exact hne (Nat.le_antisymm q1 h2)
    obtain ⟨r, e, l1, l2⟩ := round_between (s := false) (a := 2 * q + if q * q = n then 0 else 1)
      (b := 2) (by decide) hlo hhi (by rw [hl']; simp only [exact, Bool.false_eq_true, if_false]; split <;> push_cast <;> omega)
      (by
        rw [hh']; simp only [exact, Bool.false_eq_true, if_false]
        by_cases he : q * q = n
        · rw [if_pos he]; push_cast; omega
        · have := hqh' he
          rw [if_neg he]; push_cast; omega)
    rw [e]; exact ⟨rfl, l1, l2⟩

open Machine (within inUnit)

/-! How far rounding moves a value. -/

theorem roundMag_near (a b : Nat) (hb : 0 < b) :
    2 ^ 24 * (units (roundMag a b) * b) ≤ (2 ^ 24 + 1) * a + 2 ^ 23 * b ∧
    (2 ^ 24 - 1) * a ≤ 2 ^ 24 * (units (roundMag a b) * b) + 2 ^ 23 * b := by
  obtain ⟨h1, h2⟩ := significand_bounds a b hb
  obtain ⟨n1, n2, -, -⟩ := nearestEven_near a (b * 2 ^ stepOf a b) (Nat.mul_pos hb (by positivity))
  have hu : units (roundMag a b) = nearestEven a (b * 2 ^ stepOf a b) * 2 ^ stepOf a b := units_step _ _ h1 h2
  have hk : stepOf a b ≠ 0 → 2 ^ 23 * (b * 2 ^ stepOf a b) ≤ a := by
    intro h
    have := le_stepOf a b h
    rw [Nat.le_div_iff_mul_le hb] at this
    calc 2 ^ 23 * (b * 2 ^ stepOf a b) = 2 ^ (stepOf a b + 23) * b := by rw [pow_add]; ring
      _ ≤ a := this
  have e : units (roundMag a b) * b = nearestEven a (b * 2 ^ stepOf a b) * (b * 2 ^ stepOf a b) := by rw [hu]; ring
  rw [e]
  generalize nearestEven a (b * 2 ^ stepOf a b) * (b * 2 ^ stepOf a b) = x at *
  by_cases h0 : stepOf a b = 0
  · rw [h0, pow_zero, Nat.mul_one] at n1 n2
    omega
  · have := hk h0
    omega

/-- An integral number of units is rounded by less than one part in 2^24. -/
theorem roundMag_near_int (a : Nat) :
    2 ^ 24 * units (roundMag a 1) ≤ (2 ^ 24 + 1) * a ∧ (2 ^ 24 - 1) * a ≤ 2 ^ 24 * units (roundMag a 1) := by
  have h := roundMag_near a 1 Nat.one_pos
  obtain ⟨h1, h2⟩ := significand_bounds a 1 Nat.one_pos
  by_cases h0 : stepOf a 1 = 0
  · have : units (roundMag a 1) = a := by
      unfold roundMag
      rw [units_step _ _ h1 h2, h0]
      simp only [pow_zero, Nat.mul_one]
      simpa using nearestEven_exact a 1 Nat.one_pos
    rw [this]; omega
  · obtain ⟨n1, n2, -, -⟩ := nearestEven_near a (1 * 2 ^ stepOf a 1) (Nat.mul_pos Nat.one_pos (by positivity))
    have hu : units (roundMag a 1) = nearestEven a (1 * 2 ^ stepOf a 1) * (1 * 2 ^ stepOf a 1) := by
      calc units (roundMag a 1) = nearestEven a (1 * 2 ^ stepOf a 1) * 2 ^ stepOf a 1 := units_step _ _ h1 h2
        _ = _ := by rw [Nat.one_mul]
    have := le_stepOf a 1 h0
    rw [Nat.div_one, pow_add] at this
    rw [hu]
    generalize nearestEven a (1 * 2 ^ stepOf a 1) * (1 * 2 ^ stepOf a 1) = x at *
    omega

theorem roundMag_le_double (a b : Nat) (hb : 0 < b) : units (roundMag a b) * b ≤ 2 * a := by
  obtain ⟨h1, h2⟩ := significand_bounds a b hb
  obtain ⟨n1, -, -, -⟩ := nearestEven_near a (b * 2 ^ stepOf a b) (Nat.mul_pos hb (by positivity))
  have hu : units (roundMag a b) = nearestEven a (b * 2 ^ stepOf a b) * 2 ^ stepOf a b := units_step _ _ h1 h2
  have e : units (roundMag a b) * b = nearestEven a (b * 2 ^ stepOf a b) * (b * 2 ^ stepOf a b) := by rw [hu]; ring
  rw [e]
  generalize b * 2 ^ stepOf a b = d at *
  generalize nearestEven a d = x at *
  rcases Nat.eq_zero_or_pos x with rfl | hx
  · simp
  · nlinarith

/-! Ranges. -/

theorem within_iff {lo hi x : F32} (hlo : lo.isFinite = true) (hhi : hi.isFinite = true) :
    within lo hi x = true ↔ x.isFinite = true ∧ lo.val ≤ x.val ∧ x.val ≤ hi.val := by
  constructor
  · intro h
    rw [within, Bool.and_eq_true] at h
    have hx := isFinite_of_le_of_le hlo hhi h.1 h.2
    exact ⟨hx, (le_iff hlo hx).1 h.1, (le_iff hx hhi).1 h.2⟩
  · rintro ⟨hx, h1, h2⟩
    rw [within, Bool.and_eq_true]
    exact ⟨(le_iff hlo hx).2 h1, (le_iff hx hhi).2 h2⟩

theorem inUnit_iff {x : F32} : inUnit x = true ↔ x.isFinite = true ∧ 0 ≤ x.val ∧ x.val ≤ unitsPerOne := by
  rw [inUnit, within_iff rfl rfl, val_zero, val_one]

/-- In [-1, 1]. -/
theorem within_one_iff {x : F32} :
    within one.neg one x = true ↔ x.isFinite = true ∧ -(unitsPerOne : Int) ≤ x.val ∧ x.val ≤ unitsPerOne := by
  rw [within_iff rfl rfl, val_neg, val_one]

theorem abs_le_iff {x c : F32} (hc : c.isFinite = true) :
    x.abs.le c = true ↔ x.isFinite = true ∧ -c.val ≤ x.val ∧ x.val ≤ c.val := by
  have hv : ∀ s m, (F32.fin s m).abs.val = (units m.val : Int) := fun s m => by simp [abs]
  obtain ⟨t, n, rfl⟩ := fin_of_isFinite hc
  rcases x with _ | s | ⟨s, m⟩
  · simp [abs, le, key, isFinite]
  · have := n.isLt
    cases t <;> simp [abs, le, key, isFinite] <;> omega
  · rw [le_iff (by rfl) rfl, hv]
    cases s <;> simp only [isFinite_fin, true_and, val_fin_false, val_fin_true] <;> constructor <;> intro h <;>
      (try constructor) <;> omega

theorem not_isNaN_of_isFinite {x : F32} (h : x.isFinite = true) : x.isNaN = false := isNaN_of_isFinite x h

/-! `min`, `max`, `clamp`. -/

theorem min_eq {x y : F32} (hx : x.isNaN = false) (hy : y.isNaN = false) :
    (x.min y = x ∧ x.le y = true) ∨ (x.min y = y ∧ y.le x = true) := by
  unfold min
  simp only [hx, hy, Bool.or_self, Bool.false_eq_true, if_false]
  have hxy := lt_eq_not_le hx hy
  have hyx := lt_eq_not_le hy hx
  have ht := le_total hx hy
  cases h1 : x.lt y <;> cases h2 : y.lt x <;> rw [h1] at hxy <;> rw [h2] at hyx <;> simp_all
  split
  · rename_i e; subst e; simp
  · cases Config.minPicksFirst x y <;> simp

theorem max_eq {x y : F32} (hx : x.isNaN = false) (hy : y.isNaN = false) :
    (x.max y = x ∧ y.le x = true) ∨ (x.max y = y ∧ x.le y = true) := by
  unfold max
  simp only [hx, hy, Bool.or_self, Bool.false_eq_true, if_false]
  have hxy := lt_eq_not_le hx hy
  have hyx := lt_eq_not_le hy hx
  have ht := le_total hx hy
  cases h1 : x.lt y <;> cases h2 : y.lt x <;> rw [h1] at hxy <;> rw [h2] at hyx <;> simp_all
  split
  · rename_i e; subst e; simp
  · cases Config.maxPicksFirst x y <;> simp

theorem not_isNaN_of_le {x y : F32} (h : x.le y = true) : x.isNaN = false ∧ y.isNaN = false := isNaN_of_le x y h

/-- `clamp` puts every number in its range. -/
theorem clamp_within {x lo hi : F32} (hx : x.isNaN = false) (h : lo.le hi = true) : within lo hi (x.clamp lo hi) = true := by
  obtain ⟨hl, hh⟩ := not_isNaN_of_le h
  unfold clamp
  have hm : (x.max lo).isNaN = false ∧ lo.le (x.max lo) = true := by
    rcases max_eq hx hl with ⟨e, h1⟩ | ⟨e, -⟩ <;> rw [e]
    · exact ⟨hx, h1⟩
    · exact ⟨hl, le_refl hl⟩
  rw [within, Bool.and_eq_true]
  rcases min_eq hm.1 hh with ⟨e, h1⟩ | ⟨e, h1⟩ <;> rw [e]
  · exact ⟨hm.2, h1⟩
  · exact ⟨h, le_refl hh⟩

/-- `clamp` leaves what is strictly inside its range. -/
theorem clamp_id {x lo hi : F32} (h1 : lo.lt x = true) (h2 : x.lt hi = true) : x.clamp lo hi = x := by
  have nn : ∀ {a b : F32}, a.lt b = true → a.isNaN = false ∧ b.isNaN = false := by
    intro a b h
    rcases a with _ | s | ⟨s, m⟩ <;> rcases b with _ | t | ⟨t, n⟩ <;> first | cases h | exact ⟨rfl, rfl⟩
  obtain ⟨n1, n2⟩ := nn h1
  obtain ⟨-, n3⟩ := nn h2
  rw [lt_eq_not_le n1 n2, Bool.not_eq_true'] at h1
  rw [lt_eq_not_le n2 n3, Bool.not_eq_true'] at h2
  unfold clamp
  rcases max_eq n2 n1 with ⟨e, -⟩ | ⟨e, h⟩
  · rw [e]
    rcases min_eq n2 n3 with ⟨e, -⟩ | ⟨-, h⟩
    · exact e
    · rw [h] at h2; cases h2
  · rw [h] at h1; cases h1

/-! Arithmetic in and near [0, 1]. -/

/-- The largest finite datum. -/
def largest : F32 := .fin false ⟨0x7F7FFFFF, by decide⟩

theorem val_le_largest {x : F32} (h : x.isFinite = true) : -largest.val ≤ x.val ∧ x.val ≤ largest.val := by
  obtain ⟨s, m, rfl⟩ := fin_of_isFinite h
  have h1 : units m.val ≤ units 0x7F7FFFFF := units_le_iff.2 (by have := m.isLt; omega)
  have h2 : (units m.val : Int) ≤ units 0x7F7FFFFF := by exact_mod_cast h1
  have h3 : (0 : Int) ≤ units 0x7F7FFFFF := by positivity
  have h4 : (0 : Int) ≤ units m.val := by positivity
  cases s <;> simp only [largest, val_fin_false, val_fin_true] <;> omega

theorem roundMag_past_largest {a : Nat} (h : a ≤ units 0x7F7FFFFF + unitsPerOne) : roundMag a 1 < 0x7F800000 := by
  calc roundMag a 1 ≤ roundMag (units 0x7F7FFFFF + unitsPerOne) 1 := roundMag_mono Nat.one_pos Nat.one_pos (by omega)
    _ < 0x7F800000 := by decide +kernel

/-- Adding at most 1 in magnitude to a finite datum gives a finite one. -/
theorem add_finite_of_unit {x y : F32} (hx : x.isFinite = true) (hy : y.isFinite = true)
    (h1 : -(unitsPerOne : Int) ≤ x.val) (h2 : x.val ≤ unitsPerOne) : (x.add y).isFinite = true := by
  have hl := val_le_largest hy
  obtain ⟨s, m, rfl⟩ := fin_of_isFinite hx
  obtain ⟨t, n, rfl⟩ := fin_of_isFinite hy
  simp only [largest, val_fin_false] at hl
  rw [val_fin] at h1 h2 hl
  simp only [add]
  split
  · rfl
  · have : roundMag (signedUnits s m.val + signedUnits t n.val).natAbs 1 < 0x7F800000 := by
      apply roundMag_past_largest
      generalize units 0x7F7FFFFF = u at *
      omega
    rw [round, ofMag_of_lt this]; rfl

theorem add_swap (x y : F32) : x.add y = y.add x := by
  rcases x with _ | s | ⟨s, m⟩ <;> rcases y with _ | t | ⟨t, n⟩ <;> simp only [add]
  · by_cases h : s = t
    · subst h; rfl
    · rw [if_neg h, if_neg (Ne.symm h)]
  · rw [Int.add_comm, Bool.and_comm]

/-- A product with a factor of magnitude at most 1 is at most the other factor in magnitude. -/
theorem mul_unit {x y : F32} (hx : x.isFinite = true) (hy : y.isFinite = true)
    (h1 : -(unitsPerOne : Int) ≤ x.val) (h2 : x.val ≤ unitsPerOne) :
    (x.mul y).isFinite = true ∧ -(y.val.natAbs : Int) ≤ (x.mul y).val ∧ (x.mul y).val ≤ y.val.natAbs := by
  have ha : ∃ c : F32, c.isFinite = true ∧ c.val = y.val.natAbs := by
    obtain ⟨t, n, rfl⟩ := fin_of_isFinite hy
    exact ⟨.fin false n, rfl, by cases t <;> simp⟩
  obtain ⟨c, hc, hv⟩ := ha
  have hU : (0 : Int) < unitsPerOne := by exact_mod_cast unitsPerOne_pos
  have key : -(y.val.natAbs * unitsPerOne : Int) ≤ x.val * y.val ∧ x.val * y.val ≤ y.val.natAbs * unitsPerOne := by
    generalize (unitsPerOne : Int) = U at *
    generalize x.val = a at *
    rcases Int.natAbs_eq y.val with h | h
    · have hp : 0 ≤ y.val := by omega
      have hn : (y.val.natAbs : Int) = y.val := by omega
      rw [hn]
      constructor <;> nlinarith
    · have hp : y.val ≤ 0 := by omega
      have hn : (y.val.natAbs : Int) = -y.val := by omega
      rw [hn]
      constructor <;> nlinarith
  have := mul_between hx hy (lo := c.neg) (hi := c) (by simpa using hc) hc
    (by rw [val_neg, hv, Int.neg_mul]; exact key.1) (by rw [hv]; exact key.2)
  rw [val_neg, hv] at this
  exact this

theorem mul_swap (x y : F32) : x.mul y = y.mul x := by
  rcases x with _ | s | ⟨s, m⟩ <;> rcases y with _ | t | ⟨t, n⟩ <;> simp only [mul, Nat.mul_comm, Bool.xor_comm]

/-- The product of two data in [0, 1] is in [0, 1], and at most each. -/
theorem mul_inUnit {x y : F32} (hx : inUnit x = true) (hy : inUnit y = true) :
    inUnit (x.mul y) = true ∧ (x.mul y).val ≤ y.val := by
  rw [inUnit_iff] at *
  obtain ⟨fx, x0, x1⟩ := hx
  obtain ⟨fy, y0, y1⟩ := hy
  have hU : (0 : Int) < unitsPerOne := by exact_mod_cast unitsPerOne_pos
  generalize hUe : (unitsPerOne : Int) = U at *
  obtain ⟨h1, h2, h3⟩ := mul_between fx fy (lo := zero) (hi := y) rfl fy
    (by rw [val_zero, hUe]; nlinarith [mul_nonneg x0 y0]) (by rw [hUe]; nlinarith)
  rw [val_zero] at h2
  exact ⟨⟨h1, h2, by omega⟩, h3⟩

/-- `val` of a sum of two finite data with a non-negative, finite sum, within one part in 2^24. -/
theorem add_near {x y : F32} (hx : x.isFinite = true) (hy : y.isFinite = true) (h : 0 ≤ x.val + y.val)
    (hf : (x.add y).isFinite = true) :
    2 ^ 24 * (x.add y).val ≤ (2 ^ 24 + 1) * (x.val + y.val) ∧ (2 ^ 24 - 1) * (x.val + y.val) ≤ 2 ^ 24 * (x.add y).val := by
  obtain ⟨s, m, rfl⟩ := fin_of_isFinite hx
  obtain ⟨t, n, rfl⟩ := fin_of_isFinite hy
  rw [val_fin, val_fin] at *
  simp only [add] at *
  split
  · rename_i hz; rw [hz]; cases s <;> cases t <;> simp [units_zero]
  · rename_i hz
    rw [if_neg hz] at hf
    have hneg : decide (signedUnits s m.val + signedUnits t n.val < 0) = false := by simp; omega
    rw [hneg] at hf ⊢
    obtain ⟨a, ha⟩ := Int.eq_ofNat_of_zero_le h
    rw [ha] at hf ⊢
    rw [Int.natAbs_natCast] at hf ⊢
    have hr := roundMag_near_int a
    have hlt : roundMag a 1 < 0x7F800000 := by
      by_contra hc
      rw [round, ofMag, dif_neg hc] at hf
      cases hf
    rw [round, ofMag_of_lt hlt, val_fin_false]
    have h1 : (2 ^ 24 * units (roundMag a 1) : Int) ≤ (2 ^ 24 + 1) * a := by exact_mod_cast hr.1
    have h2 : ((2 ^ 24 - 1) * a : Int) ≤ 2 ^ 24 * units (roundMag a 1) := by
      have := hr.2
      norm_num at this ⊢
      exact_mod_cast this
    exact ⟨h1, h2⟩

end F32
end Sys2Proof
end

