-- ==== Sys2Proof/Laws/Control.lean ====
section
/-! SUPPORT. What the control operators do with values (R17, R180, R183, R402, R403): smoothing, accumulation, `floor`,
`wrap01`, and one step of each fade, in units of 2^-149. -/

namespace Sys2Proof
namespace F32
open Machine (within inUnit fadeOutVolume fadeInVolume)

theorem isNaN_of_within {lo hi x : F32} (h : within lo hi x = true) : x.isNaN = false := by
  rw [within, Bool.and_eq_true] at h; exact (not_isNaN_of_le h.1).2

theorem finite_of_inUnit {x : F32} (h : inUnit x = true) : x.isFinite = true := (inUnit_iff.1 h).1

theorem signed_product (s t : Bool) (r a b U : Nat) (h : r * U ≤ 2 * (a * b)) (hz : a * b = 0 → r = 0) :
    (if (s ^^ t) = true then -(r : Int) else (r : Int)).natAbs * U ≤
      2 * ((if s = true then -(a : Int) else (a : Int)).natAbs * (if t = true then -(b : Int) else (b : Int)).natAbs) ∧
    ((0 ≤ (if s = true then -(a : Int) else (a : Int)) * if t = true then -(b : Int) else (b : Int)) →
      0 ≤ if (s ^^ t) = true then -(r : Int) else (r : Int)) ∧
    (((if s = true then -(a : Int) else (a : Int)) * if t = true then -(b : Int) else (b : Int)) ≤ 0 →
      (if (s ^^ t) = true then -(r : Int) else (r : Int)) ≤ 0) := by
  have hm : (0 : Int) ≤ (a : Int) * b := by positivity
  have hz' : (a : Int) * b ≤ 0 → r = 0 := by
    intro e; exact hz (by exact_mod_cast Int.le_antisymm e hm)
  cases s <;> cases t <;> simp <;> exact ⟨h, hz'⟩

/-- A product whose exact value is small: rounding at most doubles it. -/
theorem mul_le_double {x y : F32} (hx : x.isFinite = true) (hy : y.isFinite = true) (hf : (x.mul y).isFinite = true) :
    (x.mul y).val.natAbs * unitsPerOne ≤ 2 * (x.val.natAbs * y.val.natAbs) ∧
    (0 ≤ x.val * y.val → 0 ≤ (x.mul y).val) ∧ (x.val * y.val ≤ 0 → (x.mul y).val ≤ 0) := by
  obtain ⟨s, m, rfl⟩ := fin_of_isFinite hx
  obtain ⟨t, n, rfl⟩ := fin_of_isFinite hy
  have h := roundMag_le_double (units m.val * units n.val) unitsPerOne unitsPerOne_pos
  have hlt : roundMag (units m.val * units n.val) unitsPerOne < 0x7F800000 := by
    by_contra hc
    rw [mul, round, ofMag, dif_neg hc] at hf
    cases hf
  have hz : units m.val * units n.val = 0 → units (roundMag (units m.val * units n.val) unitsPerOne) = 0 := by
    intro e
    rw [e] at h ⊢
    exact (Nat.mul_eq_zero.1 (Nat.le_zero.1 h)).resolve_right (Nat.pos_iff_ne_zero.1 unitsPerOne_pos)
  simp only [mul, round, ofMag_of_lt hlt, val_fin, signedUnits]
  generalize units (roundMag (units m.val * units n.val) unitsPerOne) = r at *
  generalize units m.val = a at *
  generalize units n.val = b at *
  exact signed_product s t r a b unitsPerOne h hz

theorem round_val (z : Int) (hlt : roundMag z.natAbs 1 < 0x7F800000) :
    (round (decide (z < 0)) z.natAbs 1).val = if z < 0 then -(units (roundMag z.natAbs 1) : Int) else (units (roundMag z.natAbs 1) : Int) := by
  rw [round, ofMag_of_lt hlt, val_fin, signedUnits]
  simp only [decide_eq_true_eq]

/-- Rounding a sum at most doubles it, and keeps its sign. -/
theorem add_le_double {x y : F32} (hx : x.isFinite = true) (hy : y.isFinite = true) (hf : (x.add y).isFinite = true) :
    (x.add y).val.natAbs ≤ 2 * (x.val + y.val).natAbs ∧
    (0 ≤ x.val + y.val → 0 ≤ (x.add y).val) ∧ (x.val + y.val ≤ 0 → (x.add y).val ≤ 0) := by
  obtain ⟨s, m, rfl⟩ := fin_of_isFinite hx
  obtain ⟨t, n, rfl⟩ := fin_of_isFinite hy
  rw [val_fin, val_fin]
  simp only [add] at hf ⊢
  generalize signedUnits s m.val + signedUnits t n.val = z at hf ⊢
  by_cases hz : z = 0
  · rw [if_pos hz, hz, val_fin, signedUnits, units_zero]; simp
  · rw [if_neg hz] at hf ⊢
    have h := roundMag_le_double z.natAbs 1 Nat.one_pos
    have hlt : roundMag z.natAbs 1 < 0x7F800000 := by
      by_contra hc
      rw [round, ofMag, dif_neg hc] at hf
      cases hf
    rw [round_val z hlt]
    generalize units (roundMag z.natAbs 1) = r at *
    clear hf hlt
    split <;> omega

theorem sub_le_double {x y : F32} (hx : x.isFinite = true) (hy : y.isFinite = true) (hf : (x.sub y).isFinite = true) :
    (x.sub y).val.natAbs ≤ 2 * (x.val - y.val).natAbs ∧
    (0 ≤ x.val - y.val → 0 ≤ (x.sub y).val) ∧ (x.val - y.val ≤ 0 → (x.sub y).val ≤ 0) := by
  have h := add_le_double hx (y := y.neg) (by rwa [isFinite_neg]) hf
  rw [val_neg, ← Int.sub_eq_add_neg] at h
  exact h

/-- A smoother of coefficient at most 1/4 stays between two bounds that the state and the target lie between (R180). `D` is
any finite datum as large as their distance. -/
theorem smoothed_within {y t c lo hi D : F32} (hlo : lo.isFinite = true) (hhi : hi.isFinite = true)
    (hD : D.isFinite = true) (hw : hi.val - lo.val ≤ D.val) (hy : within lo hi y = true) (ht : within lo hi t = true)
    (hc : c.isFinite = true) (h0 : 0 ≤ c.val) (h4 : 4 * c.val ≤ unitsPerOne) :
    within lo hi (smoothed y t c) = true := by
  rw [within_iff hlo hhi] at *
  obtain ⟨fy, y0, y1⟩ := hy
  obtain ⟨ft, t0, t1⟩ := ht
  have hU : (0 : Int) < unitsPerOne := by exact_mod_cast unitsPerOne_pos
  obtain ⟨fd, -, -⟩ := sub_between ft fy (lo := D.neg) (hi := D) (by rwa [isFinite_neg]) hD
    (by rw [val_neg]; omega) (by omega)
  obtain ⟨dd, ds, dn⟩ := sub_le_double ft fy fd
  unfold smoothed
  generalize t.sub y = d at *
  obtain ⟨fq, -, -⟩ := mul_unit hc fd (by omega) (by omega)
  obtain ⟨qd, qs, qn⟩ := mul_le_double hc fd fq
  generalize c.mul d = q at *
  have hq : q.val.natAbs ≤ (t.val - y.val).natAbs := by
    have h1 : c.val.natAbs * 4 ≤ unitsPerOne := by omega
    have h2 : q.val.natAbs * unitsPerOne ≤ (t.val - y.val).natAbs * unitsPerOne := by
      calc q.val.natAbs * unitsPerOne ≤ 2 * (c.val.natAbs * d.val.natAbs) := qd
        _ ≤ 2 * (c.val.natAbs * (2 * (t.val - y.val).natAbs)) :=
            Nat.mul_le_mul_left _ (Nat.mul_le_mul_left _ dd)
        _ = c.val.natAbs * 4 * (t.val - y.val).natAbs := by ring
        _ ≤ unitsPerOne * (t.val - y.val).natAbs := Nat.mul_le_mul_right _ h1
        _ = _ := Nat.mul_comm _ _
    exact Nat.le_of_mul_le_mul_right h2 unitsPerOne_pos
  have hsum : lo.val ≤ y.val + q.val ∧ y.val + q.val ≤ hi.val := by
    rcases Int.le_total 0 (t.val - y.val) with h | h
    · have := qs (mul_nonneg h0 (ds h)); omega
    · have := qn (mul_nonpos_of_nonneg_of_nonpos h0 (dn h)); omega
  exact add_between fy fq hlo hhi hsum.1 hsum.2

/-- A smoother of small coefficient stays in [0, 1] (R180). -/
theorem smoothed_inUnit {y t c : F32} (hy : inUnit y = true) (ht : inUnit t = true) (hc : c.isFinite = true)
    (h0 : 0 ≤ c.val) (h4 : 4 * c.val ≤ unitsPerOne) : inUnit (smoothed y t c) = true :=
  smoothed_within (D := one) rfl rfl rfl (by rw [val_zero]; omega) hy ht hc h0 h4

/-! Encoder accumulation. -/

/-- The binary32 datum of a 16-bit integer is finite (R12). -/
theorem ofInt_finite {k : Int} (h : k.natAbs ≤ 2 ^ 24) : (ofInt k).isFinite = true := by
  have : roundMag (k.natAbs * unitsPerOne) 1 < 0x7F800000 :=
    calc roundMag (k.natAbs * unitsPerOne) 1 ≤ roundMag (2 ^ 24 * unitsPerOne) 1 :=
          roundMag_mono Nat.one_pos Nat.one_pos (Nat.mul_le_mul_right _ (Nat.mul_le_mul_right _ h))
      _ < 0x7F800000 := by decide +kernel
  rw [ofInt, if_neg (by omega), round, ofMag_of_lt this]; rfl

theorem toInt_bound (e : BitVec 16) : e.toInt.natAbs ≤ 2 ^ 24 := by
  have h1 := BitVec.toInt_lt (x := e)
  have h2 := BitVec.le_toInt (x := e)
  omega

/-- An accumulator lands in its range (R183). -/
theorem accumulated_within {a lo hi : F32} (e : BitVec 16) (ha : inUnit a = true) (h : lo.le hi = true) :
    within lo hi (accumulated a encStep lo hi e) = true := by
  apply clamp_within _ h
  obtain ⟨fa, a0, a1⟩ := inUnit_iff.1 ha
  have he : encStep.isFinite = true ∧ 0 ≤ encStep.val ∧ encStep.val ≤ unitsPerOne := by decide +kernel
  obtain ⟨fm, -, -⟩ := mul_unit he.1 (ofInt_finite (toInt_bound e)) (by omega) he.2.2
  exact isNaN_of_isFinite _ (add_finite_of_unit fa fm (by omega) a1)

theorem within_trans {lo hi hi' x : F32} (h : within lo hi x = true) (h' : hi.le hi' = true) : within lo hi' x = true := by
  rw [within, Bool.and_eq_true] at *
  exact ⟨h.1, le_trans h.2 h'⟩

/-! Phases. -/

/-- Every multiple of 2^j up to 2^24 times it is a magnitude's value. -/
theorem exists_units (j : Nat) : ∀ q, q ≤ 2 ^ 24 → ∃ m, units m = q * 2 ^ j := by
  induction j with
  | zero =>
    intro q hq
    exact ⟨q, by have := units_step 0 q (Or.inl rfl) hq; simpa using this⟩
  | succ j ih =>
    intro q hq
    by_cases h : 2 ^ 23 ≤ q
    · exact ⟨(j + 1) * 2 ^ 23 + q, units_step (j + 1) q (Or.inr h) hq⟩
    · obtain ⟨m, hm⟩ := ih (2 * q) (by omega)
      exact ⟨m, by rw [hm, pow_succ]; ring⟩

/-- The whole units of 1.0 in a magnitude are a magnitude's value. -/
theorem exists_units_floor (m q : Nat) (h : q = units m / unitsPerOne ∨ q = (units m + (unitsPerOne - 1)) / unitsPerOne) :
    ∃ r, units r = q * unitsPerOne := by
  obtain ⟨k, n, rfl, h1, h2⟩ := mag_split m
  rw [units_step k n h1 (by omega)] at h
  by_cases hk : 149 ≤ k
  · refine ⟨k * 2 ^ 23 + n, ?_⟩
    rw [units_step k n h1 (by omega)]
    have e : n * 2 ^ k = n * 2 ^ (k - 149) * unitsPerOne := by
      have : 2 ^ k = 2 ^ (k - 149) * unitsPerOne := by rw [unitsPerOne, ← pow_add]; congr 1; omega
      rw [this, Nat.mul_assoc]
    have hq : q = n * 2 ^ (k - 149) := by
      rw [e] at h
      rcases h with h | h
      · rw [h, Nat.mul_div_cancel _ unitsPerOne_pos]
      · rw [h, Nat.add_comm, Nat.add_mul_div_right _ _ unitsPerOne_pos, Nat.div_eq_of_lt (by have := unitsPerOne_pos; omega)]
        simp
    rw [e, hq]
  · have hb : n * 2 ^ k ≤ 2 ^ 24 * unitsPerOne := by
      have : 2 ^ k ≤ unitsPerOne := Nat.pow_le_pow_right (by decide) (by omega)
      exact Nat.mul_le_mul (by omega) this
    have hq : q ≤ 2 ^ 24 := by
      have hU := unitsPerOne_pos
      rcases h with h | h <;> rw [h]
      · exact Nat.div_le_of_le_mul (by rw [Nat.mul_comm unitsPerOne]; exact hb)
      · have : (n * 2 ^ k + (unitsPerOne - 1)) / unitsPerOne < 2 ^ 24 + 1 := by
          rw [Nat.div_lt_iff_lt_mul hU, Nat.add_mul]; omega
        omega
    obtain ⟨r, hr⟩ := exists_units 149 q hq
    exact ⟨r, hr⟩

/-- `floor` of a finite datum: a whole number, at most the datum and less than 1 below it (R17). -/
theorem floor_spec {x : F32} (hx : x.isFinite = true) :
    x.floor.isFinite = true ∧ x.floor.val ≤ x.val ∧ x.val < x.floor.val + unitsPerOne ∧
    (unitsPerOne : Int) ∣ x.floor.val := by
  obtain ⟨s, m, rfl⟩ := fin_of_isFinite hx
  have hU := unitsPerOne_pos
  simp only [floor]
  by_cases hm : m.val = 0
  · simp only [hm, if_true, isFinite_fin, true_and]
    refine ⟨Int.le_refl _, by omega, ?_⟩
    cases s <;> simp [hm, units_zero]
  · simp only [hm, if_false]
    cases s
    · simp only [Bool.false_eq_true, if_false]
      obtain ⟨r, hr⟩ := exists_units_floor m.val _ (Or.inl rfl)
      have hd := Nat.div_add_mod (units m.val) unitsPerOne
      have hl := Nat.mod_lt (units m.val) hU
      have hle : units r ≤ units m.val := by rw [hr]; exact Nat.div_mul_le_self _ _
      have hlt : r < 0x7F800000 := Nat.lt_of_le_of_lt (units_le_iff.1 hle) m.isLt
      rw [← hr, round, roundMag_units, ofMag_of_lt hlt]
      simp only [isFinite_fin, val_fin_false, true_and]
      refine ⟨by exact_mod_cast hle, ?_, ?_⟩
      · have : units m.val < units r + unitsPerOne := by rw [hr, Nat.mul_comm]; omega
        exact_mod_cast this
      · rw [hr]; push_cast; exact Int.dvd_mul_left _ _
    · simp only [if_true]
      obtain ⟨r, hr⟩ := exists_units_floor m.val _ (Or.inr rfl)
      have hd := Nat.div_add_mod (units m.val + (unitsPerOne - 1)) unitsPerOne
      have hl := Nat.mod_lt (units m.val + (unitsPerOne - 1)) hU
      have hge : units m.val ≤ units r := by rw [hr, Nat.mul_comm]; omega
      have hup : units r < units m.val + unitsPerOne := by rw [hr, Nat.mul_comm]; omega
      have hlt : r < 0x7F800000 := by
        calc r = roundMag (units r) 1 := (roundMag_units r).symm
          _ < 0x7F800000 := roundMag_past_largest (by
            have : units m.val ≤ units 0x7F7FFFFF := units_le_iff.2 (by have := m.isLt; omega)
            omega)
      rw [← hr, round, roundMag_units, ofMag_of_lt hlt]
      simp only [isFinite_fin, val_fin_true, true_and]
      refine ⟨by omega, by omega, ?_⟩
      rw [hr]; push_cast; exact Int.dvd_neg.2 (Int.dvd_mul_left _ _)

/-- `wrap01` maps every finite datum into [0, 1) (R17). -/
theorem wrap01_spec {x : F32} (hx : x.isFinite = true) : zero.le x.wrap01 = true ∧ x.wrap01.lt one = true := by
  obtain ⟨ff, f1, f2, -⟩ := floor_spec hx
  obtain ⟨fr, r0, r1⟩ := sub_between hx ff (lo := zero) (hi := one) rfl rfl
    (by rw [val_zero]; omega) (by rw [val_one]; omega)
  unfold wrap01
  split
  · exact ⟨rfl, by decide⟩
  · rename_i h
    refine ⟨(le_iff rfl fr).2 (by rw [val_zero] at *; exact r0), ?_⟩
    rw [lt_eq_not_le (isNaN_of_isFinite _ fr) rfl]
    simpa using h

theorem unitsPerOne_eq : (unitsPerOne : Int) = 2 ^ 149 := by simp [unitsPerOne]

/-- What R407 asks of a crossfade step, in units: more than 1e-6, at most 1. -/
theorem step_bounds {s : F32} (h1 : (dec 1 1000000).lt s = true) (h2 : s.le one = true) :
    s.isFinite = true ∧ 2 ^ 129 ≤ s.val ∧ s.val ≤ unitsPerOne := by
  have hd : (dec 1 1000000).isFinite = true ∧ 2 ^ 129 ≤ (dec 1 1000000).val := by decide +kernel
  have hn := (not_isNaN_of_le h2).1
  have hle : (dec 1 1000000).le s = true := by
    rcases le_total (isNaN_of_isFinite _ hd.1) hn with h | h
    · exact h
    · rw [lt_eq_not_le (isNaN_of_isFinite _ hd.1) hn, h] at h1; cases h1
  have hs := isFinite_of_le_of_le hd.1 rfl hle h2
  have e1 := (le_iff hd.1 hs).1 hle
  have e2 := (le_iff hs rfl).1 h2
  rw [val_one] at e2
  exact ⟨hs, by omega, e2⟩

/-- One fade-out step (R402, R406): the volume stays in [0, 1], does not rise, and falls by at least 2^-21 unless it
reaches 0. -/
theorem fadeOut_step {s v : F32} (hv : inUnit v = true) (hs : s.isFinite = true) (s0 : 2 ^ 129 ≤ s.val)
    (s1 : s.val ≤ unitsPerOne) :
    inUnit (fadeOutVolume s v) = true ∧ (fadeOutVolume s v).val ≤ v.val ∧
    ((fadeOutVolume s v).val + 2 ^ 128 ≤ v.val ∨ (fadeOutVolume s v).val = 0) := by
  obtain ⟨fv, v0, v1⟩ := inUnit_iff.1 hv
  have hU := unitsPerOne_eq
  obtain ⟨fd, d0, d1⟩ := sub_between fv hs (lo := one.neg) (hi := one) rfl rfl
    (by rw [val_neg, val_one]; omega) (by rw [val_one]; omega)
  rw [val_one] at d1
  unfold fadeOutVolume
  rcases max_eq (isNaN_of_isFinite _ fd) (y := zero) rfl with ⟨e, h⟩ | ⟨e, -⟩
  · rw [e]
    have dn : 0 ≤ (v.sub s).val := by have := (le_iff rfl fd).1 h; rwa [val_zero] at this
    have dU : inUnit (v.sub s) = true := inUnit_iff.2 ⟨fd, dn, d1⟩
    obtain ⟨p1, p2⟩ := mul_inUnit dU dU
    have p0 := (inUnit_iff.1 p1).2.1
    refine ⟨p1, ?_, ?_⟩
    · have := (sub_le_double fv hs fd).2.2
      by_cases hneg : v.val - s.val ≤ 0
      · have := this hneg; omega
      · have := add_near fv (y := s.neg) (by rwa [isFinite_neg]) (by rw [val_neg]; omega) fd
        rw [val_neg] at this
        change _ ≤ _ ∧ _ ≤ 2 ^ 24 * (v.sub s).val at this
        have h1 : 2 ^ 24 * (v.sub s).val ≤ (2 ^ 24 + 1) * (v.val + -s.val) := this.1
        omega
    · have := (sub_le_double fv hs fd).2.2
      by_cases hneg : v.val - s.val ≤ 0
      · right; have := this hneg; omega
      · left
        have := add_near fv (y := s.neg) (by rwa [isFinite_neg]) (by rw [val_neg]; omega) fd
        rw [val_neg] at this
        have h1 : 2 ^ 24 * (v.sub s).val ≤ (2 ^ 24 + 1) * (v.val + -s.val) := this.1
        omega
  · rw [e]
    have hz : (zero.mul zero) = zero := by decide
    rw [hz, val_zero]
    exact ⟨by decide, v0, Or.inr rfl⟩

/-- One fade-in step (R403, R406): the volume stays in [0, 1] and rises by at least 2^-21, up to 1. -/
theorem fadeIn_step {s v : F32} (hv : inUnit v = true) (hs : s.isFinite = true) (s0 : 2 ^ 129 ≤ s.val) :
    inUnit (fadeInVolume s v) = true ∧ v.val ≤ (fadeInVolume s v).val ∧
    (v.val + 2 ^ 128 ≤ (fadeInVolume s v).val ∨ (fadeInVolume s v).val = unitsPerOne) := by
  obtain ⟨fv, v0, v1⟩ := inUnit_iff.1 hv
  have hU := unitsPerOne_eq
  have fa : (v.add s).isFinite = true := add_finite_of_unit fv hs (by omega) v1
  have ha := (add_near fv hs (by omega) fa).2
  have a0 := (add_le_double fv hs fa).2.1 (by omega)
  unfold fadeInVolume
  have key : ∀ u : F32, u.isFinite = true → 0 ≤ u.val → u.val ≤ unitsPerOne →
      u.sqrt.isFinite = true ∧ u.val ≤ u.sqrt.val ∧ u.sqrt.val ≤ unitsPerOne := by
    intro u fu u0 u1
    have := sqrt_between fu u0 (lo := u) (hi := one) fu rfl u0 (by rw [val_one]; omega)
      (Int.mul_le_mul_of_nonneg_left u1 u0) (by rw [val_one]; exact Int.mul_le_mul_of_nonneg_right u1 (by omega))
    rwa [val_one] at this
  rcases min_eq (isNaN_of_isFinite _ fa) (y := one) rfl with ⟨e, h⟩ | ⟨e, -⟩
  · rw [e]
    have h1 := (le_iff fa rfl).1 h
    rw [val_one] at h1
    obtain ⟨f, l, u⟩ := key _ fa a0 h1
    rw [inUnit_iff]
    refine ⟨⟨f, by omega, u⟩, by omega, Or.inl (by omega)⟩
  · rw [e]
    obtain ⟨f, l, u⟩ := key one rfl (by rw [val_one]; omega) (by rw [val_one])
    rw [val_one] at l
    rw [inUnit_iff]
    exact ⟨⟨f, by omega, u⟩, by omega, Or.inr (by omega)⟩

/-- `tanh` of anything but NaN is in [-1, 1] (R11, R198). -/
theorem tanh_within {x : F32} (h : x.isNaN = false) : within one.neg one (Config.math.tanh x) = true := by
  rw [within, Bool.and_eq_true]
  rcases x with _ | s | ⟨s, m⟩
  · cases h
  · cases s
    · rw [Config.math.tanh_inf]; exact ⟨by decide, by decide⟩
    · have := Config.math.tanh_odd (.inf false)
      rw [Config.math.tanh_inf] at this
      change Config.math.tanh (.inf true) = _ at this
      rw [this]; exact ⟨by decide, by decide⟩
  · exact Config.math.tanh_bound _ rfl

theorem tanh_isNaN {x : F32} (h : (Config.math.tanh x).isNaN = true) : x = .nan := by
  by_contra hc
  have : x.isNaN = false := by rcases x with _ | s | ⟨s, m⟩ <;> first | rfl | exact absurd rfl hc
  have := isNaN_of_within (tanh_within this)
  rw [h] at this; cases this

end F32
end Sys2Proof
end

