-- ==== Sys2Proof/Laws/Memory.lean ====
section
/-! SUPPORT. The delay-line memory (20_memory.md): a read after a write, and that every operation keeps the canonical form
(`Memory.wf`), so that equal buffers are equal data. -/

namespace Sys2Proof.Machine

@[simp] theorem readCell_nil (i : Nat) : readCell [] i = unlisted := rfl

theorem readCell_cons (j : Nat) (v : F32) (rest : List Elem) (i : Nat) :
    readCell ((j, v) :: rest) i = if j = i then v else readCell rest i := rfl

/-- Weakening the bound of a canonical list. -/
theorem wfFrom_le {lo lo' : Nat} (h : lo ≤ lo') : ∀ {cells : List Elem}, wfFrom lo' cells = true → wfFrom lo cells = true
  | [], _ => rfl
  | (j, v) :: rest, hw => by
    simp only [wfFrom, Bool.and_eq_true, decide_eq_true_eq] at hw ⊢
    exact ⟨⟨by omega, hw.1.2⟩, hw.2⟩

/-- Below its bound a canonical list lists nothing. -/
theorem readCell_below : ∀ {cells : List Elem} {lo i : Nat}, wfFrom lo cells = true → i < lo → readCell cells i = unlisted
  | [], _, _, _, _ => rfl
  | (j, v) :: rest, lo, i, hw, hi => by
    simp only [wfFrom, Bool.and_eq_true, decide_eq_true_eq] at hw
    rw [readCell_cons, if_neg (by omega)]
    exact readCell_below hw.2 (by omega)

theorem readCell_consCell {cells : List Elem} {i : Nat} (v : F32) (h : wfFrom (i + 1) cells = true) (k : Nat) :
    readCell (consCell i v cells) k = if k = i then v else readCell cells k := by
  unfold consCell
  split
  · next hv =>
    split
    · next hk => subst hk; rw [readCell_below h (Nat.lt_succ_self _)]; exact hv.symm
    · rfl
  · rw [readCell_cons]
    by_cases hk : k = i
    · rw [if_pos hk.symm, if_pos hk]
    · rw [if_neg (Ne.symm hk), if_neg hk]

/-- A read after a write: the written element at the written index, every other one as before. -/
theorem readCell_writeCell {lo : Nat} {cells : List Elem} (i : Nat) (v : F32) (h : wfFrom lo cells = true) (k : Nat) :
    readCell (writeCell cells i v) k = if k = i then v else readCell cells k := by
  induction cells generalizing lo with
  | nil => exact readCell_consCell v rfl k
  | cons e rest ih =>
    obtain ⟨j, u⟩ := e
    have hw := h
    simp only [wfFrom, Bool.and_eq_true, decide_eq_true_eq] at hw
    simp only [writeCell]
    split
    · next hlt =>
      refine readCell_consCell v ?_ k
      simp only [wfFrom, Bool.and_eq_true, decide_eq_true_eq]
      exact ⟨⟨by omega, hw.1.2⟩, hw.2⟩
    · split
      · next heq =>
        subst heq
        rw [readCell_consCell v hw.2 k]
        split
        · rfl
        · rw [readCell_cons, if_neg (by omega)]
      · rw [readCell_cons, readCell_cons]
        by_cases hk : j = k
        · rw [if_pos hk, if_pos hk, if_neg (by omega)]
        · rw [if_neg hk, if_neg hk]
          exact ih hw.2

theorem wfFrom_consCell {lo i : Nat} {cells : List Elem} (v : F32) (hi : lo ≤ i) (h : wfFrom (i + 1) cells = true) :
    wfFrom lo (consCell i v cells) = true := by
  unfold consCell
  split
  · exact wfFrom_le (by omega) h
  · next hv =>
    simp only [wfFrom, Bool.and_eq_true, decide_eq_true_eq]
    exact ⟨⟨hi, hv⟩, h⟩

/-- A write keeps the canonical form. -/
theorem wfFrom_writeCell {lo i : Nat} {cells : List Elem} (v : F32) (hi : lo ≤ i) (h : wfFrom lo cells = true) :
    wfFrom lo (writeCell cells i v) = true := by
  induction cells generalizing lo with
  | nil => exact wfFrom_consCell v hi rfl
  | cons e rest ih =>
    obtain ⟨j, u⟩ := e
    have hw := h
    simp only [wfFrom, Bool.and_eq_true, decide_eq_true_eq] at hw
    simp only [writeCell]
    split
    · next hlt =>
      refine wfFrom_consCell v hi ?_
      simp only [wfFrom, Bool.and_eq_true, decide_eq_true_eq]
      exact ⟨⟨by omega, hw.1.2⟩, hw.2⟩
    · split
      · next heq => subst heq; exact wfFrom_consCell v hi hw.2
      · simp only [wfFrom, Bool.and_eq_true, decide_eq_true_eq]
        exact ⟨hw.1, ih (by omega) hw.2⟩

/-- A write lists no index but those listed before and its own. -/
theorem mem_writeCell {cells : List Elem} {i : Nat} {v : F32} {e : Elem} (h : e ∈ writeCell cells i v) :
    e.1 = i ∨ e ∈ cells := by
  induction cells with
  | nil =>
    simp only [writeCell, consCell] at h
    split at h
    · cases h
    · exact .inl (by rw [List.mem_singleton.1 h])
  | cons c rest ih =>
    obtain ⟨j, u⟩ := c
    simp only [writeCell, consCell] at h
    split at h
    · split at h
      · exact .inr h
      · rcases List.mem_cons.1 h with rfl | h
        · exact .inl rfl
        · exact .inr h
    · split at h
      · split at h
        · exact .inr (List.mem_cons_of_mem _ h)
        · rcases List.mem_cons.1 h with rfl | h
          · exact .inl rfl
          · exact .inr (List.mem_cons_of_mem _ h)
      · rcases List.mem_cons.1 h with rfl | h
        · exact .inr List.mem_cons_self
        · exact (ih h).imp_right (List.mem_cons_of_mem _)

theorem Memory.wf_iff {cap : Nat} {dl : DelayLine} :
    Memory.wf cap dl = true ↔ wfFrom 0 dl.cells = true ∧ (∀ e ∈ dl.cells, e.1 < cap) ∧ dl.w < cap := by
  simp only [Memory.wf, Bool.and_eq_true, List.all_eq_true, decide_eq_true_eq, and_assoc]

/-- DL.WRITE keeps the form, the bounds and the write index in range (R101, R104, R187). -/
theorem Memory.wf_dlWrite {cap : Nat} {dl : DelayLine} (x : F32) (h : Memory.wf cap dl = true) :
    Memory.wf cap (dlWrite cap dl x) = true := by
  obtain ⟨h1, h2, h3⟩ := Memory.wf_iff.1 h
  refine Memory.wf_iff.2 ⟨wfFrom_writeCell x (Nat.zero_le _) h1, fun e he => ?_, Nat.mod_lt _ (by omega)⟩
  rcases mem_writeCell he with he | he
  · rw [he]; exact h3
  · exact h2 e he

/-- DL.RESET gives the form (R188). -/
theorem Memory.wf_dlReset {cap : Nat} (h : 0 < cap) : Memory.wf cap dlReset = true :=
  Memory.wf_iff.2 ⟨rfl, fun _ he => absurd he List.not_mem_nil, h⟩

/-- DL.WRITE stores at the write index and nowhere else (R187). -/
theorem readCell_dlWrite {cap : Nat} {dl : DelayLine} (x : F32) (h : Memory.wf cap dl = true) (k : Nat) :
    readCell (dlWrite cap dl x).cells k = if k = dl.w then x else readCell dl.cells k :=
  readCell_writeCell dl.w x (Memory.wf_iff.1 h).1 k

@[simp] theorem dlWrite_w (cap : Nat) (dl : DelayLine) (x : F32) : (dlWrite cap dl x).w = (dl.w + 1) % cap := rfl

@[simp] theorem dlReset_w : dlReset.w = 0 := rfl

@[simp] theorem readCell_dlReset (i : Nat) : readCell dlReset.cells i = .zero := rfl

/-! Index arithmetic (R104). -/

theorem dlIndex_cast {cap : Nat} (h : 0 < cap) (dl : DelayLine) (k : Nat) :
    (dlIndex cap dl k : Int) = ((dl.w : Int) - k) % cap :=
  Int.toNat_of_nonneg (Int.emod_nonneg _ (by omega))

/-- The index is always in range (R104, R12). -/
theorem dlIndex_lt {cap : Nat} (h : 0 < cap) (dl : DelayLine) (k : Nat) : dlIndex cap dl k < cap := by
  have := Int.emod_lt_of_pos ((dl.w : Int) - k) (b := cap) (by omega)
  rw [← dlIndex_cast h] at this
  omega

/-- An age of at most the capacity wraps at most once. -/
theorem dlIndex_of_le {cap : Nat} {dl : DelayLine} {k : Nat} (hw : dl.w < cap) (hk : k ≤ cap) :
    dlIndex cap dl k = if k ≤ dl.w then dl.w - k else dl.w + cap - k := by
  have e := dlIndex_cast (Nat.zero_lt_of_lt hw) dl k
  split
  · rw [Int.emod_eq_of_lt (by omega) (by omega)] at e; omega
  · rw [← Int.add_emod_right, Int.emod_eq_of_lt (by omega) (by omega)] at e; omega

/-- A write ages every element by one (R187, R104). -/
theorem dlIndex_dlWrite {cap : Nat} (h : 0 < cap) (dl : DelayLine) (x : F32) (k : Nat) :
    dlIndex cap (dlWrite cap dl x) (k + 1) = dlIndex cap dl k := by
  have e1 := dlIndex_cast h (dlWrite cap dl x) (k + 1)
  have e2 := dlIndex_cast h dl k
  rw [dlWrite_w, Int.natCast_emod, Int.emod_sub_emod] at e1
  rw [show ((dl.w + 1 : Nat) : Int) - ((k + 1 : Nat) : Int) = dl.w - k by omega, ← e2] at e1
  exact_mod_cast e1

/-- Equal reads are equal data: two canonical buffers that read alike everywhere are the same list. -/
theorem cells_ext : ∀ {a b : List Elem} {lo : Nat}, wfFrom lo a = true → wfFrom lo b = true →
    (∀ i, readCell a i = readCell b i) → a = b
  | [], [], _, _, _, _ => rfl
  | [], (j, v) :: rest, _, _, hb, h => by
    simp only [wfFrom, Bool.and_eq_true, decide_eq_true_eq] at hb
    have := h j
    rw [readCell_cons, if_pos rfl] at this
    exact absurd this.symm hb.1.2
  | (j, v) :: rest, [], _, ha, _, h => by
    simp only [wfFrom, Bool.and_eq_true, decide_eq_true_eq] at ha
    have := h j
    rw [readCell_cons, if_pos rfl] at this
    exact absurd this ha.1.2
  | (j, v) :: ra, (k, u) :: rb, lo, ha, hb, h => by
    have ha' := ha
    have hb' := hb
    simp only [wfFrom, Bool.and_eq_true, decide_eq_true_eq] at ha hb
    have hj := h j
    have hk := h k
    rw [readCell_cons, if_pos rfl] at hj
    rw [readCell_cons k u, if_pos rfl] at hk
    have e : j = k := by
      rcases Nat.lt_trichotomy j k with hlt | heq | hlt
      · rw [readCell_cons, if_neg (by omega), readCell_below hb.2 (by omega)] at hj
        exact absurd hj ha.1.2
      · exact heq
      · rw [readCell_cons, if_neg (by omega), readCell_below ha.2 (by omega)] at hk
        exact absurd hk.symm hb.1.2
    subst e
    rw [readCell_cons, if_pos rfl] at hj
    subst hj
    rw [cells_ext ha.2 hb.2 fun i => ?_]
    have hi := h i
    rw [readCell_cons, readCell_cons] at hi
    by_cases hij : j = i
    · subst hij; rw [readCell_below ha.2 (by omega), readCell_below hb.2 (by omega)]
    · rwa [if_neg hij, if_neg hij] at hi

end Sys2Proof.Machine
end

