-- ==== Sys2Proof/Laws/State.lean ====
section
/-! SUPPORT. One lemma per field of the state and per update of it, so that no proof unfolds a record update. -/

namespace Sys2Proof.Machine

variable (s : State)

@[simp] theorem State.setSeq_cfg (v : Seq) : (s.setSeq v).cfg = s.cfg := rfl
@[simp] theorem State.setSeq_seq (v : Seq) : (s.setSeq v).seq = v := rfl
@[simp] theorem State.setSeq_snap (v : Seq) : (s.setSeq v).snap = s.snap := rfl
@[simp] theorem State.setSeq_xf (v : Seq) : (s.setSeq v).xf = s.xf := rfl
@[simp] theorem State.setSeq_lim (v : Seq) : (s.setSeq v).lim = s.lim := rfl
@[simp] theorem State.setSeq_fd (v : Seq) : (s.setSeq v).fd = s.fd := rfl
@[simp] theorem State.setSeq_se (v : Seq) : (s.setSeq v).se = s.se := rfl
@[simp] theorem State.setSeq_sr (v : Seq) : (s.setSeq v).sr = s.sr := rfl
@[simp] theorem State.setSeq_sh (v : Seq) : (s.setSeq v).sh = s.sh := rfl
@[simp] theorem State.setSeq_refused (v : Seq) : (s.setSeq v).refused = s.refused := rfl
@[simp] theorem State.setSeq_events (v : Seq) : (s.setSeq v).events = s.events := rfl
@[simp] theorem State.setSeq_ports (v : Seq) : (s.setSeq v).ports = s.ports := rfl
@[simp] theorem State.setSeq_row (v : Seq) : (s.setSeq v).row = s.row := rfl
@[simp] theorem State.setSeq_wires (v : Seq) : (s.setSeq v).wires = s.wires := rfl

@[simp] theorem State.setSnap_cfg (v : Snapshot) : (s.setSnap v).cfg = s.cfg := rfl
@[simp] theorem State.setSnap_seq (v : Snapshot) : (s.setSnap v).seq = s.seq := rfl
@[simp] theorem State.setSnap_snap (v : Snapshot) : (s.setSnap v).snap = v := rfl
@[simp] theorem State.setSnap_xf (v : Snapshot) : (s.setSnap v).xf = s.xf := rfl
@[simp] theorem State.setSnap_lim (v : Snapshot) : (s.setSnap v).lim = s.lim := rfl
@[simp] theorem State.setSnap_fd (v : Snapshot) : (s.setSnap v).fd = s.fd := rfl
@[simp] theorem State.setSnap_se (v : Snapshot) : (s.setSnap v).se = s.se := rfl
@[simp] theorem State.setSnap_sr (v : Snapshot) : (s.setSnap v).sr = s.sr := rfl
@[simp] theorem State.setSnap_sh (v : Snapshot) : (s.setSnap v).sh = s.sh := rfl
@[simp] theorem State.setSnap_refused (v : Snapshot) : (s.setSnap v).refused = s.refused := rfl
@[simp] theorem State.setSnap_events (v : Snapshot) : (s.setSnap v).events = s.events := rfl
@[simp] theorem State.setSnap_ports (v : Snapshot) : (s.setSnap v).ports = s.ports := rfl
@[simp] theorem State.setSnap_row (v : Snapshot) : (s.setSnap v).row = s.row := rfl
@[simp] theorem State.setSnap_wires (v : Snapshot) : (s.setSnap v).wires = s.wires := rfl

@[simp] theorem State.setXf_cfg (v : Xf) : (s.setXf v).cfg = s.cfg := rfl
@[simp] theorem State.setXf_seq (v : Xf) : (s.setXf v).seq = s.seq := rfl
@[simp] theorem State.setXf_snap (v : Xf) : (s.setXf v).snap = s.snap := rfl
@[simp] theorem State.setXf_xf (v : Xf) : (s.setXf v).xf = v := rfl
@[simp] theorem State.setXf_lim (v : Xf) : (s.setXf v).lim = s.lim := rfl
@[simp] theorem State.setXf_fd (v : Xf) : (s.setXf v).fd = s.fd := rfl
@[simp] theorem State.setXf_se (v : Xf) : (s.setXf v).se = s.se := rfl
@[simp] theorem State.setXf_sr (v : Xf) : (s.setXf v).sr = s.sr := rfl
@[simp] theorem State.setXf_sh (v : Xf) : (s.setXf v).sh = s.sh := rfl
@[simp] theorem State.setXf_refused (v : Xf) : (s.setXf v).refused = s.refused := rfl
@[simp] theorem State.setXf_events (v : Xf) : (s.setXf v).events = s.events := rfl
@[simp] theorem State.setXf_ports (v : Xf) : (s.setXf v).ports = s.ports := rfl
@[simp] theorem State.setXf_row (v : Xf) : (s.setXf v).row = s.row := rfl
@[simp] theorem State.setXf_wires (v : Xf) : (s.setXf v).wires = s.wires := rfl

@[simp] theorem State.setLim_cfg (v : LimiterState) : (s.setLim v).cfg = s.cfg := rfl
@[simp] theorem State.setLim_seq (v : LimiterState) : (s.setLim v).seq = s.seq := rfl
@[simp] theorem State.setLim_snap (v : LimiterState) : (s.setLim v).snap = s.snap := rfl
@[simp] theorem State.setLim_xf (v : LimiterState) : (s.setLim v).xf = s.xf := rfl
@[simp] theorem State.setLim_lim (v : LimiterState) : (s.setLim v).lim = v := rfl
@[simp] theorem State.setLim_fd (v : LimiterState) : (s.setLim v).fd = s.fd := rfl
@[simp] theorem State.setLim_se (v : LimiterState) : (s.setLim v).se = s.se := rfl
@[simp] theorem State.setLim_sr (v : LimiterState) : (s.setLim v).sr = s.sr := rfl
@[simp] theorem State.setLim_sh (v : LimiterState) : (s.setLim v).sh = s.sh := rfl
@[simp] theorem State.setLim_refused (v : LimiterState) : (s.setLim v).refused = s.refused := rfl
@[simp] theorem State.setLim_events (v : LimiterState) : (s.setLim v).events = s.events := rfl
@[simp] theorem State.setLim_ports (v : LimiterState) : (s.setLim v).ports = s.ports := rfl
@[simp] theorem State.setLim_row (v : LimiterState) : (s.setLim v).row = s.row := rfl
@[simp] theorem State.setLim_wires (v : LimiterState) : (s.setLim v).wires = s.wires := rfl

@[simp] theorem State.setFd_cfg (v : FdState) : (s.setFd v).cfg = s.cfg := rfl
@[simp] theorem State.setFd_seq (v : FdState) : (s.setFd v).seq = s.seq := rfl
@[simp] theorem State.setFd_snap (v : FdState) : (s.setFd v).snap = s.snap := rfl
@[simp] theorem State.setFd_xf (v : FdState) : (s.setFd v).xf = s.xf := rfl
@[simp] theorem State.setFd_lim (v : FdState) : (s.setFd v).lim = s.lim := rfl
@[simp] theorem State.setFd_fd (v : FdState) : (s.setFd v).fd = v := rfl
@[simp] theorem State.setFd_se (v : FdState) : (s.setFd v).se = s.se := rfl
@[simp] theorem State.setFd_sr (v : FdState) : (s.setFd v).sr = s.sr := rfl
@[simp] theorem State.setFd_sh (v : FdState) : (s.setFd v).sh = s.sh := rfl
@[simp] theorem State.setFd_refused (v : FdState) : (s.setFd v).refused = s.refused := rfl
@[simp] theorem State.setFd_events (v : FdState) : (s.setFd v).events = s.events := rfl
@[simp] theorem State.setFd_ports (v : FdState) : (s.setFd v).ports = s.ports := rfl
@[simp] theorem State.setFd_row (v : FdState) : (s.setFd v).row = s.row := rfl
@[simp] theorem State.setFd_wires (v : FdState) : (s.setFd v).wires = s.wires := rfl

@[simp] theorem State.setSe_cfg (v : SeState) : (s.setSe v).cfg = s.cfg := rfl
@[simp] theorem State.setSe_seq (v : SeState) : (s.setSe v).seq = s.seq := rfl
@[simp] theorem State.setSe_snap (v : SeState) : (s.setSe v).snap = s.snap := rfl
@[simp] theorem State.setSe_xf (v : SeState) : (s.setSe v).xf = s.xf := rfl
@[simp] theorem State.setSe_lim (v : SeState) : (s.setSe v).lim = s.lim := rfl
@[simp] theorem State.setSe_fd (v : SeState) : (s.setSe v).fd = s.fd := rfl
@[simp] theorem State.setSe_se (v : SeState) : (s.setSe v).se = v := rfl
@[simp] theorem State.setSe_sr (v : SeState) : (s.setSe v).sr = s.sr := rfl
@[simp] theorem State.setSe_sh (v : SeState) : (s.setSe v).sh = s.sh := rfl
@[simp] theorem State.setSe_refused (v : SeState) : (s.setSe v).refused = s.refused := rfl
@[simp] theorem State.setSe_events (v : SeState) : (s.setSe v).events = s.events := rfl
@[simp] theorem State.setSe_ports (v : SeState) : (s.setSe v).ports = s.ports := rfl
@[simp] theorem State.setSe_row (v : SeState) : (s.setSe v).row = s.row := rfl
@[simp] theorem State.setSe_wires (v : SeState) : (s.setSe v).wires = s.wires := rfl

@[simp] theorem State.setSr_cfg (v : SrState) : (s.setSr v).cfg = s.cfg := rfl
@[simp] theorem State.setSr_seq (v : SrState) : (s.setSr v).seq = s.seq := rfl
@[simp] theorem State.setSr_snap (v : SrState) : (s.setSr v).snap = s.snap := rfl
@[simp] theorem State.setSr_xf (v : SrState) : (s.setSr v).xf = s.xf := rfl
@[simp] theorem State.setSr_lim (v : SrState) : (s.setSr v).lim = s.lim := rfl
@[simp] theorem State.setSr_fd (v : SrState) : (s.setSr v).fd = s.fd := rfl
@[simp] theorem State.setSr_se (v : SrState) : (s.setSr v).se = s.se := rfl
@[simp] theorem State.setSr_sr (v : SrState) : (s.setSr v).sr = v := rfl
@[simp] theorem State.setSr_sh (v : SrState) : (s.setSr v).sh = s.sh := rfl
@[simp] theorem State.setSr_refused (v : SrState) : (s.setSr v).refused = s.refused := rfl
@[simp] theorem State.setSr_events (v : SrState) : (s.setSr v).events = s.events := rfl
@[simp] theorem State.setSr_ports (v : SrState) : (s.setSr v).ports = s.ports := rfl
@[simp] theorem State.setSr_row (v : SrState) : (s.setSr v).row = s.row := rfl
@[simp] theorem State.setSr_wires (v : SrState) : (s.setSr v).wires = s.wires := rfl

@[simp] theorem State.setSh_cfg (v : ShState) : (s.setSh v).cfg = s.cfg := rfl
@[simp] theorem State.setSh_seq (v : ShState) : (s.setSh v).seq = s.seq := rfl
@[simp] theorem State.setSh_snap (v : ShState) : (s.setSh v).snap = s.snap := rfl
@[simp] theorem State.setSh_xf (v : ShState) : (s.setSh v).xf = s.xf := rfl
@[simp] theorem State.setSh_lim (v : ShState) : (s.setSh v).lim = s.lim := rfl
@[simp] theorem State.setSh_fd (v : ShState) : (s.setSh v).fd = s.fd := rfl
@[simp] theorem State.setSh_se (v : ShState) : (s.setSh v).se = s.se := rfl
@[simp] theorem State.setSh_sr (v : ShState) : (s.setSh v).sr = s.sr := rfl
@[simp] theorem State.setSh_sh (v : ShState) : (s.setSh v).sh = v := rfl
@[simp] theorem State.setSh_refused (v : ShState) : (s.setSh v).refused = s.refused := rfl
@[simp] theorem State.setSh_events (v : ShState) : (s.setSh v).events = s.events := rfl
@[simp] theorem State.setSh_ports (v : ShState) : (s.setSh v).ports = s.ports := rfl
@[simp] theorem State.setSh_row (v : ShState) : (s.setSh v).row = s.row := rfl
@[simp] theorem State.setSh_wires (v : ShState) : (s.setSh v).wires = s.wires := rfl

@[simp] theorem State.setPorts_cfg (v : Ports) : (s.setPorts v).cfg = s.cfg := rfl
@[simp] theorem State.setPorts_seq (v : Ports) : (s.setPorts v).seq = s.seq := rfl
@[simp] theorem State.setPorts_snap (v : Ports) : (s.setPorts v).snap = s.snap := rfl
@[simp] theorem State.setPorts_xf (v : Ports) : (s.setPorts v).xf = s.xf := rfl
@[simp] theorem State.setPorts_lim (v : Ports) : (s.setPorts v).lim = s.lim := rfl
@[simp] theorem State.setPorts_fd (v : Ports) : (s.setPorts v).fd = s.fd := rfl
@[simp] theorem State.setPorts_se (v : Ports) : (s.setPorts v).se = s.se := rfl
@[simp] theorem State.setPorts_sr (v : Ports) : (s.setPorts v).sr = s.sr := rfl
@[simp] theorem State.setPorts_sh (v : Ports) : (s.setPorts v).sh = s.sh := rfl
@[simp] theorem State.setPorts_refused (v : Ports) : (s.setPorts v).refused = s.refused := rfl
@[simp] theorem State.setPorts_events (v : Ports) : (s.setPorts v).events = s.events := rfl
@[simp] theorem State.setPorts_ports (v : Ports) : (s.setPorts v).ports = v := rfl
@[simp] theorem State.setPorts_row (v : Ports) : (s.setPorts v).row = s.row := rfl
@[simp] theorem State.setPorts_wires (v : Ports) : (s.setPorts v).wires = s.wires := rfl

@[simp] theorem State.setWires_cfg (v : Wires) : (s.setWires v).cfg = s.cfg := rfl
@[simp] theorem State.setWires_seq (v : Wires) : (s.setWires v).seq = s.seq := rfl
@[simp] theorem State.setWires_snap (v : Wires) : (s.setWires v).snap = s.snap := rfl
@[simp] theorem State.setWires_xf (v : Wires) : (s.setWires v).xf = s.xf := rfl
@[simp] theorem State.setWires_lim (v : Wires) : (s.setWires v).lim = s.lim := rfl
@[simp] theorem State.setWires_fd (v : Wires) : (s.setWires v).fd = s.fd := rfl
@[simp] theorem State.setWires_se (v : Wires) : (s.setWires v).se = s.se := rfl
@[simp] theorem State.setWires_sr (v : Wires) : (s.setWires v).sr = s.sr := rfl
@[simp] theorem State.setWires_sh (v : Wires) : (s.setWires v).sh = s.sh := rfl
@[simp] theorem State.setWires_refused (v : Wires) : (s.setWires v).refused = s.refused := rfl
@[simp] theorem State.setWires_events (v : Wires) : (s.setWires v).events = s.events := rfl
@[simp] theorem State.setWires_ports (v : Wires) : (s.setWires v).ports = s.ports := rfl
@[simp] theorem State.setWires_row (v : Wires) : (s.setWires v).row = s.row := rfl
@[simp] theorem State.setWires_wires (v : Wires) : (s.setWires v).wires = v := rfl

@[simp] theorem State.setRow_cfg (v : Option (Slot × BitVec 6)) : (s.setRow v).cfg = s.cfg := rfl
@[simp] theorem State.setRow_seq (v : Option (Slot × BitVec 6)) : (s.setRow v).seq = s.seq := rfl
@[simp] theorem State.setRow_snap (v : Option (Slot × BitVec 6)) : (s.setRow v).snap = s.snap := rfl
@[simp] theorem State.setRow_xf (v : Option (Slot × BitVec 6)) : (s.setRow v).xf = s.xf := rfl
@[simp] theorem State.setRow_lim (v : Option (Slot × BitVec 6)) : (s.setRow v).lim = s.lim := rfl
@[simp] theorem State.setRow_fd (v : Option (Slot × BitVec 6)) : (s.setRow v).fd = s.fd := rfl
@[simp] theorem State.setRow_se (v : Option (Slot × BitVec 6)) : (s.setRow v).se = s.se := rfl
@[simp] theorem State.setRow_sr (v : Option (Slot × BitVec 6)) : (s.setRow v).sr = s.sr := rfl
@[simp] theorem State.setRow_sh (v : Option (Slot × BitVec 6)) : (s.setRow v).sh = s.sh := rfl
@[simp] theorem State.setRow_refused (v : Option (Slot × BitVec 6)) : (s.setRow v).refused = s.refused := rfl
@[simp] theorem State.setRow_events (v : Option (Slot × BitVec 6)) : (s.setRow v).events = s.events := rfl
@[simp] theorem State.setRow_ports (v : Option (Slot × BitVec 6)) : (s.setRow v).ports = s.ports := rfl
@[simp] theorem State.setRow_row (v : Option (Slot × BitVec 6)) : (s.setRow v).row = v := rfl
@[simp] theorem State.setRow_wires (v : Option (Slot × BitVec 6)) : (s.setRow v).wires = s.wires := rfl

@[simp] theorem State.log_cfg (v : Event) : (s.log v).cfg = s.cfg := rfl
@[simp] theorem State.log_seq (v : Event) : (s.log v).seq = s.seq := rfl
@[simp] theorem State.log_snap (v : Event) : (s.log v).snap = s.snap := rfl
@[simp] theorem State.log_xf (v : Event) : (s.log v).xf = s.xf := rfl
@[simp] theorem State.log_lim (v : Event) : (s.log v).lim = s.lim := rfl
@[simp] theorem State.log_fd (v : Event) : (s.log v).fd = s.fd := rfl
@[simp] theorem State.log_se (v : Event) : (s.log v).se = s.se := rfl
@[simp] theorem State.log_sr (v : Event) : (s.log v).sr = s.sr := rfl
@[simp] theorem State.log_sh (v : Event) : (s.log v).sh = s.sh := rfl
@[simp] theorem State.log_refused (v : Event) : (s.log v).refused = s.refused := rfl
@[simp] theorem State.log_events (v : Event) : (s.log v).events = s.events ++ [v] := rfl
@[simp] theorem State.log_ports (v : Event) : (s.log v).ports = s.ports := rfl
@[simp] theorem State.log_row (v : Event) : (s.log v).row = s.row := rfl
@[simp] theorem State.log_wires (v : Event) : (s.log v).wires = s.wires := rfl

@[simp] theorem State.mark_cfg : (s.mark).cfg = s.cfg := rfl
@[simp] theorem State.mark_seq : (s.mark).seq = s.seq := rfl
@[simp] theorem State.mark_snap : (s.mark).snap = s.snap := rfl
@[simp] theorem State.mark_xf : (s.mark).xf = s.xf := rfl
@[simp] theorem State.mark_lim : (s.mark).lim = s.lim := rfl
@[simp] theorem State.mark_fd : (s.mark).fd = s.fd := rfl
@[simp] theorem State.mark_se : (s.mark).se = s.se := rfl
@[simp] theorem State.mark_sr : (s.mark).sr = s.sr := rfl
@[simp] theorem State.mark_sh : (s.mark).sh = s.sh := rfl
@[simp] theorem State.mark_refused : (s.mark).refused = true := rfl
@[simp] theorem State.mark_events : (s.mark).events = s.events := rfl
@[simp] theorem State.mark_ports : (s.mark).ports = s.ports := rfl
@[simp] theorem State.mark_row : (s.mark).row = s.row := rfl
@[simp] theorem State.mark_wires : (s.mark).wires = s.wires := rfl

@[simp] theorem State.setY_cfg (v : Stereo F32) : (s.setY v).cfg = s.cfg := rfl
@[simp] theorem State.setY_seq (v : Stereo F32) : (s.setY v).seq = s.seq := rfl
@[simp] theorem State.setY_snap (v : Stereo F32) : (s.setY v).snap = s.snap := rfl
@[simp] theorem State.setY_xf (v : Stereo F32) : (s.setY v).xf = s.xf := rfl
@[simp] theorem State.setY_lim (v : Stereo F32) : (s.setY v).lim = s.lim := rfl
@[simp] theorem State.setY_fd (v : Stereo F32) : (s.setY v).fd = s.fd := rfl
@[simp] theorem State.setY_se (v : Stereo F32) : (s.setY v).se = s.se := rfl
@[simp] theorem State.setY_sr (v : Stereo F32) : (s.setY v).sr = s.sr := rfl
@[simp] theorem State.setY_sh (v : Stereo F32) : (s.setY v).sh = s.sh := rfl
@[simp] theorem State.setY_refused (v : Stereo F32) : (s.setY v).refused = s.refused := rfl
@[simp] theorem State.setY_events (v : Stereo F32) : (s.setY v).events = s.events := rfl
@[simp] theorem State.setY_ports (v : Stereo F32) : (s.setY v).ports = s.ports := rfl
@[simp] theorem State.setY_row (v : Stereo F32) : (s.setY v).row = s.row := rfl
@[simp] theorem State.setY_wires (v : Stereo F32) : (s.setY v).wires = { s.wires with y := v } := rfl

@[simp] theorem State.setFdWires_cfg (v : FdWires) : (s.setFdWires v).cfg = s.cfg := rfl
@[simp] theorem State.setFdWires_seq (v : FdWires) : (s.setFdWires v).seq = s.seq := rfl
@[simp] theorem State.setFdWires_snap (v : FdWires) : (s.setFdWires v).snap = s.snap := rfl
@[simp] theorem State.setFdWires_xf (v : FdWires) : (s.setFdWires v).xf = s.xf := rfl
@[simp] theorem State.setFdWires_lim (v : FdWires) : (s.setFdWires v).lim = s.lim := rfl
@[simp] theorem State.setFdWires_fd (v : FdWires) : (s.setFdWires v).fd = s.fd := rfl
@[simp] theorem State.setFdWires_se (v : FdWires) : (s.setFdWires v).se = s.se := rfl
@[simp] theorem State.setFdWires_sr (v : FdWires) : (s.setFdWires v).sr = s.sr := rfl
@[simp] theorem State.setFdWires_sh (v : FdWires) : (s.setFdWires v).sh = s.sh := rfl
@[simp] theorem State.setFdWires_refused (v : FdWires) : (s.setFdWires v).refused = s.refused := rfl
@[simp] theorem State.setFdWires_events (v : FdWires) : (s.setFdWires v).events = s.events := rfl
@[simp] theorem State.setFdWires_ports (v : FdWires) : (s.setFdWires v).ports = s.ports := rfl
@[simp] theorem State.setFdWires_row (v : FdWires) : (s.setFdWires v).row = s.row := rfl
@[simp] theorem State.setFdWires_wires (v : FdWires) : (s.setFdWires v).wires = { s.wires with fd := v } := rfl

@[simp] theorem State.setSeWires_cfg (v : SeWires) : (s.setSeWires v).cfg = s.cfg := rfl
@[simp] theorem State.setSeWires_seq (v : SeWires) : (s.setSeWires v).seq = s.seq := rfl
@[simp] theorem State.setSeWires_snap (v : SeWires) : (s.setSeWires v).snap = s.snap := rfl
@[simp] theorem State.setSeWires_xf (v : SeWires) : (s.setSeWires v).xf = s.xf := rfl
@[simp] theorem State.setSeWires_lim (v : SeWires) : (s.setSeWires v).lim = s.lim := rfl
@[simp] theorem State.setSeWires_fd (v : SeWires) : (s.setSeWires v).fd = s.fd := rfl
@[simp] theorem State.setSeWires_se (v : SeWires) : (s.setSeWires v).se = s.se := rfl
@[simp] theorem State.setSeWires_sr (v : SeWires) : (s.setSeWires v).sr = s.sr := rfl
@[simp] theorem State.setSeWires_sh (v : SeWires) : (s.setSeWires v).sh = s.sh := rfl
@[simp] theorem State.setSeWires_refused (v : SeWires) : (s.setSeWires v).refused = s.refused := rfl
@[simp] theorem State.setSeWires_events (v : SeWires) : (s.setSeWires v).events = s.events := rfl
@[simp] theorem State.setSeWires_ports (v : SeWires) : (s.setSeWires v).ports = s.ports := rfl
@[simp] theorem State.setSeWires_row (v : SeWires) : (s.setSeWires v).row = s.row := rfl
@[simp] theorem State.setSeWires_wires (v : SeWires) : (s.setSeWires v).wires = { s.wires with se := v } := rfl

@[simp] theorem State.setSrWires_cfg (v : SrWires) : (s.setSrWires v).cfg = s.cfg := rfl
@[simp] theorem State.setSrWires_seq (v : SrWires) : (s.setSrWires v).seq = s.seq := rfl
@[simp] theorem State.setSrWires_snap (v : SrWires) : (s.setSrWires v).snap = s.snap := rfl
@[simp] theorem State.setSrWires_xf (v : SrWires) : (s.setSrWires v).xf = s.xf := rfl
@[simp] theorem State.setSrWires_lim (v : SrWires) : (s.setSrWires v).lim = s.lim := rfl
@[simp] theorem State.setSrWires_fd (v : SrWires) : (s.setSrWires v).fd = s.fd := rfl
@[simp] theorem State.setSrWires_se (v : SrWires) : (s.setSrWires v).se = s.se := rfl
@[simp] theorem State.setSrWires_sr (v : SrWires) : (s.setSrWires v).sr = s.sr := rfl
@[simp] theorem State.setSrWires_sh (v : SrWires) : (s.setSrWires v).sh = s.sh := rfl
@[simp] theorem State.setSrWires_refused (v : SrWires) : (s.setSrWires v).refused = s.refused := rfl
@[simp] theorem State.setSrWires_events (v : SrWires) : (s.setSrWires v).events = s.events := rfl
@[simp] theorem State.setSrWires_ports (v : SrWires) : (s.setSrWires v).ports = s.ports := rfl
@[simp] theorem State.setSrWires_row (v : SrWires) : (s.setSrWires v).row = s.row := rfl
@[simp] theorem State.setSrWires_wires (v : SrWires) : (s.setSrWires v).wires = { s.wires with sr := v } := rfl

@[simp] theorem State.setShWires_cfg (v : ShWires) : (s.setShWires v).cfg = s.cfg := rfl
@[simp] theorem State.setShWires_seq (v : ShWires) : (s.setShWires v).seq = s.seq := rfl
@[simp] theorem State.setShWires_snap (v : ShWires) : (s.setShWires v).snap = s.snap := rfl
@[simp] theorem State.setShWires_xf (v : ShWires) : (s.setShWires v).xf = s.xf := rfl
@[simp] theorem State.setShWires_lim (v : ShWires) : (s.setShWires v).lim = s.lim := rfl
@[simp] theorem State.setShWires_fd (v : ShWires) : (s.setShWires v).fd = s.fd := rfl
@[simp] theorem State.setShWires_se (v : ShWires) : (s.setShWires v).se = s.se := rfl
@[simp] theorem State.setShWires_sr (v : ShWires) : (s.setShWires v).sr = s.sr := rfl
@[simp] theorem State.setShWires_sh (v : ShWires) : (s.setShWires v).sh = s.sh := rfl
@[simp] theorem State.setShWires_refused (v : ShWires) : (s.setShWires v).refused = s.refused := rfl
@[simp] theorem State.setShWires_events (v : ShWires) : (s.setShWires v).events = s.events := rfl
@[simp] theorem State.setShWires_ports (v : ShWires) : (s.setShWires v).ports = s.ports := rfl
@[simp] theorem State.setShWires_row (v : ShWires) : (s.setShWires v).row = s.row := rfl
@[simp] theorem State.setShWires_wires (v : ShWires) : (s.setShWires v).wires = { s.wires with sh := v } := rfl

end Sys2Proof.Machine
end

