-- ==== Sys2Proof/Laws/Ops.lean ====
section
/-! SUPPORT. What the shared operations can do, said once each, so that later proofs cite these and do not unfold them. -/

namespace Sys2Proof.Machine

/-! Running one operation after another. -/

@[simp] theorem thenDo_next (s : State) (k : State → Result) : thenDo (.next s) k = k s := rfl

@[simp] theorem thenDo_fault (r : Fault) (k : State → Result) : thenDo (.fault r) k = .fault r := rfl

@[simp] theorem thenDo_refused (r : Refusal) (k : State → Result) : thenDo (.refused r) k = .refused r := rfl

/-- A sequence completes exactly when its first part does and the rest does from there. -/
theorem thenDo_eq_next {o : Result} {k : State → Result} {t : State} :
    thenDo o k = .next t ↔ ∃ s, o = .next s ∧ k s = .next t := by
  cases o with
  | next s => exact ⟨fun h => ⟨s, rfl, h⟩, fun ⟨_, h1, h2⟩ => by cases h1; exact h2⟩
  | fault r => exact ⟨(nomatch ·), fun ⟨_, h, _⟩ => nomatch h⟩
  | refused r => exact ⟨(nomatch ·), fun ⟨_, h, _⟩ => nomatch h⟩

theorem thenDo_assoc (o : Result) (f g : State → Result) : thenDo (thenDo o f) g = thenDo o fun s => thenDo (f s) g := by
  cases o with
  | next s => rfl
  | fault r => rfl
  | refused r => rfl

/-- Rows one after another: a list in two parts. -/
theorem runRows_append (a b : List Instr) (s : State) : runRows (a ++ b) s = thenDo (runRows a s) (runRows b) := by
  induction a generalizing s with
  | nil => rfl
  | cons i rest ih =>
    rw [List.cons_append, runRows, runRows, thenDo_assoc]
    congr 1
    exact funext ih

/-! MODE_RESET and GUARD. -/

/-- MODE_RESET changes nothing outside the four modes' state (R201). -/
theorem modeReset_frame (m : Mode) (s : State) :
    (modeReset m s).cfg = s.cfg ∧ (modeReset m s).seq = s.seq ∧ (modeReset m s).snap = s.snap ∧
    (modeReset m s).xf = s.xf ∧ (modeReset m s).lim = s.lim ∧ (modeReset m s).refused = s.refused ∧
    (modeReset m s).events = s.events ∧ (modeReset m s).ports = s.ports ∧ (modeReset m s).row = s.row ∧
    (modeReset m s).wires = s.wires := by
  cases m <;> exact ⟨rfl, rfl, rfl, rfl, rfl, rfl, rfl, rfl, rfl, rfl⟩

/-- MODE_RESET gives mode m its initial state and leaves the other modes' (R201). -/
theorem modeReset_modes (m : Mode) (s : State) :
    (modeReset m s).fd = (if m = .fd then fdInit s.cfg else s.fd) ∧
    (modeReset m s).se = (if m = .se then seInit s.cfg else s.se) ∧
    (modeReset m s).sr = (if m = .sr then srInit s.cfg else s.sr) ∧
    (modeReset m s).sh = (if m = .sh then shInit s.cfg else s.sh) := by
  cases m <;> exact ⟨rfl, rfl, rfl, rfl⟩

/-- The guard's mask is zero exactly on a finite pair (R200). -/
theorem guardMask_eq_zero {y : Stereo F32} : guardMask y = 0#2 ↔ y.l.isFinite = true ∧ y.r.isFinite = true := by
  unfold guardMask
  cases y.l.isFinite <;> cases y.r.isFinite <;> decide

/-- GUARD: the state passes, or mode m is reset, the fault logged and the pair silent (R200, R502, R505). -/
theorem guardOutput_cases (m : Mode) (s : State) :
    (s.wires.y.l.isFinite = true ∧ s.wires.y.r.isFinite = true ∧ guardOutput m s = s) ∨
    guardOutput m s = ((modeReset m s).log (.guardFault m (guardMask s.wires.y) (frameIndex s.seq))).setY (.both .zero) := by
  by_cases h : guardMask s.wires.y = 0#2
  · exact .inl ⟨(guardMask_eq_zero.1 h).1, (guardMask_eq_zero.1 h).2, by rw [guardOutput, if_pos h]⟩
  · exact .inr (by rw [guardOutput, if_neg h, returnSilent, takeGuardFault])

/-! Refusals (R510). -/

@[simp] theorem refuse_eq (e : Event) (s : State) : refuse e s = (s.mark).log e := rfl

/-! The delay reads that can end a run (R186, R511). -/

/-- SE.READ: both delays finite, or it stops at the first that is not. -/
theorem seRead_cases (s : State) :
    (s.wires.se.d.l.isFinite = true ∧ s.wires.se.d.r.isFinite = true ∧
      seRead s = .next (s.setSeWires
        { s.wires.se with r := Stereo.zip (dlRead s.cfg.seCap) s.se.line s.wires.se.d })) ∨
    (∃ d, (d = s.wires.se.d.l ∨ d = s.wires.se.d.r) ∧ d.isFinite = false ∧ seRead s = .fault (.unmodelledDelay d)) := by
  unfold seRead
  cases hl : s.wires.se.d.l.isFinite with
  | false => exact .inr ⟨_, .inl rfl, hl, rfl⟩
  | true =>
    cases hr : s.wires.se.d.r.isFinite with
    | false => exact .inr ⟨_, .inr rfl, hr, rfl⟩
    | true => exact .inl ⟨rfl, rfl, rfl⟩

/-- SR.PREDLY: the pre-delay is finite, or it stops. -/
theorem srPredly_cases (s : State) :
    ((srPreDelay s.cfg).isFinite = true ∧
      srPredly s = .next ((s.setSr { s.sr with pd := Stereo.zip (dlWrite s.cfg.srCap) s.sr.pd s.wires.sr.h }).setSrWires
        { s.wires.sr with p := s.sr.pd.map fun dl => dlRead s.cfg.srCap dl (srPreDelay s.cfg) })) ∨
    ((srPreDelay s.cfg).isFinite = false ∧ srPredly s = .fault (.unmodelledDelay (srPreDelay s.cfg))) := by
  unfold srPredly
  cases h : (srPreDelay s.cfg).isFinite with
  | false => exact .inr ⟨rfl, rfl⟩
  | true => exact .inl ⟨rfl, rfl⟩

/-- SE.PROCESS: the six stages and the guard, or the stop of its read (R294). -/
theorem seProcess_cases (s : State) :
    ((seDelays s.cfg s.se).l.isFinite = true ∧ (seDelays s.cfg s.se).r.isFinite = true ∧
      seProcess s = .next (guardOutput .se (seOut (seRev (seWrite (seFb ((seMod s).setSeWires
        { (seMod s).wires.se with r := Stereo.zip (dlRead s.cfg.seCap) s.se.line (seDelays s.cfg s.se) }))))))) ∨
    (∃ d, (d = (seDelays s.cfg s.se).l ∨ d = (seDelays s.cfg s.se).r) ∧ d.isFinite = false ∧
      seProcess s = .fault (.unmodelledDelay d)) := by
  rcases seRead_cases (seMod s) with ⟨hl, hr, h⟩ | ⟨d, hm, hd, h⟩
  · exact .inl ⟨hl, hr, by rw [seProcess, h]; rfl⟩
  · exact .inr ⟨d, hm, hd, by rw [seProcess, h]; rfl⟩

/-- With finite delays SE.PROCESS completes. -/
theorem seProcess_next {s : State} (hl : (seDelays s.cfg s.se).l.isFinite = true)
    (hr : (seDelays s.cfg s.se).r.isFinite = true) : ∃ t, seProcess s = .next t := by
  rcases seProcess_cases s with ⟨-, -, e⟩ | ⟨d, rfl | rfl, hd, -⟩
  · exact ⟨_, e⟩
  · rw [hl] at hd; cases hd
  · rw [hr] at hd; cases hd

/-- SR.PROCESS: the seven stages and the guard, or the stop of its pre-delay (R335). -/
theorem srProcess_cases (s : State) :
    ((srPreDelay s.cfg).isFinite = true ∧ ∃ u, srPredly (srHpf s) = .next u ∧
      srProcess s = .next (guardOutput .sr (srOut (srPost (srShift (srAr (srRevin u))))))) ∨
    ((srPreDelay s.cfg).isFinite = false ∧ srProcess s = .fault (.unmodelledDelay (srPreDelay s.cfg))) := by
  rcases srPredly_cases (srHpf s) with ⟨hf, h⟩ | ⟨hf, h⟩
  · exact .inl ⟨hf, _, h, by rw [srProcess, h]; rfl⟩
  · exact .inr ⟨hf, by rw [srProcess, h]; rfl⟩

/-- With a finite pre-delay SR.PROCESS completes. -/
theorem srProcess_next {s : State} (h : (srPreDelay s.cfg).isFinite = true) : ∃ t, srProcess s = .next t := by
  rcases srProcess_cases s with ⟨-, u, -, e⟩ | ⟨hf, -⟩
  · exact ⟨_, e⟩
  · rw [h] at hf; cases hf

/-! Frames of the mode operations: a mode's rows write that mode's state, the wires, and the end of the event log. -/

/-- What a row of mode m leaves alone. -/
structure ModeFrame (m : Mode) (s t : State) : Prop where
  cfg : t.cfg = s.cfg
  seq : t.seq = s.seq
  snap : t.snap = s.snap
  xf : t.xf = s.xf
  lim : t.lim = s.lim
  refused : t.refused = s.refused
  ports : t.ports = s.ports
  row : t.row = s.row
  events : s.events <+: t.events
  fd : m ≠ .fd → t.fd = s.fd
  se : m ≠ .se → t.se = s.se
  sr : m ≠ .sr → t.sr = s.sr
  sh : m ≠ .sh → t.sh = s.sh

theorem ModeFrame.refl (m : Mode) (s : State) : ModeFrame m s s := by constructor <;> intros <;> rfl

theorem ModeFrame.trans {m : Mode} {s t u : State} (h : ModeFrame m s t) (g : ModeFrame m t u) : ModeFrame m s u :=
  ⟨g.cfg.trans h.cfg, g.seq.trans h.seq, g.snap.trans h.snap, g.xf.trans h.xf, g.lim.trans h.lim,
    g.refused.trans h.refused, g.ports.trans h.ports, g.row.trans h.row, h.events.trans g.events,
    fun n => (g.fd n).trans (h.fd n), fun n => (g.se n).trans (h.se n), fun n => (g.sr n).trans (h.sr n),
    fun n => (g.sh n).trans (h.sh n)⟩

/-- Writing FilterDrive and the wires. -/
theorem frame_fd (s : State) (v : FdState) (w : Wires) : ModeFrame .fd s ((s.setFd v).setWires w) := by
  constructor <;> intros <;> first | rfl | contradiction

/-- Writing SpaceEcho and the wires. -/
theorem frame_se (s : State) (v : SeState) (w : Wires) : ModeFrame .se s ((s.setSe v).setWires w) := by
  constructor <;> intros <;> first | rfl | contradiction

/-- Writing ShimmerReverb and the wires. -/
theorem frame_sr (s : State) (v : SrState) (w : Wires) : ModeFrame .sr s ((s.setSr v).setWires w) := by
  constructor <;> intros <;> first | rfl | contradiction

/-- Writing ShepardTone and the wires. -/
theorem frame_sh (s : State) (v : ShState) (w : Wires) : ModeFrame .sh s ((s.setSh v).setWires w) := by
  constructor <;> intros <;> first | rfl | contradiction

/-- Writing FilterDrive alone. -/
theorem frame_setFd (s : State) (v : FdState) : ModeFrame .fd s (s.setFd v) := by
  constructor <;> intros <;> first | rfl | contradiction

/-- Writing SpaceEcho alone. -/
theorem frame_setSe (s : State) (v : SeState) : ModeFrame .se s (s.setSe v) := by
  constructor <;> intros <;> first | rfl | contradiction

/-- Writing ShimmerReverb alone. -/
theorem frame_setSr (s : State) (v : SrState) : ModeFrame .sr s (s.setSr v) := by
  constructor <;> intros <;> first | rfl | contradiction

/-- Writing ShepardTone alone. -/
theorem frame_setSh (s : State) (v : ShState) : ModeFrame .sh s (s.setSh v) := by
  constructor <;> intros <;> first | rfl | contradiction

/-- Writing the wires. -/
theorem frame_wires (m : Mode) (s : State) (w : Wires) : ModeFrame m s (s.setWires w) := by
  constructor <;> intros <;> rfl

/-- GUARD for mode m. -/
theorem frame_guardOutput (m : Mode) (s : State) : ModeFrame m s (guardOutput m s) := by
  rcases guardOutput_cases m s with ⟨-, -, h⟩ | h
  · rw [h]; exact .refl m s
  · rw [h]
    cases m <;> constructor <;> intros <;> first | rfl | contradiction | exact List.prefix_append _ _

/-- FD.PROCESS before its guard (R254). -/
theorem frame_fdStages (s : State) : ModeFrame .fd s (fdComp (fdSvf (fdOs (fdAaf (fdGate s))))) :=
  ((((frame_fd _ _ _).trans (frame_fd _ _ _)).trans (frame_fd _ _ _)).trans (frame_fd _ _ _)).trans (frame_wires _ _ _)

/-- SE.PROCESS after its read, before its guard (R294). -/
theorem frame_seStages (s : State) : ModeFrame .se s (seOut (seRev (seWrite (seFb s)))) :=
  (((frame_se _ _ _).trans (frame_setSe _ _)).trans (frame_se _ _ _)).trans (frame_wires _ _ _)

/-- SR.PROCESS after its pre-delay, before its guard (R335). -/
theorem frame_srStages (s : State) : ModeFrame .sr s (srOut (srPost (srShift (srAr (srRevin s))))) :=
  ((((frame_sr _ _ _).trans (frame_sr _ _ _)).trans (frame_sr _ _ _)).trans (frame_sr _ _ _)).trans (frame_wires _ _ _)

/-- SH.PROCESS before its guard (R375). -/
theorem frame_shStages (s : State) : ModeFrame .sh s (shRev (shTone (shAdv (shSum (shPan (shOsc (shVoice s))))))) :=
  ((((((frame_wires _ _ _).trans (frame_sh _ _ _)).trans (frame_sh _ _ _)).trans (frame_wires _ _ _)).trans
    (frame_setSh _ _)).trans (frame_sh _ _ _)).trans (frame_sh _ _ _)

/-! The process rows. -/

theorem frame_fdProcess (s : State) : ModeFrame .fd s (fdProcess s) :=
  (frame_fdStages s).trans (frame_guardOutput _ _)

theorem frame_seProcess {s t : State} (h : seProcess s = .next t) : ModeFrame .se s t := by
  rcases seProcess_cases s with ⟨-, -, e⟩ | ⟨d, -, -, e⟩
  · rw [e] at h
    cases h
    exact (((frame_se _ _ _).trans (frame_wires _ (seMod s) _)).trans (frame_seStages _)).trans (frame_guardOutput _ _)
  · rw [e] at h; cases h

theorem frame_srProcess {s t : State} (h : srProcess s = .next t) : ModeFrame .sr s t := by
  rcases srProcess_cases s with ⟨-, u, hu, e⟩ | ⟨-, e⟩
  · rw [e] at h
    cases h
    rcases srPredly_cases (srHpf s) with ⟨-, e'⟩ | ⟨-, e'⟩
    · rw [e'] at hu
      cases hu
      exact (((frame_sr _ _ _).trans (frame_sr _ _ _)).trans (frame_srStages _)).trans (frame_guardOutput _ _)
    · rw [e'] at hu; cases hu
  · rw [e] at h; cases h

theorem frame_shProcess (s : State) : ModeFrame .sh s (shProcess s) :=
  (frame_shStages s).trans (frame_guardOutput _ _)

/-- One sample of the active mode (R435, R50). -/
theorem frame_engDispatch {s t : State} (h : engDispatch s = .next t) : ModeFrame s.xf.active s t := by
  unfold engDispatch at h
  cases hm : s.xf.active <;> rw [hm] at h
  · cases h; exact frame_fdProcess s
  · exact frame_seProcess h
  · exact frame_srProcess h
  · cases h; exact frame_shProcess s

/-- The control update of the active mode (R433, R50). -/
theorem frame_engUpdate (s : State) : ModeFrame s.xf.active s (engUpdate s) := by
  unfold engUpdate
  cases s.xf.active
  · exact frame_setFd s _
  · exact frame_setSe s _
  · exact frame_setSr s _
  · exact frame_setSh s _

end Sys2Proof.Machine
end

