-- ==== Sys2Proof/Laws/Ranges.lean ====
section
/-! SUPPORT. Values stay in the ranges of the state tables: mapped knobs, ShimmerReverb's and ShepardTone's control updates, and
the phases (R17, R184, R196, R321, R361, R369, R370, R372). -/

namespace Sys2Proof.Machine

open F32

/-! Mapped knobs. -/

/-- `maplin` stays between its bounds when their distance is exact (R184). -/
theorem maplin_within {k a b : F32} (ha : a.isFinite = true) (hb : b.isFinite = true) (hd : (b.sub a).isFinite = true)
    (hv : (b.sub a).val = b.val - a.val) (h0 : 0 ≤ (b.sub a).val) (hk : inUnit k = true) :
    within a b (maplin k a b) = true := by
  obtain ⟨fk, k0, k1⟩ := inUnit_iff.1 hk
  rw [within_iff ha hb, maplin]
  obtain ⟨fp, -, p1⟩ := mul_unit fk hd (by omega) k1
  have p0 := (mul_le_double fk hd fp).2.1 (mul_nonneg k0 h0)
  rw [mul_swap]
  exact add_between ha fp ha hb (by omega) (by omega)

/-- ShimmerReverb's high-pass target is in [150, 500] Hz (R321). -/
theorem hpTarget_within {k : F32} (hk : inUnit k = true) :
    within (.dec 150 1) (.dec 500 1) (maplin k (.dec 150 1) (.dec 500 1)) = true :=
  maplin_within (by decide +kernel) (by decide +kernel) (by decide +kernel) (by decide +kernel) (by decide +kernel) hk

/-- The reverb feedback is in [0.7, 0.98] (R321). -/
theorem revFb_within {k : F32} (hk : inUnit k = true) :
    within (.dec 7 10) (.dec 98 100) (maplin k (.dec 7 10) (.dec 98 100)) = true :=
  maplin_within (by decide +kernel) (by decide +kernel) (by decide +kernel) (by decide +kernel) (by decide +kernel) hk

/-- A transposition target is in [-12, 12] (R322 to R324). -/
theorem srTrans_within (c : SwPos) : within (F32.dec 12 1).neg (.dec 12 1) (srTrans.at c) = true := by
  cases c <;> decide +kernel

/-- ShepardTone's tone cutoff is in [200, 12200] Hz (R361). -/
theorem shToneTarget_within {k : F32} (hk : inUnit k = true) : within (.dec 200 1) (.dec 12200 1) (shToneTarget k) = true := by
  obtain ⟨fk, k0, k1⟩ := inUnit_iff.1 hk
  have e : (F32.dec 12000 1).isFinite = true ∧ 0 ≤ (F32.dec 12000 1).val ∧ (F32.dec 200 1).isFinite = true ∧
      (F32.dec 12200 1).isFinite = true ∧ (F32.dec 200 1).val + (F32.dec 12000 1).val = (F32.dec 12200 1).val := by
    decide +kernel
  obtain ⟨fM, M0, f2, f3, es⟩ := e
  rw [within_iff f2 f3, shToneTarget]
  generalize F32.dec 12000 1 = M at *
  obtain ⟨fp, -, p1⟩ := mul_unit fk fM (by omega) k1
  rw [mul_swap k M] at fp p1
  have p0 := (mul_le_double fM fk fp).2.1 (mul_nonneg M0 k0)
  generalize M.mul k = p at *
  obtain ⟨fq, -, q1⟩ := mul_unit fk fp (by omega) k1
  rw [mul_swap k p] at fq q1
  have q0 := (mul_le_double fp fk fq).2.1 (mul_nonneg p0 k0)
  exact add_between f2 fq f2 f3 (by omega) (by omega)

/-- ShepardTone's speed is a finite number for a knob in [0, 1] (R361, R11, R184). -/
theorem speed_finite {k : F32} (hk : inUnit k = true) : (mapexp k (.dec 1 100) .one).isFinite = true := by
  rw [inUnit, within, Bool.and_eq_true] at hk
  have e : (F32.one.div (.dec 1 100)).isFinite = true ∧ F32.zero.lt (F32.one.div (.dec 1 100)) = true ∧
      (F32.dec 1 100).isFinite = true ∧ 0 ≤ (F32.dec 1 100).val ∧ (F32.dec 1 100).val ≤ unitsPerOne := by decide +kernel
  have h := Config.math.pow_unit _ k e.1 e.2.1 hk.1 hk.2
  exact (mul_unit e.2.2.1 h.1 (by omega) e.2.2.2.2).1

/-- ShimmerReverb's control update keeps the ranges of table H (R321). -/
theorem srUpdated_ranges (c : Cfg) {k : Snapshot} (m : SrState) (hk : k.ok = true)
    (h : within (.dec 150 1) (.dec 500 1) m.hpSm = true) :
    within (.dec 150 1) (.dec 500 1) (srUpdated c k m).hpT = true ∧
    within (.dec 150 1) (.dec 500 1) (srUpdated c k m).hpSm = true ∧
    within (.dec 7 10) (.dec 98 100) (srUpdated c k m).revFb = true ∧
    within (F32.dec 12 1).neg (.dec 12 1) (srUpdated c k m).pitchT = true := by
  rw [Snapshot.ok, Bool.and_eq_true] at hk
  have e : (F32.dec 1 100).isFinite = true ∧ 0 ≤ (F32.dec 1 100).val ∧ 4 * (F32.dec 1 100).val ≤ unitsPerOne ∧
      (F32.dec 500 1).val - (F32.dec 150 1).val ≤ (F32.dec 500 1).val := by decide +kernel
  exact ⟨hpTarget_within hk.2,
    smoothed_within (by decide +kernel) (by decide +kernel) (by decide +kernel) e.2.2.2 h (hpTarget_within hk.2) e.1 e.2.1
      e.2.2.1,
    revFb_within hk.1, srTrans_within k.swl⟩

/-- With a coefficient of at most 1/4 the smoothed transposition stays in [-12, 12] (R321, R180; assumption 34). -/
theorem srUpdated_pitch {c : Cfg} (k : Snapshot) {m : SrState} (h0 : F32.zero.le c.srPitchSmooth = true)
    (h4 : c.srPitchSmooth.le (.dec 25 100) = true)
    (h : within (F32.dec 12 1).neg (.dec 12 1) m.pitchSm = true) :
    within (F32.dec 12 1).neg (.dec 12 1) (srUpdated c k m).pitchSm = true := by
  have e : (F32.dec 25 100).isFinite = true ∧ 4 * (F32.dec 25 100).val ≤ unitsPerOne ∧
      (F32.dec 12 1).val - (F32.dec 12 1).neg.val ≤ (F32.dec 24 1).val := by decide +kernel
  have hf := isFinite_of_le_of_le rfl e.1 h0 h4
  have l0 := (le_iff rfl hf).1 h0
  have l4 := (le_iff hf e.1).1 h4
  rw [val_zero] at l0
  exact smoothed_within (by decide +kernel) (by decide +kernel) (by decide +kernel) e.2.2 h (srTrans_within k.swl) hf l0
    (by omega)

/-! Phases. -/

theorem inPhase_iff {x : F32} : inPhase x = true ↔ F32.zero.le x = true ∧ x.lt .one = true := by
  rw [inPhase, Bool.and_eq_true]

theorem wrap01_inPhase {x : F32} (hx : x.isFinite = true) : inPhase x.wrap01 = true := inPhase_iff.2 (wrap01_spec hx)

/-- A datum in [0, 1) is finite and in [0, 1]. -/
theorem inUnit_of_inPhase {x : F32} (h : inPhase x = true) : inUnit x = true := by
  obtain ⟨h0, h1⟩ := inPhase_iff.1 h
  rw [inUnit, within, Bool.and_eq_true]
  refine ⟨h0, ?_⟩
  rcases le_total (not_isNaN_of_le h0).2 (y := .one) rfl with h | h
  · exact h
  · rw [lt_eq_not_le (not_isNaN_of_le h0).2 rfl, h] at h1; cases h1

/-- A phase moved by a finite amount and wrapped is a phase. -/
theorem moved_inPhase {p d : F32} (hp : inPhase p = true) (hd : d.isFinite = true) : inPhase (p.add d).wrap01 = true := by
  obtain ⟨fp, p0, p1⟩ := inUnit_iff.1 (inUnit_of_inPhase hp)
  exact wrap01_inPhase (add_finite_of_unit fp hd (by omega) p1)

/-- A whole number of at most 2^24 is exact in binary32 (R12). -/
theorem ofInt_exact (k : Int) (h : k.natAbs ≤ 2^24) : (ofInt k).isFinite = true ∧ (ofInt k).val = k * unitsPerOne := by
  obtain ⟨m, hm⟩ := exists_units 149 k.natAbs h
  change units m = k.natAbs * unitsPerOne at hm
  refine ⟨ofInt_finite h, ?_⟩
  have hlt : roundMag (units m) 1 < 0x7F800000 := by
    rw [hm]
    calc roundMag (k.natAbs * unitsPerOne) 1 ≤ roundMag (2 ^ 24 * unitsPerOne) 1 :=
          roundMag_mono Nat.one_pos Nat.one_pos (Nat.mul_le_mul_right _ (Nat.mul_le_mul_right _ h))
      _ < 0x7F800000 := by decide +kernel
  rw [ofInt, if_neg (by omega), ← hm, F32.round, ofMag_of_lt hlt, val_fin, signedUnits]
  simp only [roundMag_units]
  rw [hm]
  generalize unitsPerOne = U
  push_cast
  by_cases hk : k < 0
  · simp only [hk, decide_true, if_true]
    rw [abs_of_neg hk]; ring
  · simp only [hk, decide_false]
    rw [abs_of_nonneg (by omega)]; simp

/-- Finite data of one value are the same number. -/
theorem sameNumber_of_val {x y : F32} (hx : x.isFinite = true) (hy : y.isFinite = true) (h : x.val = y.val) : sameNumber x y := by
  obtain ⟨s, m, rfl⟩ := fin_of_isFinite hx
  obtain ⟨t, n, rfl⟩ := fin_of_isFinite hy
  rw [val_fin, val_fin, signedUnits, signedUnits] at h
  by_cases hz : units m.val = 0
  · right
    have : units n.val = 0 := by cases s <;> cases t <;> simp at h <;> omega
    have a := units_eq_zero.1 hz
    have b := units_eq_zero.1 this
    exact ⟨by simp [F32.isZero, a], by simp [F32.isZero, b]⟩
  · left
    have e : units m.val = units n.val ∧ s = t := by cases s <;> cases t <;> simp at h ⊢ <;> omega
    have : m.val = n.val := le_antisymm (units_le_iff.1 (le_of_eq e.1)) (units_le_iff.1 (le_of_eq e.1.symm))
    rw [e.2, Fin.ext this]

/-- A positive integer as binary32: an infinity, or a number of at least 1 (R12). -/
theorem ofInt_pos {n : Nat} (h : 0 < n) :
    F32.ofInt n = .inf false ∨ ((F32.ofInt n).isFinite = true ∧ (unitsPerOne : Int) ≤ (F32.ofInt n).val) := by
  have hs : decide ((n : Int) < 0) = false := by simp
  rw [F32.ofInt, hs, Int.natAbs_natCast]
  split
  · exact .inl rfl
  · by_cases hm : roundMag (n * unitsPerOne) 1 < 0x7F800000
    · right
      rw [F32.round, ofMag_of_lt hm]
      refine ⟨rfl, ?_⟩
      rw [val_fin_false]
      have : units 0x3F800000 ≤ units (roundMag (n * unitsPerOne) 1) := by
        refine units_le_iff.2 (le_roundMag Nat.one_pos ?_)
        rw [show units 0x3F800000 = unitsPerOne by decide +kernel, Nat.mul_one]
        exact Nat.le_mul_of_pos_left _ h
      rw [show units 0x3F800000 = unitsPerOne by decide +kernel] at this
      exact_mod_cast this
    · left; rw [F32.round, F32.ofMag, dif_neg hm]

/-- A finite datum over a positive sample rate is finite. -/
theorem div_rate_finite {x : F32} {n : Nat} (hx : x.isFinite = true) (h : 0 < n) : (x.div (.ofInt n)).isFinite = true := by
  rcases ofInt_pos h with e | ⟨hf, hv⟩
  · rw [e]; obtain ⟨s, m, rfl⟩ := fin_of_isFinite hx; rfl
  · have hU : (0 : Int) < unitsPerOne := by exact_mod_cast unitsPerOne_pos
    have hl : ∃ c : F32, c.isFinite = true ∧ c.val = x.val.natAbs := by
      obtain ⟨t, m, rfl⟩ := fin_of_isFinite hx
      exact ⟨.fin false m, rfl, by cases t <;> simp⟩
    obtain ⟨c, hc, hcv⟩ := hl
    generalize F32.ofInt n = y at *
    have key : -(x.val.natAbs : Int) * y.val ≤ x.val * unitsPerOne ∧ x.val * unitsPerOne ≤ x.val.natAbs * y.val := by
      have h1 : (x.val.natAbs : Int) * unitsPerOne ≤ x.val.natAbs * y.val :=
        Int.mul_le_mul_of_nonneg_left hv (Int.natCast_nonneg _)
      have h2 : x.val * unitsPerOne ≤ x.val.natAbs * unitsPerOne :=
        Int.mul_le_mul_of_nonneg_right (by omega) (Int.le_of_lt hU)
      have h3 : -(x.val.natAbs : Int) * unitsPerOne ≤ x.val * unitsPerOne :=
        Int.mul_le_mul_of_nonneg_right (by omega) (Int.le_of_lt hU)
      rw [Int.neg_mul] at h3 ⊢
      exact ⟨by omega, by omega⟩
    exact (div_between hx hf (by omega) (lo := c.neg) (hi := c) (by rwa [isFinite_neg]) hc (by rw [val_neg, hcv]; exact key.1)
      (by rw [hcv]; exact key.2)).1

/-- An LFO step keeps its phase in [0, 1) (R196). -/
theorem stepPhase_inPhase {c : Cfg} {ph rate : F32} (hc : 0 < c.fs) (hp : inPhase ph = true) (hr : rate.isFinite = true) :
    inPhase (stepPhase c ph rate) = true := moved_inPhase hp (div_rate_finite hr hc)

/-- ShepardTone's pitch increment is finite (R362 to R364). -/
theorem shDelta_finite {c : Cfg} {speed : F32} (hc : 0 < c.fs) (hs : speed.isFinite = true) (d : SwPos) :
    (shDelta c speed d).isFinite = true := by
  cases d
  · exact div_rate_finite hs hc
  · rfl
  · rw [shDelta, isFinite_neg]; exact div_rate_finite hs hc

/-- What `Cfg.ok` says that the phases need. -/
theorem rates_of_ok {c : Cfg} (h : c.ok = true) :
    0 < c.fs ∧ c.approx.seFlutHz.isFinite = true ∧ c.approx.seDriftHz.isFinite = true ∧ c.shPanRate.isFinite = true := by
  simp only [Cfg.ok, Bool.and_eq_true, decide_eq_true_eq, List.all_eq_true] at h
  refine ⟨by tauto, ?_, ?_, ?_⟩ <;> exact h.2 _ (by simp [Cfg.numbers])

/-- The rows that advance phases keep them in [0, 1) (R288, R370, R372). -/
theorem phasesOk_rows {s : State} (hc : s.cfg.ok = true) (h : phasesOk s = true) :
    phasesOk (seMod s) = true ∧ phasesOk (shPan s) = true ∧ phasesOk (shAdv s) = true := by
  obtain ⟨hf, r1, r2, r3⟩ := rates_of_ok hc
  simp only [phasesOk, Bool.and_eq_true] at h
  obtain ⟨⟨⟨⟨h1, h2⟩, h3⟩, h4⟩, h5⟩ := h
  refine ⟨?_, ?_, ?_⟩ <;> simp only [phasesOk, Bool.and_eq_true]
  · exact ⟨⟨⟨⟨stepPhase_inPhase hf h1 r1, stepPhase_inPhase hf h2 r2⟩, h3⟩, h4⟩, h5⟩
  · exact ⟨⟨⟨⟨h1, h2⟩, stepPhase_inPhase hf h3 r3⟩, h4⟩, h5⟩
  · refine ⟨⟨⟨⟨h1, h2⟩, h3⟩, ?_⟩, h5⟩
    have hd := shDelta_finite hf h5 s.sh.dir
    simp only [List.all_eq_true, Oct.toList, List.mem_cons, List.not_mem_nil, or_false, forall_eq_or_imp, forall_eq] at h4
    obtain ⟨p0, p1, p2, p3, p4, p5, p6, p7⟩ := h4
    simp only [List.all_eq_true, shAdv, State.setSh, Oct.map, Oct.toList, List.mem_cons, List.not_mem_nil, or_false,
      forall_eq_or_imp, forall_eq]
    exact ⟨moved_inPhase p0 hd, moved_inPhase p1 hd, moved_inPhase p2 hd, moved_inPhase p3 hd, moved_inPhase p4 hd,
      moved_inPhase p5 hd, moved_inPhase p6 hd, moved_inPhase p7 hd⟩

end Sys2Proof.Machine
end

