-- ==== Sys2Proof/Laws/Echo.lean ====
section
/-! SUPPORT. SpaceEcho's read delays are finite numbers when its settings are of ordinary size, and stay so through a
control update and the frames of a block (R186, R281, R288). -/

namespace Sys2Proof.Machine

open F32

/-- A datum between `-b` and `b` units of 1.0. -/
def Small (b : Nat) (x : F32) : Prop :=
  x.isFinite = true ∧ -(b * (unitsPerOne : Int)) ≤ x.val ∧ x.val ≤ b * (unitsPerOne : Int)

theorem small_of_within {b : Nat} (hf : (F32.dec b 1).isFinite = true) (hv : (F32.dec b 1).val = b * (unitsPerOne : Int))
    {x : F32} (h : within (F32.dec b 1).neg (.dec b 1) x = true) : Small b x := by
  have := (within_iff (by rwa [isFinite_neg]) hf).1 h
  rw [val_neg, hv] at this
  exact this

theorem small_of_inUnit {x : F32} (h : inUnit x = true) : Small 1 x := by
  obtain ⟨f, l, u⟩ := inUnit_iff.1 h
  refine ⟨f, ?_, ?_⟩ <;> rw [Nat.cast_one, one_mul] <;> omega

theorem small_of_one {x : F32} (h1 : F32.one.neg.le x = true) (h2 : x.le .one = true) : Small 1 x := by
  have hw : within F32.one.neg .one x = true := by rw [within, h1, h2]; rfl
  have := (within_iff rfl rfl).1 hw
  rw [val_neg, val_one] at this
  refine ⟨this.1, ?_, ?_⟩ <;> rw [Nat.cast_one, one_mul]
  · exact this.2.1
  · exact this.2.2

/-- A power of two that binary32 holds. -/
def Exact (b : Nat) : Prop := (F32.dec b 1).isFinite = true ∧ (F32.dec b 1).val = b * (unitsPerOne : Int)

theorem small_add {a b c : Nat} (hc : Exact c) (h : a + b ≤ c) {x y : F32} (hx : Small a x) (hy : Small b y) :
    Small c (x.add y) := by
  obtain ⟨fx, x1, x2⟩ := hx
  obtain ⟨fy, y1, y2⟩ := hy
  have hU : (0 : Int) ≤ unitsPerOne := Int.natCast_nonneg _
  have e : (a : Int) * unitsPerOne + b * unitsPerOne ≤ c * unitsPerOne := by
    rw [← Int.add_mul]; exact Int.mul_le_mul_of_nonneg_right (by exact_mod_cast h) hU
  have := add_between fx fy (lo := (F32.dec c 1).neg) (hi := .dec c 1) (by rw [isFinite_neg]; exact hc.1) hc.1
    (by rw [val_neg, hc.2]; omega) (by rw [hc.2]; omega)
  rwa [val_neg, hc.2] at this

theorem product_bound (a b c : Nat) (x y U : Int) (hU : 0 ≤ U) (h : a * b ≤ c) (x1 : -(a * U) ≤ x) (x2 : x ≤ a * U)
    (y1 : -(b * U) ≤ y) (y2 : y ≤ b * U) : -(c * U * U) ≤ x * y ∧ x * y ≤ c * U * U := by
  rw [← abs_le, abs_mul]
  calc |x| * |y| ≤ (a * U) * (b * U) := mul_le_mul (abs_le.2 ⟨x1, x2⟩) (abs_le.2 ⟨y1, y2⟩) (abs_nonneg _) (by positivity)
    _ = ((a * b : Nat) : Int) * U * U := by push_cast; ring
    _ ≤ c * U * U := by
      have : ((a * b : Nat) : Int) ≤ c := by exact_mod_cast h
      gcongr

theorem small_mul {a b c : Nat} (hc : Exact c) (h : a * b ≤ c) {x y : F32} (hx : Small a x) (hy : Small b y) :
    Small c (x.mul y) := by
  obtain ⟨fx, x1, x2⟩ := hx
  obtain ⟨fy, y1, y2⟩ := hy
  have hU : (0 : Int) ≤ unitsPerOne := Int.natCast_nonneg _
  have hp' := product_bound a b c _ _ _ hU h x1 x2 y1 y2
  have := mul_between fx fy (lo := (F32.dec c 1).neg) (hi := .dec c 1) (by rw [isFinite_neg]; exact hc.1) hc.1
    (by rw [val_neg, hc.2, Int.neg_mul]; exact hp'.1) (by rw [hc.2]; exact hp'.2)
  rwa [val_neg, hc.2] at this

theorem exact_1 : Exact 1 := by constructor <;> decide +kernel
theorem exact_2 : Exact 2 := by constructor <;> decide +kernel
theorem exact_4 : Exact 4 := by constructor <;> decide +kernel
theorem exact_8 : Exact 8 := by constructor <;> decide +kernel
theorem exact_1M : Exact 1048576 := by constructor <;> decide +kernel
theorem exact_2M : Exact 2097152 := by constructor <;> decide +kernel
theorem exact_4M : Exact 4194304 := by constructor <;> decide +kernel
theorem exact_8M : Exact 8388608 := by constructor <;> decide +kernel
theorem exact_16M : Exact 16777216 := by constructor <;> decide +kernel
theorem exact_2pow47 : Exact 140737488355328 := by constructor <;> decide +kernel

theorem small_mono {a b : Nat} (h : a ≤ b) {x : F32} (hx : Small a x) : Small b x := by
  obtain ⟨f, l, u⟩ := hx
  have : (a : Int) * unitsPerOne ≤ b * unitsPerOne :=
    Int.mul_le_mul_of_nonneg_right (by exact_mod_cast h) (Int.natCast_nonneg _)
  exact ⟨f, by omega, by omega⟩

theorem small_neg {a : Nat} {x : F32} (hx : Small a x) : Small a x.neg := by
  obtain ⟨f, l, u⟩ := hx
  exact ⟨by rwa [isFinite_neg], by rw [val_neg]; omega, by rw [val_neg]; omega⟩

theorem small_abs {a : Nat} {x : F32} (hx : Small a x) : Small a x.abs := by
  rcases x with _ | s | ⟨s, m⟩
  · exact absurd hx.1 (by decide)
  · exact absurd hx.1 (by cases s <;> decide)
  · cases s
    · exact hx
    · exact small_neg hx

/-- The wow LFO of a phase in [0, 1] (R197). -/
theorem small_triPhase {ph : F32} (h : inUnit ph = true) : Small 16 (triPhase ph) := by
  have h5 : Small 1 (F32.dec 5 10).neg := by
    refine small_neg (small_of_inUnit ?_); decide +kernel
  have h4 : Small 4 (F32.dec 4 1) := ⟨by decide +kernel, by decide +kernel, by decide +kernel⟩
  have h1 : Small 1 F32.one.neg := small_neg (small_of_inUnit (by decide))
  have e16 : Exact 16 := by constructor <;> decide +kernel
  have a := small_abs (small_add exact_2 (by decide) (small_of_inUnit h) h5)
  exact small_add e16 (by decide) (small_mul exact_8 (by decide) h4 a) h1

/-- The sine LFO of a phase in [0, 1] (R196). -/
theorem small_sinPhase {ph : F32} (h : inUnit ph = true) : Small 1 (sinPhase ph) := by
  have hp : Small 8 F32.twoPi := ⟨by decide +kernel, by decide +kernel, by decide +kernel⟩
  have a := small_mul exact_8 (by decide) hp (small_of_inUnit h)
  obtain ⟨l, u⟩ := Config.math.sin_bound _ a.1
  exact small_of_one l u

theorem small_noise (n : NoiseState) : Small 1 (noiseNext n).2 :=
  small_of_one (Config.noise.bounded n.sig).1 (Config.noise.bounded n.sig).2

theorem small_setting {x : F32} (h : within (F32.dec 1048576 1).neg (.dec 1048576 1) x = true) : Small 1048576 x :=
  small_of_within exact_1M.1 exact_1M.2 h

/-- A natural number of at most 2^24 as binary32 (R12). -/
theorem small_ofNat {n : Nat} (h : n ≤ 2 ^ 24) : Small 33554432 (F32.ofInt n) := by
  have hf : (F32.ofInt n).isFinite = true := ofInt_finite (by omega)
  have e : F32.ofInt n = F32.round false (n * unitsPerOne) 1 := by
    rw [F32.ofInt, if_neg (by omega), show decide ((n : Int) < 0) = false by simp, Int.natAbs_natCast]
  obtain ⟨m, hm, l, u⟩ := round_between (s := false) (a := n * unitsPerOne) (b := 1) (lo := .zero)
    (hi := .dec 16777216 1) Nat.one_pos rfl exact_16M.1
    (by rw [val_zero]; simp only [F32.exact, Bool.false_eq_true, if_false]; omega)
    (by
      rw [exact_16M.2]
      simp only [F32.exact, Bool.false_eq_true, if_false]
      have : n * unitsPerOne ≤ 16777216 * unitsPerOne := Nat.mul_le_mul_right _ h
      push_cast at this ⊢
      omega)
  rw [e, hm]
  rw [exact_16M.2] at u
  rw [val_zero] at l
  exact small_mono (a := 16777216) (by decide) ⟨rfl, by omega, u⟩

/-- What bounds SpaceEcho's read delays: the settings of the instance, the smoothed delay time and the LFO phases. -/
structure EchoBounded (c : Cfg) (m : SeState) : Prop where
  rate : 0 < c.fs ∧ c.fs ≤ 2 ^ 24
  flutDepth : Small 1048576 c.seFlutDepth
  noiseDepth : Small 1048576 c.seNoiseDepth
  driftDepth : Small 1048576 c.seDriftDepth
  offset : Small 1048576 c.approx.seROffset
  bandLo : ∀ k, Small 1048576 (c.seBandLo.at k)
  bandHi : ∀ k, Small 1048576 (c.seBandHi.at k)
  lfoRates : c.approx.seFlutHz.isFinite = true ∧ c.approx.seDriftHz.isFinite = true
  time : Small 16777216 m.tSm
  flutPhase : inUnit m.flutPh = true
  driftPhase : inUnit m.driftPh = true

theorem exact_32M : Exact 33554432 := by constructor <;> decide +kernel
theorem exact_64M : Exact 67108864 := by constructor <;> decide +kernel
theorem exact_128M : Exact 134217728 := by constructor <;> decide +kernel
theorem exact_256M : Exact 268435456 := by constructor <;> decide +kernel
theorem exact_2pow53 : Exact 9007199254740992 := by constructor <;> decide +kernel

/-- The delay in seconds (R288). -/
theorem EchoBounded.seconds {c : Cfg} {m : SeState} (h : EchoBounded c m) : Small 134217728 (seDelaySeconds c m) := by
  have flutter := small_mul exact_1M (by decide) h.flutDepth (small_sinPhase h.flutPhase)
  have hiss := small_mul exact_1M (by decide) h.noiseDepth (small_noise m.noise)
  have drift := small_mul exact_16M (by decide) h.driftDepth (small_triPhase h.driftPhase)
  exact small_add exact_128M (by decide)
    (small_add exact_64M (by decide) (small_add exact_32M (by decide) h.time flutter) hiss) drift

/-- Both read delays are finite (R186, R288). -/
theorem EchoBounded.delays_finite {c : Cfg} {m : SeState} (h : EchoBounded c m) :
    (seDelays c m).l.isFinite = true ∧ (seDelays c m).r.isFinite = true := by
  have hf : Small 33554432 c.fsf := small_ofNat h.rate.2
  exact ⟨(small_mul exact_2pow53 (by decide) h.seconds hf).1,
    (small_mul exact_2pow53 (by decide) (small_add exact_256M (by decide) h.seconds h.offset) hf).1⟩

/-- Only the settings, the time and the phases count. -/
theorem EchoBounded.of_eq {c : Cfg} {m n : SeState} (h : EchoBounded c m) (ht : n.tSm = m.tSm)
    (hf : n.flutPh = m.flutPh) (hd : n.driftPh = m.driftPh) : EchoBounded c n :=
  { h with time := ht ▸ h.time, flutPhase := hf ▸ h.flutPhase, driftPhase := hd ▸ h.driftPhase }

/-- A phase in [0, 1] that an LFO moves is in [0, 1] (R196). -/
theorem stepPhase_inUnit {c : Cfg} {ph rate : F32} (hc : 0 < c.fs) (hp : inUnit ph = true) (hr : rate.isFinite = true) :
    inUnit (stepPhase c ph rate) = true := by
  obtain ⟨fp, p0, p1⟩ := inUnit_iff.1 hp
  exact inUnit_of_inPhase (wrap01_inPhase (add_finite_of_unit fp (div_rate_finite hr hc) (by omega) p1))

/-- SE.MOD keeps the bounds (R288). -/
theorem EchoBounded.seMod {s : State} (h : EchoBounded s.cfg s.se) : EchoBounded s.cfg (Machine.seMod s).se :=
  { h with
    flutPhase := stepPhase_inUnit h.rate.1 h.flutPhase h.lfoRates.1
    driftPhase := stepPhase_inUnit h.rate.1 h.driftPhase h.lfoRates.2 }

theorem inUnit_zero : inUnit F32.zero = true := by decide

/-- SpaceEcho's initial configuration meets them where another state of the same instance does (R295). -/
theorem EchoBounded.init {c : Cfg} {m : SeState} (h : EchoBounded c m) : EchoBounded c (seInit c) :=
  { h with time := small_mono (by decide) (h.bandLo .p0), flutPhase := inUnit_zero, driftPhase := inUnit_zero }

/-- GUARD keeps them, whether it resets the mode or not (R200). -/
theorem EchoBounded.guard {s : State} (h : EchoBounded s.cfg s.se) :
    EchoBounded (guardOutput .se s).cfg (guardOutput .se s).se := by
  rcases guardOutput_cases .se s with ⟨-, -, e⟩ | e <;> rw [e]
  · exact h
  · exact h.init

/-- The stages after the read keep them: they write neither the delay time nor a phase (R290 to R293). -/
theorem EchoBounded.stages {s : State} (h : EchoBounded s.cfg s.se) :
    EchoBounded (seOut (seRev (seWrite (seFb s)))).cfg (seOut (seRev (seWrite (seFb s)))).se := by
  have fb : ∀ u : State, EchoBounded u.cfg u.se → EchoBounded (seFb u).cfg (seFb u).se := fun _ b => b.of_eq rfl rfl rfl
  have wr : ∀ u : State, EchoBounded u.cfg u.se → EchoBounded (seWrite u).cfg (seWrite u).se :=
    fun _ b => b.of_eq rfl rfl rfl
  have rv : ∀ u : State, EchoBounded u.cfg u.se → EchoBounded (seRev u).cfg (seRev u).se := fun _ b => b.of_eq rfl rfl rfl
  have out : ∀ u : State, EchoBounded u.cfg u.se → EchoBounded (seOut u).cfg (seOut u).se := fun _ b => b.of_eq rfl rfl rfl
  exact out _ (rv _ (wr _ (fb _ h)))

/-- SE.PROCESS completes within the bounds, and keeps them (R294). -/
theorem EchoBounded.process {s : State} (h : EchoBounded s.cfg s.se) :
    ∃ t, seProcess s = .next t ∧ EchoBounded t.cfg t.se := by
  obtain ⟨fl, fr⟩ := h.delays_finite
  rcases seProcess_cases s with ⟨-, -, e⟩ | ⟨d, hd, hn, -⟩
  · exact ⟨_, e, .guard (.stages (s := (Machine.seMod s).setSeWires _) h.seMod)⟩
  · rcases hd with rfl | rfl
    · rw [fl] at hn; cases hn
    · rw [fr] at hn; cases hn

theorem small_band {t : Tri F32} (h0 : Small 1048576 t.a0) (h1 : Small 1048576 t.a1) (h2 : Small 1048576 t.a2)
    (k : SwPos) : Small 1048576 (t.at k) := by
  cases k
  · exact h0
  · exact h1
  · exact h2

/-- `echoTame` in the form of the bounds, with the delay time a sixteenth of what they allow. -/
theorem bounded_of_echoTame {s : State} (h : echoTame s = true) :
    EchoBounded s.cfg s.se ∧ Small 1048576 s.se.tSm := by
  simp only [echoTame, Bool.and_eq_true, decide_eq_true_eq, and_assoc] at h
  obtain ⟨r0, r1, flut, noise, drift, off, lo0, lo1, lo2, hi0, hi1, hi2, time, fp, dp, fr, dr⟩ := h
  exact ⟨{
    rate := ⟨r0, r1⟩, flutDepth := small_setting flut, noiseDepth := small_setting noise
    driftDepth := small_setting drift, offset := small_setting off
    bandLo := small_band (small_setting lo0) (small_setting lo1) (small_setting lo2)
    bandHi := small_band (small_setting hi0) (small_setting hi1) (small_setting hi2)
    lfoRates := ⟨fr, dr⟩, time := small_mono (by decide) (small_setting time), flutPhase := fp, driftPhase := dp },
    small_setting time⟩

/-- The control update of a tame SpaceEcho stays within the bounds (R281). -/
theorem bounded_seUpdated {s : State} (h : echoTame s = true) {k : Snapshot} (hk : inUnit k.ktop = true) :
    EchoBounded s.cfg (seUpdated s.cfg k s.se) := by
  obtain ⟨b, ht⟩ := bounded_of_echoTame h
  have width := small_add exact_2M (by decide) (b.bandHi k.swl) (small_neg (b.bandLo k.swl))
  have target : Small 4194304 (seDelayTarget s.cfg k) :=
    small_add exact_4M (by decide) (b.bandLo k.swl) (small_mul exact_2M (by decide) width (small_of_inUnit hk))
  have gap := small_add exact_8M (by decide) target (small_neg ht)
  have coefficient : Small 1 (F32.dec 5 100) := small_of_inUnit (by decide +kernel)
  have time : Small 16777216 (smoothed s.se.tSm (seDelayTarget s.cfg k) (.dec 5 100)) :=
    small_add exact_16M (by decide) ht (small_mul exact_8M (by decide) coefficient gap)
  exact { b with time := time }

/-- SpaceEcho's read delays are finite (R186, R288). -/
theorem seDelays_finite {s : State} (h : echoTame s = true) :
    (seDelays s.cfg s.se).l.isFinite = true ∧ (seDelays s.cfg s.se).r.isFinite = true :=
  (bounded_of_echoTame h).1.delays_finite

end Sys2Proof.Machine
end

