-- ==== Sys2Proof/Laws/Encoding.lean ====
section
/-! SUPPORT. The fields of a BLOCK's command word and its payload (R131, R137, R148). -/

namespace Sys2Proof

/-- Every field of a BLOCK's command word reads back (R131). -/
theorem blockWord_fields (enc : BitVec 16) (press : Bool) (swl swr : BitVec 2) :
    cwOp (blockWord enc press swl swr) = 2#4 ∧ cwSwl (blockWord enc press swl swr) = swl ∧
    cwSwr (blockWord enc press swl swr) = swr ∧ cwPress (blockWord enc press swl swr) = press ∧
    cwRsv (blockWord enc press swl swr) = 0#7 ∧ cwEnc (blockWord enc press swl swr) = enc := by
  unfold cwOp cwSwl cwSwr cwPress cwRsv cwEnc blockWord
  refine ⟨?_, ?_, ?_, ?_, ?_, ?_⟩
  on_goal 4 => simp only [BitVec.getLsbD_append, BitVec.getLsbD_ofBool]; simp
  all_goals
    apply BitVec.eq_of_getLsbD_eq
    intro i hi
    simp only [BitVec.getLsbD_extractLsb', BitVec.getLsbD_append, BitVec.getLsbD_ofBool, BitVec.getLsbD_zero]
    interval_cases i <;> simp

/-- A command word with OP 2 and RSV 0 is the BLOCK word of its fields (R131, R136). -/
theorem blockWord_of_fields (w : Word) (h1 : cwOp w = 2#4) (h2 : cwRsv w = 0#7) :
    blockWord (cwEnc w) (cwPress w) (cwSwl w) (cwSwr w) = w := by
  unfold cwOp cwRsv at *
  unfold cwSwl cwSwr cwPress cwEnc blockWord
  have e1 : ∀ i, i < 4 → w.getLsbD i = (2#4).getLsbD i := fun i hi => by
    rw [← h1]; simp only [BitVec.getLsbD_extractLsb', hi]; simp
  have e2 : ∀ i, 9 ≤ i → i < 16 → w.getLsbD i = false := fun i h hi => by
    have e : (0#7).getLsbD (i - 9) = w.getLsbD (9 + (i - 9)) := by
      rw [← h2]; simp only [BitVec.getLsbD_extractLsb', show i - 9 < 7 by omega]; simp
    rw [show 9 + (i - 9) = i by omega, BitVec.getLsbD_zero] at e
    exact e.symm
  apply BitVec.eq_of_getLsbD_eq
  intro i hi
  simp only [BitVec.getLsbD_append, BitVec.getLsbD_extractLsb', BitVec.getLsbD_ofBool, BitVec.getLsbD_zero]
  by_cases h4 : i < 4
  · rw [e1 i h4]; simp [h4]
  · by_cases h9 : 9 ≤ i ∧ i < 16
    · rw [e2 i h9.1 h9.2]; obtain ⟨a, b⟩ := h9; interval_cases i <;> simp
    · interval_cases i <;> simp_all

/-- A RESET's command word is the one with OP 1 and nothing above (R136). -/
theorem resetWord_of_fields (w : Word) (h1 : cwOp w = 1#4) (h2 : cwAboveOp w = 0#28) : w = resetWord := by
  unfold cwOp cwAboveOp at *
  apply BitVec.eq_of_getLsbD_eq
  intro i hi
  by_cases h4 : i < 4
  · have e : w.getLsbD i = (1#4).getLsbD i := by rw [← h1]; simp only [BitVec.getLsbD_extractLsb', h4]; simp
    rw [e]; unfold resetWord; interval_cases i <;> rfl
  · have e : (0#28).getLsbD (i - 4) = w.getLsbD (4 + (i - 4)) := by
      rw [← h2]; simp only [BitVec.getLsbD_extractLsb', show i - 4 < 28 by omega]; simp
    rw [show 4 + (i - 4) = i by omega, BitVec.getLsbD_zero] at e
    rw [← e]; unfold resetWord; interval_cases i <;> rfl

@[simp] theorem length_samplesOf (fs : List (Stereo Word)) : (samplesOf fs).length = 2 * fs.length := by
  induction fs with
  | nil => rfl
  | cons f rest ih => simp only [samplesOf, List.length_cons, ih]; omega

/-- Frames read back from their sample words (R137). -/
@[simp] theorem framesOf_samplesOf (fs : List (Stereo Word)) : framesOf (samplesOf fs) = fs := by
  induction fs with
  | nil => rfl
  | cons f rest ih => simp only [samplesOf, framesOf, ih]

/-- An even number of sample words reads back from its frames (R137). -/
theorem samplesOf_framesOf : ∀ (n : Nat) (ws : List Word), ws.length = 2 * n → samplesOf (framesOf ws) = ws
  | 0, [], _ => rfl
  | n + 1, l :: r :: rest, h => by
    have : rest.length = 2 * n := by simp only [List.length_cons] at h; omega
    simp only [framesOf, samplesOf, samplesOf_framesOf n rest this]
  | n + 1, [_], h => by simp at h; omega

end Sys2Proof
end

