-- ==== Sys2Proof/Laws/PerInstr.lean ====
section
/-! SUPPORT. The per-instruction family RowFits: an instruction's encoding is a command word of its own opcode, or a selector
that picks its row. -/

namespace Sys2Proof.Laws

/-- What the encoding of an instruction looks like (R131, R132, R142, R143): RESET and BLOCK are command words with OP 1
and 2, every other instruction is the row its selector picks in its slot. -/
def RowFits.Statement (i : Instr) : Prop :=
  match encode i with
  | .command words => ∃ cw rest, words = cw :: rest ∧ (cwOp cw = 1#4 ∧ i = .reset ∨ cwOp cw = 2#4 ∧ i ≠ .reset)
  | .select slot sel => decodeRow slot sel = some i

theorem RowFits.reset : Statement .reset := ⟨resetWord, [], rfl, .inl ⟨by decide, rfl⟩⟩
theorem RowFits.block (enc : BitVec 16) (press : Bool) (swl swr : BitVec 2) (ktop kbot : Word)
    (frames : List (Stereo Word)) : Statement (.block enc press swl swr ktop kbot frames) :=
  ⟨_, _, rfl, .inr ⟨(blockWord_fields enc press swl swr).1, by intro h; cases h⟩⟩
theorem RowFits.fdUpdate : Statement .fdUpdate := rfl
theorem RowFits.fdProcess : Statement .fdProcess := rfl
theorem RowFits.fdWarm : Statement .fdWarm := rfl
theorem RowFits.fdHard : Statement .fdHard := rfl
theorem RowFits.fdDestroy : Statement .fdDestroy := rfl
theorem RowFits.fdTapLp : Statement .fdTapLp := rfl
theorem RowFits.fdTapBp : Statement .fdTapBp := rfl
theorem RowFits.fdTapHp : Statement .fdTapHp := rfl
theorem RowFits.fdGate : Statement .fdGate := rfl
theorem RowFits.fdAaf : Statement .fdAaf := rfl
theorem RowFits.fdOs : Statement .fdOs := rfl
theorem RowFits.fdDrive : Statement .fdDrive := rfl
theorem RowFits.fdSvf : Statement .fdSvf := rfl
theorem RowFits.fdComp : Statement .fdComp := rfl
theorem RowFits.seUpdate : Statement .seUpdate := rfl
theorem RowFits.seProcess : Statement .seProcess := rfl
theorem RowFits.seShort : Statement .seShort := rfl
theorem RowFits.seMed : Statement .seMed := rfl
theorem RowFits.seLong : Statement .seLong := rfl
theorem RowFits.seBright : Statement .seBright := rfl
theorem RowFits.seNormal : Statement .seNormal := rfl
theorem RowFits.seDark : Statement .seDark := rfl
theorem RowFits.seMod : Statement .seMod := rfl
theorem RowFits.seRead : Statement .seRead := rfl
theorem RowFits.seFb : Statement .seFb := rfl
theorem RowFits.seWrite : Statement .seWrite := rfl
theorem RowFits.seRev : Statement .seRev := rfl
theorem RowFits.seOut : Statement .seOut := rfl
theorem RowFits.srUpdate : Statement .srUpdate := rfl
theorem RowFits.srProcess : Statement .srProcess := rfl
theorem RowFits.srUp12 : Statement .srUp12 := rfl
theorem RowFits.srDn12 : Statement .srDn12 := rfl
theorem RowFits.srUp7 : Statement .srUp7 := rfl
theorem RowFits.srBright : Statement .srBright := rfl
theorem RowFits.srNormal : Statement .srNormal := rfl
theorem RowFits.srDark : Statement .srDark := rfl
theorem RowFits.srHpf : Statement .srHpf := rfl
theorem RowFits.srPredly : Statement .srPredly := rfl
theorem RowFits.srRevin : Statement .srRevin := rfl
theorem RowFits.srAr : Statement .srAr := rfl
theorem RowFits.srShift : Statement .srShift := rfl
theorem RowFits.srPost : Statement .srPost := rfl
theorem RowFits.srOut : Statement .srOut := rfl
theorem RowFits.shUpdate : Statement .shUpdate := rfl
theorem RowFits.shProcess : Statement .shProcess := rfl
theorem RowFits.shUp : Statement .shUp := rfl
theorem RowFits.shPause : Statement .shPause := rfl
theorem RowFits.shDown : Statement .shDown := rfl
theorem RowFits.shLow : Statement .shLow := rfl
theorem RowFits.shMid : Statement .shMid := rfl
theorem RowFits.shHigh : Statement .shHigh := rfl
theorem RowFits.shVoice : Statement .shVoice := rfl
theorem RowFits.shOsc : Statement .shOsc := rfl
theorem RowFits.shPan : Statement .shPan := rfl
theorem RowFits.shSum : Statement .shSum := rfl
theorem RowFits.shAdv : Statement .shAdv := rfl
theorem RowFits.shTone : Statement .shTone := rfl
theorem RowFits.shRev : Statement .shRev := rfl
theorem RowFits.swAdvance : Statement .swAdvance := rfl
theorem RowFits.swFadeout : Statement .swFadeout := rfl
theorem RowFits.swFadein : Statement .swFadein := rfl
theorem RowFits.engRead : Statement .engRead := rfl
theorem RowFits.engUpdate : Statement .engUpdate := rfl
theorem RowFits.smooth : Statement .smooth := rfl
theorem RowFits.acc : Statement .acc := rfl
theorem RowFits.engIngain : Statement .engIngain := rfl
theorem RowFits.engDispatch : Statement .engDispatch := rfl
theorem RowFits.guard : Statement .guard := rfl
theorem RowFits.engWidth : Statement .engWidth := rfl
theorem RowFits.engXfade : Statement .engXfade := rfl
theorem RowFits.engLimit : Statement .engLimit := rfl
theorem RowFits.ind : Statement .ind := rfl

end Sys2Proof.Laws
end

