-- ==== Sys2Proof/Tests/Slice0.lean ====
section
/-! SUPPORT. The model's own tests: decoding of words written out from 30_encoding.md and 95_test_vectors.md section 3.1,
vectors of 95_test_vectors.md, ill-formed terms that WellFormed refuses, and for every statement with hypotheses a state
and operands that meet them. Expected values are the vectors' decimals as binary32 patterns. -/

namespace Sys2Proof.Tests

open Sys2Proof.Machine

section

-- One theorem at a time: many kernel evaluations in flight take many threads.
set_option Elab.async false

/-! Ill-formed terms (R136, R137, R139). -/

/-- A BLOCK of one frame. -/
def oneFrame (swl swr : BitVec 2) (ktop kbot : Word) : Instr := .block 0#16 false swl swr ktop kbot [⟨0#32, 0#32⟩]

theorem test_wf_block : (oneFrame 0#2 2#2 0x3F800000#32 0x80000000#32).wf 1 = true := by decide +kernel
theorem test_illformed_swl : (oneFrame 3#2 0#2 0#32 0#32).wf 1 = false := by decide +kernel
theorem test_illformed_swr : (oneFrame 0#2 3#2 0#32 0#32).wf 1 = false := by decide +kernel
theorem test_illformed_ktop_large : (oneFrame 0#2 0#2 0x3F800001#32 0#32).wf 1 = false := by decide +kernel
theorem test_illformed_ktop_negative : (oneFrame 0#2 0#2 0x80000001#32 0#32).wf 1 = false := by decide +kernel
theorem test_illformed_kbot_nan : (oneFrame 0#2 0#2 0#32 0x7FC00000#32).wf 1 = false := by decide +kernel
theorem test_illformed_kbot_infinite : (oneFrame 0#2 0#2 0#32 0x7F800000#32).wf 1 = false := by decide +kernel
theorem test_illformed_frames : (oneFrame 0#2 0#2 0#32 0#32).wf 2 = false := by decide +kernel

/-! Decoding (R131 to R143): words of 95_test_vectors.md section 3.1, and every row by the selector of the table. -/

theorem test_decode_reset : decode 1 (.command [0x00000001#32]) = .instr .reset [] := by decide +kernel
theorem test_decode_reset_reserved :
    decode 1 (.command [0x00000011#32, 7#32]) = .rejected (.reservedBits 0x00000011#32) [7#32] := by decide +kernel
theorem test_decode_bad_opcode_0 :
    decode 1 (.command [0#32, 1#32]) = .rejected (.badOpcode 0#32) [1#32] := by decide +kernel
theorem test_decode_bad_opcode_15 :
    decode 1 (.command [0x0000000F#32]) = .rejected (.badOpcode 0x0000000F#32) [] := by decide +kernel
theorem test_decode_block_enc_3 :
    decode 0 (.command [0x00030112#32, 0#32, 0#32]) = .instr (.block 3#16 true 1#2 0#2 0#32 0#32 []) [] := by decide +kernel
theorem test_decode_block_enc_minus_7 :
    decode 0 (.command [0xFFF90002#32, 0#32, 0#32]) =
      .instr (.block (BitVec.ofInt 16 (-7)) false 0#2 0#2 0#32 0#32 []) [] := by decide +kernel
theorem test_decode_block_switches_2 :
    decode 0 (.command [0x000000A2#32, 0#32, 0#32]) = .instr (.block 0#16 false 2#2 2#2 0#32 0#32 []) [] := by
  decide +kernel
theorem test_decode_block_frames :
    decode 1 (.command [2#32, 8#32, 9#32, 0x3F800000#32, 0xBF800000#32, 1#32]) =
      .instr (.block 0#16 false 0#2 0#2 8#32 9#32 [⟨0x3F800000#32, 0xBF800000#32⟩]) [1#32] := by decide +kernel
theorem test_decode_block_waits : decode 1 (.command [2#32, 0#32, 0#32, 0#32]) = .waiting := by decide +kernel
theorem test_decode_block_reserved_skips_payload :
    decode 0 (.command [0x00000232#32, 0#32, 0#32, 1#32]) = .rejected (.reservedBits 0x00000232#32) [1#32] := by
  decide +kernel
theorem test_decode_bytes_little_endian :
    decodeBytes 0 [0x12#8, 0x01#8, 0x03#8, 0x00#8, 0#8, 0#8, 0#8, 0#8, 0#8, 0#8, 0x80#8, 0x3F#8] =
      .instr (.block 3#16 true 1#2 0#2 0#32 0x3F800000#32 []) [] := by decide +kernel

/-! Every row of the opcode table by its `match` value, in its slot. -/

theorem test_rows_filterDrive :
    decodeRow .update 0x00#6 = some .fdUpdate ∧
    decodeRow .process 0x00#6 = some .fdProcess ∧
    decodeRow .left 0x00#6 = some .fdWarm ∧
    decodeRow .left 0x04#6 = some .fdHard ∧
    decodeRow .left 0x08#6 = some .fdDestroy ∧
    decodeRow .right 0x00#6 = some .fdTapLp ∧
    decodeRow .right 0x10#6 = some .fdTapBp ∧
    decodeRow .right 0x20#6 = some .fdTapHp ∧
    decodeRow (.stage 0) 0x00#6 = some .fdGate ∧
    decodeRow (.stage 1) 0x00#6 = some .fdAaf ∧
    decodeRow (.stage 2) 0x00#6 = some .fdOs ∧
    decodeRow (.stage 3) 0x00#6 = some .fdDrive ∧
    decodeRow (.stage 4) 0x00#6 = some .fdSvf ∧
    decodeRow (.stage 5) 0x00#6 = some .fdComp := by decide +kernel

theorem test_rows_spaceEcho :
    decodeRow .update 0x01#6 = some .seUpdate ∧
    decodeRow .process 0x01#6 = some .seProcess ∧
    decodeRow .left 0x01#6 = some .seShort ∧
    decodeRow .left 0x05#6 = some .seMed ∧
    decodeRow .left 0x09#6 = some .seLong ∧
    decodeRow .right 0x01#6 = some .seBright ∧
    decodeRow .right 0x11#6 = some .seNormal ∧
    decodeRow .right 0x21#6 = some .seDark ∧
    decodeRow (.stage 0) 0x01#6 = some .seMod ∧
    decodeRow (.stage 1) 0x01#6 = some .seRead ∧
    decodeRow (.stage 2) 0x01#6 = some .seFb ∧
    decodeRow (.stage 3) 0x01#6 = some .seWrite ∧
    decodeRow (.stage 4) 0x01#6 = some .seRev ∧
    decodeRow (.stage 5) 0x01#6 = some .seOut := by decide +kernel

theorem test_rows_shimmer :
    decodeRow .update 0x02#6 = some .srUpdate ∧
    decodeRow .process 0x02#6 = some .srProcess ∧
    decodeRow .left 0x02#6 = some .srUp12 ∧
    decodeRow .left 0x06#6 = some .srDn12 ∧
    decodeRow .left 0x0a#6 = some .srUp7 ∧
    decodeRow .right 0x02#6 = some .srBright ∧
    decodeRow .right 0x12#6 = some .srNormal ∧
    decodeRow .right 0x22#6 = some .srDark ∧
    decodeRow (.stage 0) 0x02#6 = some .srHpf ∧
    decodeRow (.stage 1) 0x02#6 = some .srPredly ∧
    decodeRow (.stage 2) 0x02#6 = some .srRevin ∧
    decodeRow (.stage 3) 0x02#6 = some .srAr ∧
    decodeRow (.stage 4) 0x02#6 = some .srShift ∧
    decodeRow (.stage 5) 0x02#6 = some .srPost ∧
    decodeRow (.stage 6) 0x02#6 = some .srOut := by decide +kernel

theorem test_rows_shepard :
    decodeRow .update 0x03#6 = some .shUpdate ∧
    decodeRow .process 0x03#6 = some .shProcess ∧
    decodeRow .left 0x03#6 = some .shUp ∧
    decodeRow .left 0x07#6 = some .shPause ∧
    decodeRow .left 0x0b#6 = some .shDown ∧
    decodeRow .right 0x03#6 = some .shLow ∧
    decodeRow .right 0x13#6 = some .shMid ∧
    decodeRow .right 0x23#6 = some .shHigh ∧
    decodeRow (.stage 0) 0x03#6 = some .shVoice ∧
    decodeRow (.stage 1) 0x03#6 = some .shOsc ∧
    decodeRow (.stage 2) 0x03#6 = some .shPan ∧
    decodeRow (.stage 3) 0x03#6 = some .shSum ∧
    decodeRow (.stage 4) 0x03#6 = some .shAdv ∧
    decodeRow (.stage 5) 0x03#6 = some .shTone ∧
    decodeRow (.stage 6) 0x03#6 = some .shRev := by decide +kernel

theorem test_rows_switcher :
    decodeRow .xf 0x00#6 = some .swAdvance ∧
    decodeRow .xf 0x01#6 = some .swFadeout ∧
    decodeRow .xf 0x02#6 = some .swFadein := by decide +kernel

theorem test_rows_engine :
    decodeRow (.engine 0) 0x00#6 = some .engRead ∧
    decodeRow (.engine 1) 0x00#6 = some .engUpdate ∧
    decodeRow (.engine 2) 0x00#6 = some .smooth ∧
    decodeRow (.engine 3) 0x00#6 = some .acc ∧
    decodeRow (.engine 4) 0x00#6 = some .engIngain ∧
    decodeRow (.engine 5) 0x00#6 = some .engDispatch ∧
    decodeRow (.engine 6) 0x00#6 = some .guard ∧
    decodeRow (.engine 7) 0x00#6 = some .engWidth ∧
    decodeRow (.engine 8) 0x00#6 = some .engXfade ∧
    decodeRow (.engine 9) 0x00#6 = some .engLimit ∧
    decodeRow (.engine 10) 0x00#6 = some .ind := by decide +kernel

/-- Selectors of section 3.1 with bits a row does not look at. -/
theorem test_rows_ignore_other_fields :
    decodeRow .process 0x24#6 = some .fdProcess ∧ decodeRow .left 0x24#6 = some .fdHard ∧
    decodeRow .right 0x24#6 = some .fdTapHp ∧ decodeRow .process 0x19#6 = some .seProcess ∧
    decodeRow .left 0x19#6 = some .seLong ∧ decodeRow .right 0x19#6 = some .seNormal ∧
    decodeRow .process 0x26#6 = some .srProcess ∧ decodeRow .left 0x26#6 = some .srDn12 ∧
    decodeRow .right 0x26#6 = some .srDark ∧ decodeRow .process 0x1B#6 = some .shProcess ∧
    decodeRow .left 0x1B#6 = some .shDown ∧ decodeRow .right 0x1B#6 = some .shMid ∧
    decodeRow .xf 3#6 = none ∧ decodeRow .left 0x0C#6 = none := by decide +kernel

/-! The host's view. -/

theorem test_table_word_reset : decodeTableWord 32 0x00000001 = some .reset := by decide +kernel
theorem test_table_word_row : decodeTableWord 8 0x04 = some .fdHard := by decide +kernel
theorem test_table_word_runs : step (State.reset.withFetchWord 8 0x20) = exec .fdTapHp State.reset := by rfl

/-! Textual commands (R149, R150): an omitted knob keeps the previous value, a pseudo-command expands. -/

theorem test_asm_carry :
    assemble 1 [.block ⟨some 0x3F800000#32, none, none, some true, some 1#2, none, none⟩, .turn 3#16] =
      [0x00000112#32, 0x3F800000#32, 0#32, 0#32, 0#32, 0x00030012#32, 0x3F800000#32, 0#32, 0#32, 0#32] := by decide +kernel

/-! States. -/

/-- The reset state of an instance with the parameters of section 1, one frame per block. -/
def cfg1 : Cfg := { Cfg.pRef with n := 1 }

def base : State :=
  { State.reset with cfg := cfg1, fd := fdInit cfg1, se := seInit cfg1, sr := srInit cfg1, sh := shInit cfg1 }

/-- The base state in a mode. -/
def inMode (m : Mode) : State := { base with xf := { base.xf with active := m, pending := m } }

/-- With a knob setting in the snapshot. -/
def withKnobs (s : State) (ktop kbot : Word) (enc : BitVec 16) (swl swr : SwPos) : State :=
  { s with snap := ⟨.ofBits ktop, .ofBits kbot, enc, false, swl, swr⟩ }

/-- What a completed operation leaves, looked at through `f`. -/
def after {α : Type} (f : State → α) : Result → Option α
  | .next s => some (f s)
  | _ => none

/-! Arithmetic (R9, R10, R12, R17). -/

theorem test_add_ties_to_even : F32.add (.ofBits 0x4B800000#32) .one = (.ofBits 0x4B800000#32) := by decide +kernel
theorem test_sub_exact_zero_is_positive :
    F32.sub (.ofBits 0x3E99999A#32) (.ofBits 0x3E99999A#32) = .zero := by
  decide +kernel
theorem test_mul_overflows_to_infinity :
    F32.mul (.ofBits 0x60AD78EC#32) (.ofBits 0x60AD78EC#32) = .inf false := by
  decide +kernel
theorem test_mul_keeps_subnormals : F32.mul (.ofBits 1#32) .one = .ofBits 1#32 := by decide +kernel
theorem test_div_rounds : F32.div .one (.ofBits 0x40400000#32) = .ofBits 0x3EAAAAAB#32 := by decide +kernel
theorem test_div_zero_by_zero : F32.div .zero .zero = .nan := by decide +kernel
theorem test_sqrt_seventeen_inverse :
    F32.div .one (F32.sqrt (.ofBits 0x41880000#32)) = (.ofBits 0x3E785B43#32) := by
  decide +kernel
theorem test_floor_negative : F32.floor (.ofBits 0xBE800000#32) = (.ofBits 0xBF800000#32) := by decide +kernel
theorem test_ofInt_negative : F32.ofInt (-32768) = (.ofBits 0xC7000000#32) := by decide +kernel
theorem test_constant_nearest : F32.dec 5 100 = .ofBits 0x3D4CCCCD#32 := by decide +kernel
theorem test_wrap01_negative : F32.wrap01 (.ofBits 0xB45FB23B#32) = (.ofBits 0x3F7FFFFD#32) := by decide +kernel
theorem test_wrap01_rounds_to_one : F32.wrap01 (.ofBits 0xB089705F#32) = .zero := by decide +kernel
theorem test_nan_pattern_in :
    F32.ofBits 0x7FC00001#32 = .nan ∧ F32.ofBits 0x7F800000#32 = .inf false := by
  decide +kernel

/-! Shared operators (R180 to R203), section 3.2. -/

theorem test_smooth :
    smoothed (.ofBits 0x40A00000#32) (.ofBits 0x468CA000#32) (.ofBits 0x3D4CCCCD#32) = (.ofBits 0x44623000#32) := by
  decide +kernel
theorem test_acc : accumulated .zero encStep .zero .one 3#16 = .ofBits 0x3E19999A#32 := by decide +kernel
theorem test_acc_negative :
    accumulated .one encStep .zero .one (BitVec.ofInt 16 (-7)) = .ofBits 0x3F266666#32 := by
  decide +kernel
theorem test_acc_clamped :
    accumulated (.ofBits 0x3F000000#32) encStep .zero .one (BitVec.ofInt 16 (-32768)) = .zero := by
  decide +kernel
theorem test_maplin :
    maplin (.ofBits 0x3F000000#32) (.ofBits 0x3F333333#32) (.ofBits 0x3F7AE148#32) = (.ofBits 0x3F570A3E#32) := by
  decide +kernel
theorem test_hermite_mid :
    hermite4 .zero .one .one .zero (.ofBits 0x3F000000#32) = (.ofBits 0x3F900000#32) := by
  decide +kernel
theorem test_hermite_quarter :
    hermite4 .one (.ofBits 0x40000000#32) (.ofBits 0x40400000#32) (.ofBits 0x40800000#32) (.ofBits 0x3E800000#32) = (.ofBits 0x40100000#32) := by
  decide +kernel

/-- A line of capacity 16 after writes 1, 2, 3, 4, 5. -/
def line5 : DelayLine := [1, 2, 3, 4, 5].foldl (fun dl k => dlWrite 16 dl (F32.ofInt k)) dlReset

theorem test_read_two : dlRead 16 line5 (.ofBits 0x40000000#32) = (.ofBits 0x40800000#32) := by decide +kernel
theorem test_read_clamps_low : dlRead 16 line5 .zero = (.ofBits 0x40800000#32) := by decide +kernel
theorem test_read_between : dlRead 16 line5 (.ofBits 0x40200000#32) = (.ofBits 0x40600000#32) := by decide +kernel
theorem test_read_clamps_high : dlRead 16 line5 (.ofBits 0x42C80000#32) = .zero := by decide +kernel
/-- R104 at an age past the write index plus the capacity: (0 - 10) mod 8 = 6; and (3 - 3) mod 8 = 0. -/
theorem test_index_wraps_twice : dlIndex 8 dlReset 10 = 6 ∧ dlIndex 8 ⟨[], 3⟩ 3 = 0 ∧ dlIndex 8 ⟨[], 3⟩ 4 = 7 := by decide
theorem test_write_wraps :
    dlWrite 16 ⟨[], 15⟩ (.ofBits 0x3F000000#32) = ⟨[(15, (.ofBits 0x3F000000#32))], 0⟩ := by
  decide +kernel
theorem test_write_zero_unlists : dlWrite 16 ⟨[(3, .one)], 3⟩ .zero = ⟨[], 4⟩ := by decide +kernel
theorem test_comp_above_threshold :
    (comp (srCompParams Cfg.pRef) (.ofBits 0x3F4CCCCD#32) (.ofBits 0x3F4CCCCD#32)).2 = (.ofBits 0x3F29FBE8#32) := by
  decide +kernel
theorem test_comp_attack :
    (comp (srCompParams Cfg.pRef) .zero (.ofBits 0x3F000000#32)) = ((.ofBits 0x3BA3D70A#32), (.ofBits 0x3F000000#32)) := by
  decide +kernel
theorem test_tri_phase : triPhase (.ofBits 0x3F400000#32) = .zero ∧ triPhase .zero = .one := by decide +kernel
theorem test_dcblock_release :
    dcblock (.ofBits 0x3F7EB852#32) .one (.ofBits 0x3F7D7247#32) .zero = (.ofBits 0xBC748880#32) := by
  decide +kernel

/-! GUARD (R200). -/

theorem test_guard_passes_negative_zero_and_subnormal :
    after (fun s => (s.wires.y, s.events)) (exec .guard { base with wires := { base.wires with y := ⟨.ofBits 0x80000000#32, .ofBits 1#32⟩ } }) =
      some (⟨.ofBits 0x80000000#32, .ofBits 1#32⟩, []) := by
  decide +kernel
theorem test_guard_fault_mask :
    after (fun s => (s.wires.y, s.events)) (exec .guard { base with
      seq := .sample 5, wires := { base.wires with y := ⟨.inf true, .nan⟩ } }) =
      some (⟨.zero, .zero⟩, [.guardFault .fd 3#2 (some 5)]) := by
  decide +kernel
theorem test_guard_fault_resets_mode :
    after (fun s => s.se.tSm) (exec .guard { inMode .se with
      se := { base.se with tSm := .one }, wires := { base.wires with y := ⟨.nan, .zero⟩ } }) =
      some (F32.dec 5 100) := by
  decide +kernel

/-! FilterDrive, section 3.3. -/

theorem test_fd_update :
    after (fun s => (s.fd.driveAcc, s.fd.driveSm, s.fd.resSm)) (exec .fdUpdate (withKnobs base 0x3F800000#32 0x3F800000#32 20#16 .p0 .p0)) =
      some (.one, (.ofBits 0x3D4CCCCD#32), (.ofBits 0x3D4CCCCD#32)) := by
  decide +kernel
theorem test_fd_gate :
    after (fun s => (s.fd.gateEnv.l, s.wires.fd.g.l)) (exec .fdGate { base with
      wires := { base.wires with x := ⟨(.ofBits 0x3DCCCCCD#32), (.ofBits 0x3DCCCCCD#32)⟩ } }) = some ((.ofBits 0x3A83126F#32), (.ofBits 0x3CCDC615#32)) := by
  decide +kernel
theorem test_fd_hard :
    fdHardCurve (F32.mul (.ofBits 0x41100000#32) (.ofBits 0x3DCCCCCD#32)) = (.ofBits 0x3F2B4146#32) ∧ fdHardCurve (.ofBits 0xC0400000#32) = (.ofBits 0xBF72DCE8#32) ∧
      fdHardCurve (.ofBits 0x60AD78EC#32) = .zero := by
  decide +kernel
theorem test_fd_tap_bp :
    after (fun s => s.wires.fd.tap) (exec .fdTapBp { base with
      wires := { base.wires with fd := { base.wires.fd with taps := ⟨.zero, .one, .nan⟩ } } }) = some .one := by
  decide +kernel

/-! SpaceEcho, section 3.4. -/

theorem test_se_update :
    after (fun s => (s.se.tT, s.se.tSm, s.se.fb)) (exec .seUpdate (withKnobs base 0x3F800000#32 0x3F800000#32 0#16 .p0 .p0)) =
      some ((.ofBits 0x3E800000#32), (.ofBits 0x3D75C290#32), .ofBits 0x3F8CCCCD#32) := by
  decide +kernel
theorem test_se_long :
    after (fun s => (s.wires.se.lo, s.wires.se.hi)) (exec .seLong base) = some ((.ofBits 0x3F000000#32), (.ofBits 0x3FE66666#32)) := by
  decide +kernel
theorem test_se_read_nan_ends_the_run :
    exec .seRead { base with wires := { base.wires with se := { base.wires.se with d := ⟨.nan, .zero⟩ } } } =
      .fault (.unmodelledDelay .nan) := by
  rfl
theorem test_se_phase_step :
    stepPhase Cfg.pRef .zero (.dec 25 10) = (.ofBits 0x385A740E#32) ∧ stepPhase Cfg.pRef .zero (.dec 2 10) = (.ofBits 0x368BCF65#32) := by
  decide +kernel

/-! ShimmerReverb, section 3.5. -/

theorem test_sr_update :
    after (fun s => (s.sr.hpSm, s.sr.revFb, s.sr.shAmt, s.sr.pitchSm)) (exec .srUpdate (withKnobs base 0x3F800000#32 0x3F800000#32 3#16 .p1 .p2)) =
      some ((.ofBits 0x43198000#32), (.ofBits 0x3F7AE148#32), (.ofBits 0x3E19999A#32), (.ofBits 0x412CCCCD#32)) := by
  decide +kernel
theorem test_sr_update_shifters :
    after (fun s => s.sr.shift.map fun u => u.cfg.semis) (exec .srUpdate (withKnobs base 0x3F800000#32 0x3F800000#32 3#16 .p1 .p2)) =
      some ⟨some (.ofBits 0x412C0000#32), some (.ofBits 0x412D999A#32)⟩ := by
  decide +kernel
theorem test_sr_predelay :
    srPreDelay Cfg.pRef = (.ofBits 0x44F00000#32) ∧ Cfg.srCap Cfg.pRef = 1924 ∧ Cfg.seCap Cfg.pRef = 96004 := by
  decide +kernel

/-! ShepardTone, section 3.6. -/

theorem test_sh_update :
    after (fun s => (s.sh.toneFc, s.sh.revAmt)) (exec .shUpdate (withKnobs base 0x3F800000#32 0x3F800000#32 20#16 .p0 .p0)) =
      some ((.ofBits 0x463EA000#32), .one) := by
  decide +kernel
theorem test_sh_adv_up :
    after (fun s => (s.sh.p.v0, s.sh.p.v1)) (exec .shAdv base) = some ((.ofBits 0x345FB23B#32), (.ofBits 0x3E00000E#32)) := by
  decide +kernel
theorem test_sh_adv_down :
    after (fun s => (s.sh.p.v0, s.sh.p.v1)) (exec .shAdv { base with sh := { base.sh with dir := .p2 } }) =
      some ((.ofBits 0x3F7FFFFD#32), (.ofBits 0x3DFFFFE4#32)) := by
  decide +kernel
theorem test_sh_pan_phase :
    after (fun s => s.sh.panPh) (exec .shPan base) = some (.ofBits 0x360BCF65#32) := by
  decide +kernel

/-! ModeSwitcher, section 3.7. -/

theorem test_sw_press :
    after (fun s => s.xf) (exec .swAdvance { inMode .sh with snap := { base.snap with press := true } }) =
      some ⟨.fadingOut, .one, .sh, .fd⟩ := by
  decide +kernel
theorem test_sw_fadeout :
    after (fun s => s.xf) (exec .swFadeout { base with xf := ⟨.fadingOut, (.ofBits 0x3F3A0CB1#32), .fd, .se⟩ }) =
      some ⟨.fadingOut, (.ofBits 0x3EEA7ED4#32), .fd, .se⟩ := by
  decide +kernel
theorem test_sw_swap :
    after (fun s => s.xf) (exec .swAdvance { base with xf := ⟨.fadingOut, (.ofBits 0x3C5E3A11#32), .fd, .se⟩ }) =
      some ⟨.fadingIn, .zero, .se, .se⟩ := by
  decide +kernel
theorem test_sw_fadein :
    after (fun s => s.xf) (exec .swFadein { base with xf := ⟨.fadingIn, (.ofBits 0x3E64F92E#32), .se, .se⟩ }) =
      some ⟨.fadingIn, (.ofBits 0x3F05E834#32), .se, .se⟩ := by
  decide +kernel
theorem test_sw_steady :
    after (fun s => s.xf) (exec .swAdvance { base with xf := ⟨.fadingIn, (.ofBits 0x3F794CCC#32), .se, .se⟩ }) =
      some ⟨.steady, .one, .se, .se⟩ := by
  decide +kernel

/-! The engine's rows, section 3.8. -/

theorem test_eng_read_negative_zero :
    after (fun s => s.snap) (exec .engRead { base with
      ports := { base.ports with ctl := ⟨.ofBits 0x80000000#32, .one, 3#16, true, .p1, .p0⟩ } }) =
      some ⟨.zero, .one, 3#16, true, .p1, .p0⟩ := by
  decide +kernel
theorem test_eng_width :
    widen (.ofBits 0x3E800000#32) ⟨(.ofBits 0x3F000000#32), (.ofBits 0x3DCCCCCD#32)⟩ = ⟨(.ofBits 0x3F0CCCCD#32), (.ofBits 0x3D4CCCD0#32)⟩ := by
  decide +kernel
theorem test_eng_xfade :
    after (fun s => s.wires.frame) (exec .engXfade { base with
      xf := { base.xf with volume := .zero }, wires := { base.wires with w := ⟨(.ofBits 0xBF000000#32), .one⟩ } }) =
      some [⟨.ofBits 0x80000000#32, .zero⟩] := by
  decide +kernel
theorem test_ind_switching :
    after (fun s => s.ports.ind) (exec .ind { base with xf := ⟨.fadingOut, .one, .fd, .se⟩ }) = some ⟨.se, true⟩ := by
  decide +kernel
theorem test_block_refuses_knob :
    after (fun s => (s.refused, s.events)) (exec (oneFrame 0#2 0#2 0x3FC00000#32 0#32) base) =
      some (true, [.knobRange 0x3FC00000#32 0#32]) := by
  decide +kernel
theorem test_block_refuses_switch_first :
    after (fun s => s.events) (exec (oneFrame 3#2 0#2 0x3FC00000#32 0#32) base) =
      some [.badSwitchCode 0x00000032#32] := by
  decide +kernel
theorem test_block_accumulates :
    after (fun s => s.fd.driveAcc) (exec (.block 5#16 false 0#2 0#2 0#32 0#32 []) base) = some (.ofBits 0x3E800000#32) := by
  decide +kernel

/-! Witnesses: for every statement of Certificates/Slice0/Obligations.lean that has hypotheses, a state and operands that
meet them, at the boundaries where a clause has a range. -/

/-- Right after reset with parameters of section 1 except the sample rate. -/
def withRate (fs : Nat) : State := { base with cfg := { cfg1 with fs := fs } }

/-- Words at the command port. -/
def withWords (words : List Word) : State := { base with ports := { base.ports with cmd := words } }

theorem seProcess_completes {s : State} (h : echoTame s = true) : ∃ t, exec .seProcess s = .next t :=
  seProcess_next (seDelays_finite h).1 (seDelays_finite h).2

theorem srProcess_completes {s : State} (h : (srPreDelay s.cfg).isFinite = true) : ∃ t, exec .srProcess s = .next t :=
  srProcess_next h

/-- For DecodeOfEncodeIsIdentity. -/
theorem witness_decodeOfEncode :
    (oneFrame 2#2 1#2 0x3F800000#32 0x80000000#32).wf 1 = true ∧ Instr.shRev.wf 0 = true ∧
    encode (oneFrame 2#2 1#2 0x3F800000#32 0x80000000#32) =
      .command [0x00000062#32, 0x3F800000#32, 0x80000000#32, 0#32, 0#32] := by decide +kernel

/-- For EncodeOfDecodeIsIdentity and OpcodeFieldSelectsCommand: OP 0, 3 and 15 are the boundaries of the other opcodes. -/
theorem witness_encodeOfDecode_and_opcodeField :
    decode 1 (.command [0xFFFF01A2#32, 5#32, 6#32, 7#32, 8#32, 9#32]) =
      .instr (.block 0xFFFF#16 true 2#2 2#2 5#32 6#32 [⟨7#32, 8#32⟩]) [9#32] ∧
    decode 1 (.command [1#32, 2#32]) = .instr .reset [2#32] ∧
    base.row = none ∧ (withWords [0#32]).ports.cmd = [0#32] ∧ cwOp 0#32 ≠ 1#4 ∧ cwOp 0#32 ≠ 2#4 ∧
    cwOp 0x3#32 ≠ 1#4 ∧ cwOp 0x3#32 ≠ 2#4 ∧ cwOp 0xF#32 ≠ 1#4 ∧ cwOp 0xF#32 ≠ 2#4 := by decide +kernel

/-- For ReservedEncodingsAreRefused: the lowest and the highest reserved bit of each command, each switch. -/
theorem witness_reservedEncodings :
    base.row = none ∧ cwOp 0x11#32 = 1#4 ∧ cwAboveOp 0x11#32 ≠ 0#28 ∧ cwAboveOp 0x80000001#32 ≠ 0#28 ∧
    cwOp 0x202#32 = 2#4 ∧ cwRsv 0x202#32 ≠ 0#7 ∧ cwRsv 0x8002#32 ≠ 0#7 ∧
    cwRsv 0x32#32 = 0#7 ∧ cwSwl 0x32#32 = 3#2 ∧ cwRsv 0xC2#32 = 0#7 ∧ cwSwr 0xC2#32 = 3#2 ∧
    ([0#32, 0#32, 0#32, 0#32] : List Word).length = 2 + 2 * base.cfg.n ∧
    (withWords (0x32#32 :: ([0#32, 0#32, 0#32, 0#32] ++ [1#32]))).ports.cmd =
      0x32#32 :: ([0#32, 0#32, 0#32, 0#32] ++ [1#32]) := by decide +kernel

/-- For BlockRefusalsInOrder, and the accepted ends of the knob range for BlockIsItsTableRows. -/
theorem witness_blockRefusals :
    (0#2 : BitVec 2) ≠ 3#2 ∧ (F32.ofBits 0x7FC00000#32).isFinite = false ∧ (F32.ofBits 0x7F800000#32).isFinite = false ∧
    (F32.ofBits 0x80000001#32).lt .zero = true ∧ F32.one.lt (F32.ofBits 0x3F800001#32) = true ∧
    knobOk 0x3F800000#32 = true ∧ knobOk 0x80000000#32 = true ∧ knobOk 0#32 = true := by decide +kernel

/-- For StepRunsTheDecodedInstruction: a waiting stream, a command, a row. -/
theorem witness_stepRuns :
    base.row = none ∧ decode base.cfg.n (.command base.ports.cmd) = .waiting ∧
    decode (withWords [1#32]).cfg.n (.command (withWords [1#32]).ports.cmd) = .instr .reset [] ∧
    ({ base with row := some (.left, 4#6) } : State).row = some (.left, 4#6) ∧
    decode base.cfg.n (.select .left 4#6) = .instr .fdHard [] := by decide +kernel

/-- For ResetTwiceIsResetOnce. -/
theorem witness_resetTwice : ∃ t, exec .reset base = .next t := ⟨_, rfl⟩

/-- For GuardPassesFiniteElseResets; the largest finite datum passes. -/
theorem witness_guard :
    base.wires.y.l.isFinite = true ∧ base.wires.y.r.isFinite = true ∧ F32.nan.isFinite = false ∧
    (F32.inf true).isFinite = false ∧ (F32.ofBits 0x7F7FFFFF#32).isFinite = true := by decide +kernel

/-- For SwitcherTransitions and FadeStepResults: 0.08 steps to 0.0009, 0.09 to 0.0016; 0.95 and 0.05 more is full volume,
0.5 is not there yet. -/
theorem witness_switcher :
    base.xf.state = .steady ∧ base.snap.press = false ∧
    (fadeOutVolume base.cfg.xfStep (.dec 9 100)).le (.dec 1 1000) = false ∧
    (fadeOutVolume base.cfg.xfStep (.dec 8 100)).le (.dec 1 1000) = true ∧
    F32.one.le (fadeInVolume base.cfg.xfStep (.dec 5 10)) = false ∧
    F32.one.le (fadeInVolume base.cfg.xfStep (.dec 95 100)) = true := by decide +kernel

/-- For ModeSuccessorIsModuloFour. -/
theorem witness_modeSuccessor :
    base.xf.state = .steady ∧ ({ base with snap := { base.snap with press := true } } : State).snap.press = true ∧
    ∃ t, exec .swAdvance { base with snap := { base.snap with press := true } } = .next t := ⟨rfl, rfl, _, rfl⟩

/-- For PressWhileFadingIsIgnored: each clause, in a fading state. -/
theorem witness_pressWhileFading :
    ({ base with xf := ⟨.fadingOut, .one, .fd, .se⟩ } : State).xf.state ≠ .steady ∧
    (∃ t, exec .swAdvance { base with xf := ⟨.fadingOut, .one, .fd, .se⟩ } = .next t) ∧
    (∃ t, exec .engUpdate { base with xf := ⟨.fadingIn, .one, .se, .se⟩ } = .next t) ∧
    blockAccepted 0#2 2#2 0#32 0#32 = true ∧
    ∃ t, exec (.block 1#16 false 0#2 2#2 0#32 0#32 []) { base with xf := ⟨.fadingOut, .one, .fd, .se⟩ } =
      .next t :=
  ⟨by decide, ⟨_, rfl⟩, ⟨_, rfl⟩, by decide +kernel, ⟨_, rfl⟩⟩

/-- For FadesAreMonotone and FadesTerminate: the least step above 1e-6, the least of the last clause, and the greatest;
volumes 0 and 1. -/
theorem witness_fades :
    (F32.dec 1 1000000).lt (.ofBits 0x358637BE#32) = true ∧ (F32.ofBits 0x358637BE#32).le .one = true ∧
    (F32.dec 1 1000000).lt (.dec 1001 1000000000) = true ∧ (F32.dec 1001 1000000000).le (.dec 1001 1000000000) = true ∧
    (F32.dec 1 1000000).lt .one = true ∧ F32.one.le .one = true ∧ inUnit .zero = true ∧ inUnit .one = true ∧
    (⟨.fadingOut, .one, .fd, .se⟩ : Xf).state = .fadingOut ∧ (⟨.fadingIn, .zero, .se, .se⟩ : Xf).state = .fadingIn := by
  decide +kernel

/-- For ControlOperatorsKeepRanges, at the ends of each range. -/
theorem witness_controlOperators :
    inUnit .one = true ∧ F32.zero.le (.dec 4 10) = true ∧ F32.isNaN (.inf true) = false ∧
    F32.zero.lt (.dec 5 10) = true ∧ (F32.dec 5 10).lt .one = true ∧ F32.zero.le (.dec 25 100) = true ∧
    (F32.dec 25 100).le (.dec 25 100) = true ∧ F32.isFinite (.ofBits 0xFF7FFFFF#32) = true := by decide +kernel

/-- For EngineRunsTheRowsSelPicks and ProcessRowsAreTheirStages: finite delays. -/
theorem witness_finiteDelays :
    echoTame (inMode .se) = true ∧
    ((seDelays base.cfg base.se).l.isFinite = true ∧ (seDelays base.cfg base.se).r.isFinite = true) ∧
    (srPreDelay base.cfg).isFinite = true :=
  ⟨by decide +kernel, seDelays_finite (s := base) (by decide +kernel), by decide +kernel⟩

/-- For DispatchedPairIsFinite, in each mode. -/
theorem witness_dispatch :
    (∃ t, exec .engDispatch base = .next t) ∧ (∃ t, exec .engDispatch (inMode .se) = .next t) ∧
    (∃ t, exec .engDispatch (inMode .sr) = .next t) ∧ ∃ t, exec .engDispatch (inMode .sh) = .next t :=
  ⟨⟨_, rfl⟩, seProcess_completes (s := inMode .se) (by decide +kernel),
    srProcess_completes (s := inMode .sr) (by decide +kernel), ⟨_, rfl⟩⟩

/-- For LimiterKeepsTheCeiling. -/
theorem witness_limiter : base.cfg.ok = true ∧ ∀ f ∈ base.wires.frame, f.l.isFinite = true ∧ f.r.isFinite = true := by
  decide +kernel

/-- For BlockCompletes, in each of its cases; an LFO rate that is not finite is no ordinary setting. -/
theorem witness_block :
    blockAccepted 0#2 2#2 0#32 0x3F800000#32 = true ∧ (xfAdvance base.cfg.xfStep true base.xf).active = .fd ∧
    (xfAdvance base.cfg.xfStep false (inMode .se).xf).active = .se ∧ echoTame (inMode .se) = true ∧
    (xfAdvance base.cfg.xfStep false (inMode .sr).xf).active = .sr ∧ (srPreDelay base.cfg).isFinite = true ∧
    echoTame { inMode .se with cfg := { cfg1 with approx := { seFlutHz := .nan } } } = false := by
  decide +kernel

/-- For BlockOutputWithinCeiling and InactiveModesAreFrozen: a BLOCK that completes. -/
theorem witness_blockRuns : ∃ t, exec (.block 0#16 false 0#2 0#2 0#32 0#32 []) base = .next t := ⟨_, rfl⟩

/-- For BlockOutputWithinCeiling. -/
theorem witness_blockCeiling :
    base.cfg.ok = true ∧ inUnit base.xf.volume = true ∧ blockAccepted 0#2 0#2 0#32 0#32 = true ∧
    inOne base.cfg.gIn.sr = true ∧ inOne (F32.ofBits 0xBF800000#32) = true ∧ inOne (F32.ofBits 0x3F800000#32) = true := by
  decide +kernel

/-- For InactiveModesAreFrozen: a mode active before and after, the others at neither. -/
theorem witness_inactiveModes :
    base.xf.active ≠ .se ∧ base.xf.active ≠ .sr ∧ base.xf.active ≠ .sh ∧ (inMode .sh).xf.active ≠ .fd ∧
    (∃ t, exec (.block 0#16 false 0#2 0#2 0#32 0#32 []) base = .next t ∧ t.xf.active = .fd) ∧
    ∃ t, exec (.block 0#16 false 0#2 0#2 0#32 0#32 []) (inMode .sh) = .next t ∧ t.xf.active = .sh :=
  ⟨by decide, by decide, by decide, by decide, ⟨_, rfl, rfl⟩, ⟨_, rfl, rfl⟩⟩

/-- For ModeRowsTouchOnlyTheirMode, one row of each mode. -/
theorem witness_modeRows :
    (modeOfRow .fdProcess = some .fd ∧ ∃ t, exec .fdProcess base = .next t) ∧
    (modeOfRow .seProcess = some .se ∧ ∃ t, exec .seProcess base = .next t) ∧
    (modeOfRow .srProcess = some .sr ∧ ∃ t, exec .srProcess base = .next t) ∧
    (modeOfRow .shProcess = some .sh ∧ ∃ t, exec .shProcess base = .next t) :=
  ⟨⟨rfl, _, rfl⟩, ⟨rfl, seProcess_completes (by decide +kernel)⟩, ⟨rfl, srProcess_completes (by decide +kernel)⟩,
    ⟨rfl, _, rfl⟩⟩

/-- For ActiveModeChangesOnlyAtASwap: RESET in ShepardTone, and a swap. -/
theorem witness_activeModeChanges :
    (∃ t, exec .reset (inMode .sh) = .next t ∧ t.xf.active ≠ (inMode .sh).xf.active) ∧
    after (fun s => decide (s.xf.active ≠ .fd)) (exec .swAdvance { base with xf := ⟨.fadingOut, .zero, .fd, .se⟩ }) =
      some true :=
  ⟨⟨_, rfl, by decide⟩, by decide +kernel⟩

/-- For FdDriveUsesTheSelectedCurve. -/
theorem witness_fdDrive : base.xf.active = .fd ∧ (inMode .fd).fd.curve = .p0 := by decide

/-- For FilterDriveIdentityAndRange: the Warm curve at drive 0 and sample 0; FD.PROCESS at reset. -/
theorem witness_filterDrive :
    F32.zero.isFinite = true ∧ (fdCurve base.cfg .p0 ((Config.fdPg.f .zero).mul .zero)).isFinite = true ∧
    ∃ t, exec .fdProcess base = .next t := by
  refine ⟨rfl, ?_, _, rfl⟩
  refine Config.fdWarm.bounded _ _ _ ?_
  have h := Config.fdPg.bounded .zero rfl rfl
  generalize Config.fdPg.f .zero = p at h
  rcases p with _ | s | ⟨s, m⟩
  · cases h
  · cases h
  · simp only [F32.mul, F32.zero, show F32.units 0 = 0 from rfl, Nat.mul_zero]
    cases s <;> decide +kernel

/-- THE instance's parameters at section 1's sample rate, band times and depths: within the units' stable ranges still, since
no cutoff, preset or setting is touched. -/
def cfgU : Cfg := { Config.params.cfg with
  fs := 48000, n := 1, seBandLo := cfg1.seBandLo, seBandHi := cfg1.seBandHi, seFlutDepth := cfg1.seFlutDepth
  seNoiseDepth := cfg1.seNoiseDepth, seDriftDepth := cfg1.seDriftDepth, approx := {} }

theorem cfgU_unitsOk : unitsOk cfgU :=
  have h := Config.params.inRange
  ⟨h.fdAa, h.fdSvf, h.seTone, h.srHp, h.srAr, h.srTone, h.shTone, h.seRev, h.srRev, h.shRev, h.srShift⟩

theorem cfgU_ok : cfgU.ok = true := by
  have h := Config.params.ok
  have e : (F32.zero.lt ({} : Approx).seCompT && F32.zero.lt ({} : Approx).srCompT &&
      ({} : Approx).seCompRho.lt F32.one && ({} : Approx).srCompRho.lt F32.one &&
      cfg1.numbers.all F32.isFinite) = true := by decide +kernel
  simp only [Cfg.ok, Cfg.numbers, cfg1, List.all_append, List.all_cons, List.all_nil, Bool.and_true, Bool.and_eq_true,
    decide_eq_true_eq] at h e ⊢
  simp only [cfgU, cfg1]
  simp only [h, ne_eq, not_false_eq_true, e, and_true, true_and]
  decide +kernel

/-- Just reset, with those parameters. -/
def fresh : State := { base with
  cfg := cfgU, fd := fdInit cfgU, se := seInit cfgU, sr := srInit cfgU, sh := shInit cfgU }

/-- For FirstFrameAfterReset, each mode; and a function of R11 whose sine of 0 is 0. -/
theorem witness_firstFrame :
    unitsOk fresh.cfg ∧ fresh.cfg.ok = true ∧
    (fresh.fd = fdInit fresh.cfg ∧ fresh.wires.x = ⟨.zero, .zero⟩ ∧ ∃ t, exec .fdProcess fresh = .next t) ∧
    (fresh.se = seInit fresh.cfg ∧ 5 ≤ fresh.cfg.seCap ∧ fresh.cfg.seCap ≤ 2 ^ 24 ∧ fresh.wires.x.isFinite = true ∧
      ∃ t, exec .seProcess fresh = .next t) ∧
    (fresh.sr = srInit fresh.cfg ∧ 5 ≤ fresh.cfg.srCap ∧ fresh.cfg.srCap ≤ 2 ^ 24 ∧
      ∃ t, exec .srProcess { fresh with wires := { fresh.wires with x := ⟨.one, .one⟩ } } = .next t) ∧
    (fresh.sh = shInit fresh.cfg ∧ (∃ t, exec .shProcess fresh = .next t) ∧ ∃ m : Math, m.sin .zero = .zero) :=
  ⟨cfgU_unitsOk, cfgU_ok, ⟨rfl, rfl, _, rfl⟩,
    ⟨rfl, by decide, by decide, by decide, seProcess_completes (by decide +kernel)⟩,
    ⟨rfl, by decide, by decide, srProcess_completes (by decide +kernel)⟩, ⟨rfl, ⟨_, rfl⟩, default, rfl⟩⟩

/-- For SeReadResult: finite delays, NaN, infinity. -/
theorem witness_seRead :
    base.wires.se.d.l.isFinite = true ∧ base.wires.se.d.r.isFinite = true ∧ F32.nan.isFinite = false ∧
    (F32.inf false).isFinite = false := by decide

/-- For SeWriteStoresAtTheWriteIndex, DelayWriteAgesAndResetClears and SrPreDelayReadsThenWrites; a sample rate of 2^128
makes the pre-delay infinite. -/
theorem witness_delayLines :
    Memory.wf (2 * base.cfg.fs + 4) base.se.line.l = true ∧ Memory.wf 16 line5 = true ∧ Memory.wf 2 ⟨[(1, .one)], 1⟩ = true ∧
    Memory.wf base.cfg.srCap base.sr.pd.r = true ∧ (srPreDelay base.cfg).isFinite = true ∧
    (srPreDelay (withRate (2 ^ 128)).cfg).isFinite = false := by decide +kernel

/-- For SeFeedbackIsBounded, at the greatest feedback and at -0.0; at reset the fed-back value is no NaN when the
compressed sample is a number, whatever it is. -/
theorem witness_seFeedback :
    ((F32.dec 11 10).isFinite && F32.zero.le (.dec 11 10) && F32.zero.le (.ofBits 0x80000000#32) &&
      (F32.ofBits 0x80000000#32).isZero && base.se.fb.isZero && Memory.wf base.cfg.seCap base.se.line.r) = true ∧
    (∀ x : F32, x.isNaN = false → (base.se.fb.mul (Config.math.tanh x)).isNaN = false) ∧
    ∃ t u, exec .seFb base = .next t ∧ exec .seWrite t = .next u := by
  refine ⟨by decide +kernel, fun x h => ?_, _, _, rfl, rfl⟩
  have h := F32.tanh_within h
  generalize Config.math.tanh x = y at h
  rcases y with _ | s | ⟨s, m⟩
  · cases h
  · cases s <;> revert h <;> decide
  · simp only [base, State.reset, seInit, F32.mul, F32.zero, show F32.units 0 = 0 from rfl, Nat.zero_mul]
    cases s <;> decide +kernel

/-- For ShimmerFeedbackAndOutputInRange. -/
theorem witness_shimmer :
    inOne F32.one.neg = true ∧ inOne .one = true ∧ ∃ t, exec .srProcess base = .next t :=
  ⟨by decide, by decide, srProcess_completes (by decide +kernel)⟩

/-- For ShepardIgnoresItsInput. -/
theorem witness_shepardIgnores : ∃ t, exec .shProcess base = .next t := ⟨_, rfl⟩

/-- The paused direction. -/
def paused : State := { base with sh := { base.sh with dir := .p1 } }

/-- For PhasesStayInRange: the ends of the range floor is pinned on, and of [0, 1). -/
theorem witness_phaseBounds :
    (F32.dec 16777216 1).neg.lt (F32.dec 16777215 1).neg = true ∧ (F32.dec 16777215 1).lt (.dec 16777216 1) = true ∧
    F32.isFinite (.ofBits 0x80000000#32) = true ∧ inPhase (.ofBits 0x3F7FFFFF#32) = true ∧ inPhase .one = false := by
  decide +kernel

/-- For PhasesStayInRange: a state whose phases and voice frequencies meet the premises, and its paused twin. -/
theorem witness_phases :
    (base.cfg.ok && phasesOk base && base.wires.sh.f.toList.all F32.isFinite && base.sh.th.toList.all inPhase &&
      paused.sh.p.toList.all inPhase && decide (paused.sh.dir = .p1)) = true ∧
    ∀ i ∈ [Instr.seMod, .shPan, .shOsc, .shAdv], ∃ t u, exec i base = .next t ∧ exec i paused = .next u := by
  refine ⟨by decide +kernel, fun i h => ?_⟩
  simp only [List.mem_cons, List.not_mem_nil, or_false] at h
  rcases h with rfl | rfl | rfl | rfl <;> exact ⟨_, _, rfl, rfl⟩

/-- For StepKeepsMemoryOk, StepKeepsControlRanges (the smoothing coefficient at its bound too) and StepKeepsConfigAndLogs. -/
theorem witness_invariants :
    (memoryOk base && base.cfg.ok && controlsOk base && pitchOk base && base.cfg.srPitchSmooth.le (.dec 25 100) &&
      Cfg.ok { cfg1 with srPitchSmooth := .dec 25 100 } && fadeOk base.xf && fadeOk ⟨.fadingIn, .zero, .se, .se⟩) = true ∧
    ({ base with refused := true } : State).refused = true ∧ step base = .next base :=
  ⟨by decide +kernel, rfl, rfl⟩

/-- For CompressorEnvelopeAndGain: an envelope that is a number, and one strictly inside a knee. -/
theorem witness_compressor :
    F32.zero.isNaN = false ∧ F32.one.le (F32.one.sub (F32.one.div (.dec 2 1))) = false ∧
    (F32.one.add (F32.one.div (.dec 2 1))).le .one = false := by decide +kernel

/-- For the nominal clauses of FdFrontStageResults, SeStageResults, SrStageResults and SrPreDelayReadsThenWrites. -/
theorem witness_nominal : base.cfg.approx = {} := by decide

/-- R548: the pre-delay is at least two samples from a sample rate of 50 Hz. -/
theorem test_sampleRate_50 : Cfg.ok { cfg1 with fs := 50 } = true ∧ Cfg.ok { cfg1 with fs := 49 } = false := by
  decide +kernel

/-- I14: an instance with another gate threshold; at an envelope of 0.25 it gates where the nominal one does not. -/
theorem test_gate_override :
    fdGateGain (.dec 5 10) (.dec 25 100) = F32.dec 25 100 ∧ fdGateGain ({} : Approx).fdGateT (.dec 25 100) = F32.one := by
  decide +kernel

/-- For StepStopsOnlyAsStated: a selector that meets no row. -/
theorem witness_stops :
    decodeRow .xf 3#6 = none ∧ F32.nan.isFinite = false ∧
    step { base with row := some (.xf, 3#6) } = .refused (.noRow .xf 3#6) :=
  ⟨by decide, rfl, rfl⟩

end

end Sys2Proof.Tests
end

section
/-! PROOFS. The scope family (00_scope.md R17): the control operators keep their ranges, and the phases stay in [0, 1). -/

namespace Sys2Proof

/-! Voices. -/

@[simp] theorem Oct.toList_map {α β : Type} (f : α → β) (o : Oct α) : (o.map f).toList = o.toList.map f := rfl

@[simp] theorem Oct.toList_zip {α β γ : Type} (f : α → β → γ) (o : Oct α) (p : Oct β) :
    (Oct.zip f o p).toList = List.zipWith f o.toList p.toList := rfl

/-- What a two-operand operation makes of elements with properties `P` and `Q` holds of every voice of a zip. -/
theorem Oct.forall_mem_zip {α β γ : Type} {P : α → Prop} {Q : β → Prop} {R : γ → Prop} {f : α → β → γ}
    (hf : ∀ a b, P a → Q b → R (f a b)) {o : Oct α} {p : Oct β} (ho : ∀ a ∈ o.toList, P a)
    (hp : ∀ b ∈ p.toList, Q b) : ∀ c ∈ (Oct.zip f o p).toList, R c := by
  rw [Oct.toList_zip, List.forall_mem_iff_getElem]
  intro i hi
  rw [List.getElem_zipWith]
  exact hf _ _ (ho _ (List.getElem_mem _)) (hp _ (List.getElem_mem _))

/-- A voice paired with its image under a map. -/
theorem Oct.mem_zip_map {α β : Type} {f : α → β} {o : Oct α} {x : α × β} (h : x ∈ o.toList.zip (o.map f).toList) :
    x.1 ∈ o.toList ∧ x.2 = f x.1 := by
  obtain ⟨i, hi, rfl⟩ := List.getElem_of_mem h
  simp only [Oct.toList_map, List.getElem_zip, List.getElem_map, and_true]
  exact List.getElem_mem _

namespace F32

/-! Order. -/

theorem le_of_lt {x y : F32} (h : x.lt y = true) : x.le y = true := by
  unfold lt at h
  unfold le
  split at h
  · exact decide_eq_true (Int.le_of_lt (of_decide_eq_true h))
  · cases h

/-- Strictly between two finite data there are only finite ones. -/
theorem isFinite_of_lt_of_lt {lo hi x : F32} (hlo : lo.isFinite = true) (hhi : hi.isFinite = true)
    (h1 : lo.lt x = true) (h2 : x.lt hi = true) : x.isFinite = true :=
  isFinite_of_le_of_le hlo hhi (le_of_lt h1) (le_of_lt h2)

/-! Exact results around zero. -/

/-- Adding a zero keeps the value. -/
theorem add_of_val_zero {x z : F32} (hx : x.isFinite = true) (hz : z.isFinite = true) (h : z.val = 0) :
    (x.add z).isFinite = true ∧ (x.add z).val = x.val := by
  obtain ⟨hf, hl, hu⟩ := add_between hx hz hx hx (by omega) (by omega)
  exact ⟨hf, Int.le_antisymm hu hl⟩

/-- Subtracting a zero keeps the value. -/
theorem sub_of_val_zero {x z : F32} (hx : x.isFinite = true) (hz : z.isFinite = true) (h : z.val = 0) :
    (x.sub z).isFinite = true ∧ (x.sub z).val = x.val :=
  add_of_val_zero hx (by rwa [isFinite_neg]) (by rw [val_neg, h]; rfl)

/-- A finite datum less itself is a zero. -/
theorem sub_self_val {x : F32} (hx : x.isFinite = true) : (x.sub x).isFinite = true ∧ (x.sub x).val = 0 := by
  obtain ⟨hf, hl, hu⟩ := sub_between hx hx (lo := zero) (hi := zero) rfl rfl (by simp) (by simp)
  rw [val_zero] at hl hu
  exact ⟨hf, Int.le_antisymm hu hl⟩

/-- A finite datum times a zero is a zero. -/
theorem mul_of_val_zero {x z : F32} (hx : x.isFinite = true) (hz : z.isFinite = true) (h : z.val = 0) :
    (x.mul z).isFinite = true ∧ (x.mul z).val = 0 := by
  obtain ⟨hf, hl, hu⟩ := mul_between hx hz (lo := zero) (hi := zero) rfl rfl (by simp [h]) (by simp [h])
  rw [val_zero] at hl hu
  exact ⟨hf, Int.le_antisymm hu hl⟩

/-! Control operators. -/

/-- `clamp` keeps NaN (R17, R508). -/
theorem clamp_nan (lo hi : F32) : F32.clamp .nan lo hi = .nan := rfl

/-- What a coefficient in [0, 1/4] is in units. -/
theorem coefficient_bounds {c : F32} (h0 : zero.le c = true) (h4 : c.le (.dec 25 100) = true) :
    c.isFinite = true ∧ 0 ≤ c.val ∧ 4 * c.val ≤ unitsPerOne := by
  have hq : (dec 25 100).isFinite = true ∧ 4 * (dec 25 100).val = unitsPerOne := by decide +kernel
  have hc := isFinite_of_le_of_le rfl hq.1 h0 h4
  have l0 := (le_iff rfl hc).1 h0
  have l4 := (le_iff hc hq.1).1 h4
  rw [val_zero] at l0
  exact ⟨hc, l0, by omega⟩

/-- A smoother at its target stays there (R180). -/
theorem smoothed_at_target {y c : F32} (hy : y.isFinite = true) (hc : c.isFinite = true) :
    (smoothed y y c).isFinite = true ∧ (smoothed y y c).val = y.val := by
  obtain ⟨hd, hd0⟩ := sub_self_val hy
  obtain ⟨hm, hm0⟩ := mul_of_val_zero hc hd hd0
  exact add_of_val_zero hy hm hm0

/-! `floor` and `wrap01`. -/

/-- Below 2^24 in magnitude the floor is an integer `k` with `k ≤ x < k + 1`, and both bounds are exact (R17). -/
theorem floor_eq_ofInt {x : F32} (h1 : (dec 16777216 1).neg.lt x = true) (h2 : x.lt (.dec 16777216 1) = true) :
    ∃ k : Int, Machine.sameNumber x.floor (.ofInt k) ∧ (ofInt k).le x = true ∧ x.lt (.ofInt (k + 1)) = true := by
  have hB : (dec 16777216 1).isFinite = true ∧ (dec 16777216 1).val = 2 ^ 24 * (unitsPerOne : Int) := by decide +kernel
  have hB' : (dec 16777216 1).neg.isFinite = true := by rw [isFinite_neg]; exact hB.1
  have hx := isFinite_of_lt_of_lt hB' hB.1 h1 h2
  rw [lt_iff hB' hx, val_neg, hB.2] at h1
  rw [lt_iff hx hB.1, hB.2] at h2
  obtain ⟨hf, f1, f2, k, hk⟩ := floor_spec hx
  rw [Int.mul_comm] at hk
  have hU : (0 : Int) < unitsPerOne := by exact_mod_cast unitsPerOne_pos
  have hlo : -2 ^ 24 < k + 1 := by
    refine lt_of_mul_lt_mul_right ?_ hU.le
    rw [Int.add_mul, ← hk]; omega
  have hhi : k < 2 ^ 24 := by
    refine lt_of_mul_lt_mul_right ?_ hU.le
    rw [← hk]; omega
  obtain ⟨e1, v1⟩ := Machine.ofInt_exact k (by omega)
  obtain ⟨e2, v2⟩ := Machine.ofInt_exact (k + 1) (by omega)
  refine ⟨k, Machine.sameNumber_of_val hf e1 (hk.trans v1.symm), ?_, ?_⟩
  · rw [le_iff e1 hx, v1, ← hk]; exact f1
  · rw [lt_iff hx e2, v2, Int.add_mul, ← hk]; omega

/-- The floor of a value in [0, 1) is a zero. -/
theorem floor_val_of_lt_one {x : F32} (hx : x.isFinite = true) (h0 : 0 ≤ x.val) (h1 : x.val < unitsPerOne) :
    x.floor.val = 0 := by
  obtain ⟨-, f1, f2, hd⟩ := floor_spec hx
  exact Int.eq_zero_of_abs_lt_dvd hd (abs_lt.2 ⟨by omega, by omega⟩)

/-- `wrap01` keeps a value that is in [0, 1) already (R17). -/
theorem wrap01_val_of_lt_one {x : F32} (hx : x.isFinite = true) (h0 : 0 ≤ x.val) (h1 : x.val < unitsPerOne) :
    x.wrap01.isFinite = true ∧ x.wrap01.val = x.val := by
  obtain ⟨hf, -⟩ := floor_spec hx
  obtain ⟨hs, hv⟩ := sub_of_val_zero hx hf (floor_val_of_lt_one hx h0 h1)
  have hlt : one.le (x.sub x.floor) ≠ true := by rw [ne_eq, le_iff rfl hs, val_one]; omega
  rw [wrap01, if_neg hlt]
  exact ⟨hs, hv⟩

end F32

namespace Machine
open F32

/-! Phases. -/

theorem inPhase_iff_val {x : F32} : inPhase x = true ↔ x.isFinite = true ∧ 0 ≤ x.val ∧ x.val < unitsPerOne := by
  rw [inPhase_iff]
  constructor
  · rintro ⟨h0, h1⟩
    have hx := isFinite_of_le_of_le rfl rfl h0 (le_of_lt h1)
    rw [le_iff rfl hx, val_zero] at h0
    rw [lt_iff hx rfl, val_one] at h1
    exact ⟨hx, h0, h1⟩
  · rintro ⟨hx, h0, h1⟩
    rw [le_iff rfl hx, lt_iff hx rfl, val_zero, val_one]
    exact ⟨h0, h1⟩

/-- A phase moved by 0.0 is the same number (R363; assumption 24). -/
theorem unmoved_phase {p : F32} (h : inPhase p = true) : sameNumber p (p.add .zero).wrap01 := by
  obtain ⟨hp, h0, h1⟩ := inPhase_iff_val.1 h
  obtain ⟨ha, va⟩ := add_of_val_zero hp (z := .zero) rfl val_zero
  obtain ⟨hw, vw⟩ := wrap01_val_of_lt_one ha (by omega) (by omega)
  exact sameNumber_of_val hp hw (by omega)

/-- SE.MOD, SH.PAN and SH.ADV as rows keep the phases in [0, 1) (R288, R370, R372). -/
theorem exec_keeps_phasesOk {i : Instr} {s t : State} (hi : i = .seMod ∨ i = .shPan ∨ i = .shAdv)
    (hc : s.cfg.ok = true) (hp : phasesOk s = true) (h : exec i s = .next t) : phasesOk t = true := by
  obtain ⟨hmod, hpan, hadv⟩ := phasesOk_rows hc hp
  rcases hi with rfl | rfl | rfl
  · have e : seMod s = t := Host.Outcome.next.inj h
    rwa [← e]
  · have e : shPan s = t := Host.Outcome.next.inj h
    rwa [← e]
  · have e : shAdv s = t := Host.Outcome.next.inj h
    rwa [← e]

/-- SH.OSC keeps the oscillator phases in [0, 1) while the voice frequencies are finite (R369). -/
theorem shOsc_keeps_oscillator_phases {s : State} (hc : 0 < s.cfg.fs) (hf : ∀ f ∈ s.wires.sh.f.toList, f.isFinite = true)
    (hp : ∀ p ∈ s.sh.th.toList, inPhase p = true) : ∀ p ∈ (shOsc s).sh.th.toList, inPhase p = true :=
  Oct.forall_mem_zip (P := (inPhase · = true)) (Q := (F32.isFinite · = true)) (R := (inPhase · = true))
    (fun _ _ => stepPhase_inPhase hc) hp hf

/-- Paused, SH.ADV keeps every pitch phase (R363, R372). -/
theorem shAdv_paused_keeps_phases {s : State} (hd : s.sh.dir = .p1) (hp : ∀ p ∈ s.sh.p.toList, inPhase p = true) :
    ∀ pq ∈ s.sh.p.toList.zip (shAdv s).sh.p.toList, sameNumber pq.1 pq.2 := by
  intro pq h
  obtain ⟨hm, he⟩ := Oct.mem_zip_map h
  rw [he, hd]
  exact unmoved_phase (hp _ hm)

/-! The statements. -/

/-- Settles O20: every clause is a fact about values in units of 2^-149, clamp, smoother and accumulator each by its own law. -/
theorem controlOperatorsKeepRanges : Obligations.ControlOperatorsKeepRanges := by
  refine ⟨fun a lo hi e ha h => accumulated_within e ha h, fun x lo hi hx h => clamp_within hx h,
    fun x lo hi h1 h2 => clamp_id h1 h2, clamp_nan, fun y t c hy ht h0 h4 => ?_, fun y c hy hc => ?_⟩
  · obtain ⟨hc, c0, c4⟩ := coefficient_bounds h0 h4
    exact smoothed_inUnit hy ht hc c0 c4
  · obtain ⟨hs, hv⟩ := smoothed_at_target hy hc
    exact sameNumber_of_val hs hy hv

/-- Settles O54: `floor` is pinned by its exact integer, and each row moves its phases by a finite amount and wraps them. -/
theorem phasesStayInRange : Obligations.PhasesStayInRange := by
  refine ⟨fun x => rfl, fun x h1 h2 => floor_eq_ofInt h1 h2, fun x hx => wrap01_inPhase hx,
    fun i s t hi hc hp h => exec_keeps_phasesOk hi hc hp h, fun s t hc hf hp h => ?_, fun s t hd hp h => ?_⟩
  · have e : shOsc s = t := Host.Outcome.next.inj h
    rw [← e]
    exact shOsc_keeps_oscillator_phases (rates_of_ok hc).1 hf hp
  · have e : shAdv s = t := Host.Outcome.next.inj h
    rw [← e]
    exact shAdv_paused_keeps_phases hd hp

end Machine
end Sys2Proof
end

section
/-! PROOFS. The state family (10_state.md), first part: what one row, one command and one step can do to the state, said once
(R50, R201, R431, R433, R435, R502, R510), and the statements about the inactive modes, the configuration, the logs and the
indicator. -/

namespace Sys2Proof.Machine

variable {m : Mode} {s t u : State}

/-! The rows of a mode. -/

/-- A row of a mode writes that mode's state, the wires and the end of the event log (R50, R502). -/
theorem frame_exec {i : Instr} (hm : modeOfRow i = some m) (h : exec i s = .next t) : ModeFrame m s t := by
  cases i <;> cases hm
  case fdUpdate => cases h; exact frame_setFd _ _
  case fdProcess => cases h; exact frame_fdProcess s
  case fdGate | fdAaf | fdOs | fdSvf => cases h; exact frame_fd _ _ _
  case fdWarm | fdHard | fdDestroy | fdTapLp | fdTapBp | fdTapHp | fdDrive | fdComp => cases h; exact frame_wires _ _ _
  case seUpdate | seWrite => cases h; exact frame_setSe _ _
  case seProcess => exact frame_seProcess h
  case seRead =>
    rcases seRead_cases s with ⟨-, -, e⟩ | ⟨d, -, -, e⟩
    · cases e.symm.trans h; exact frame_wires _ _ _
    · cases e.symm.trans h
  case seMod | seFb | seRev => cases h; exact frame_se _ _ _
  case seShort | seMed | seLong | seBright | seNormal | seDark | seOut => cases h; exact frame_wires _ _ _
  case srUpdate => cases h; exact frame_setSr _ _
  case srProcess => exact frame_srProcess h
  case srPredly =>
    rcases srPredly_cases s with ⟨-, e⟩ | ⟨-, e⟩
    · cases e.symm.trans h; exact frame_sr _ _ _
    · cases e.symm.trans h
  case srHpf | srRevin | srAr | srShift | srPost => cases h; exact frame_sr _ _ _
  case srUp12 | srDn12 | srUp7 | srBright | srNormal | srDark | srOut => cases h; exact frame_wires _ _ _
  case shUpdate | shAdv => cases h; exact frame_setSh _ _
  case shProcess => cases h; exact frame_shProcess s
  case shOsc | shPan | shTone | shRev => cases h; exact frame_sh _ _ _
  case shUp | shPause | shDown | shLow | shMid | shHigh | shVoice | shSum => cases h; exact frame_wires _ _ _

/-- Settles O28: each row's frame is that of the parts it writes. -/
theorem modeRowsTouchOnlyTheirMode : Obligations.ModeRowsTouchOnlyTheirMode := by
  intro i m s t hm h
  have f := frame_exec hm h
  exact ⟨f.cfg, f.seq, f.snap, f.xf, f.lim, f.refused, f.ports, f.row, f.events, f.fd, f.se, f.sr, f.sh⟩

/-! A BLOCK. -/

/-- A frame holds wherever the sequencer stands. -/
theorem ModeFrame.setSeq (h : ModeFrame m s t) (q : Seq) : ModeFrame m (s.setSeq q) (t.setSeq q) :=
  { h with seq := rfl }

/-- One frame of a block touches the active mode, the wires and the sequencer (R431, R441). -/
theorem frame_runFrame {n : Nat} {f : Stereo F32} (h : runFrame n f s = .next t) :
    ModeFrame s.xf.active (s.setSeq (.sample n)) t := by
  obtain ⟨u, hu, e⟩ := thenDo_eq_next.1 h
  cases e
  exact (((frame_wires _ _ _).trans (frame_wires _ _ _)).trans (frame_engDispatch hu)).trans
    ((frame_wires _ _ _).trans (frame_wires _ _ _))

/-- All frames of a block, whose active mode stays the same (R431, R441). -/
theorem frame_runFrames {frames : List (Stereo F32)} {n : Nat} (h : runFrames n frames s = .next t) :
    ∃ q, ModeFrame s.xf.active (s.setSeq q) t := by
  induction frames generalizing n s with
  | nil => cases h; exact ⟨t.seq, .refl _ _⟩
  | cons f rest ih =>
    obtain ⟨u, hu, ht⟩ := thenDo_eq_next.1 h
    have first := frame_runFrame hu
    obtain ⟨q, others⟩ := ih ht
    rw [first.xf] at others
    exact ⟨q, (first.setSeq q).trans others⟩

/-- A BLOCK whose checks have passed completes when its frames do (R431). -/
theorem runBlock_eq_next {k : Snapshot} {frames : List (Stereo F32)} : runBlock k frames s = .next t ↔
    ∃ u, runFrames 0 frames (runCtrl (acceptBlock k frames s)) = .next u ∧ runLimit u = t := by
  refine thenDo_eq_next.trans (exists_congr fun u => and_congr_right fun _ => ?_)
  exact ⟨Host.Outcome.next.inj, congrArg _⟩

theorem Snapshot.ok_of_knobOk {ktop kbot : Word} (enc : BitVec 16) (press : Bool) (l r : SwPos) (ht : knobOk ktop = true)
    (hb : knobOk kbot = true) : (⟨.ofBits ktop, .ofBits kbot, enc, press, l, r⟩ : Snapshot).ok = true := by
  simp only [knobOk, knobInRange, Bool.and_eq_true] at ht hb
  obtain ⟨⟨-, t0⟩, t1⟩ := ht
  obtain ⟨⟨-, b0⟩, b1⟩ := hb
  simp only [Snapshot.ok, inUnit, within, t0, t1, b0, b1, Bool.and_true]

/-- A BLOCK is refused, or its checks have passed and it runs (R431, R511). -/
theorem execBlock_cases {enc : BitVec 16} {press : Bool} {swl swr : BitVec 2} {ktop kbot : Word}
    {frames : List (Stereo Word)} (h : exec (.block enc press swl swr ktop kbot frames) s = .next t) :
    (∃ e, t = refuse e s) ∨ ∃ k fs, k.ok = true ∧ runBlock k fs s = .next t := by
  change execBlock enc press swl swr ktop kbot frames s = .next t at h
  unfold execBlock at h
  split at h
  · split at h
    next hk =>
      rw [Bool.and_eq_true] at hk
      exact .inr ⟨_, _, Snapshot.ok_of_knobOk _ _ _ _ hk.1 hk.2, h⟩
    next => cases h; exact .inl ⟨_, rfl⟩
  · cases h; exact .inl ⟨_, rfl⟩

/-- Settles O27: the control update has the frame of the mode active before the advance, the samples that of the mode active
after it, and nothing else in a BLOCK writes a mode. -/
theorem inactiveModesAreFrozen : Obligations.InactiveModesAreFrozen := by
  intro s t enc press swl swr ktop kbot frames h
  rcases execBlock_cases h with ⟨e, rfl⟩ | ⟨k, fs, -, hb⟩
  · exact ⟨fun _ _ => rfl, fun _ _ => rfl, fun _ _ => rfl, fun _ _ => rfl⟩
  · obtain ⟨u, hu, rfl⟩ := runBlock_eq_next.1 hb
    have update := frame_engUpdate (engRead (acceptBlock k fs s))
    obtain ⟨q, samples⟩ := frame_runFrames hu
    have active : (runCtrl (acceptBlock k fs s)).xf.active = u.xf.active := congrArg Xf.active samples.xf.symm
    rw [active] at samples
    exact ⟨fun before after => (samples.fd after).trans (update.fd before),
      fun before after => (samples.se after).trans (update.se before),
      fun before after => (samples.sr after).trans (update.sr before),
      fun before after => (samples.sh after).trans (update.sh before)⟩

/-! RESET. -/

/-- What RESET leaves alone (R430). -/
theorem resetEngine_frame (s : State) : (resetEngine s).cfg = s.cfg ∧ (resetEngine s).refused = s.refused ∧
    (resetEngine s).events = s.events ∧ (resetEngine s).ports = s.ports := by
  simp [resetEngine, modeReset]

/-- What RESET makes of the snapshot, the switcher and the modes (R430). -/
theorem resetEngine_parts (s : State) : (resetEngine s).snap = .s0 ∧ (resetEngine s).xf = .reset ∧
    (resetEngine s).fd = fdInit s.cfg ∧ (resetEngine s).se = seInit s.cfg ∧ (resetEngine s).sr = srInit s.cfg ∧
    (resetEngine s).sh = shInit s.cfg := by
  simp [resetEngine, modeReset]

/-! A step. -/

/-- Taking the fetched code writes the row port or the command port (R148). -/
theorem consume_cases (rest : List Word) (s : State) :
    consume rest s = s.setRow none ∨ consume rest s = s.setPorts { s.ports with cmd := rest } := by
  unfold consume
  cases s.row with
  | none => exact .inr rfl
  | some r => exact .inl rfl

/-- A step that goes on has waited, refused a command, or run an instruction (R510, R519). -/
theorem step_cases (h : step s = .next t) :
    t = s ∨ (∃ rest e, t = refuse e (consume rest s)) ∨ ∃ i rest, exec i (consume rest s) = .next t := by
  unfold step at h
  split at h
  · cases h; exact .inl rfl
  next why rest _ =>
    cases why with
    | badOpcode cw => cases h; exact .inr (.inl ⟨_, _, rfl⟩)
    | reservedBits cw => cases h; exact .inr (.inl ⟨_, _, rfl⟩)
    | noRow slot sel => cases h
  next i rest _ => exact .inr (.inr ⟨i, rest, h⟩)

/-! The configuration and the logs. -/

/-- `t` has the configuration of `s`, its refusal mark if set, and everything `s` had logged and emitted (R40, R43, R501;
that nothing leaves the log or `aout` is the model's bookkeeping: assumption 18). -/
structure Extends (s t : State) : Prop where
  cfg : t.cfg = s.cfg
  refused : s.refused = true → t.refused = true
  events : s.events <+: t.events
  aout : s.ports.aout <+: t.ports.aout

theorem Extends.of_eq (cfg : t.cfg = s.cfg) (refused : t.refused = s.refused) (events : t.events = s.events)
    (aout : t.ports.aout = s.ports.aout) : Extends s t :=
  ⟨cfg, refused.trans, events ▸ List.prefix_rfl, aout ▸ List.prefix_rfl⟩

theorem Extends.refl (s : State) : Extends s s := .of_eq rfl rfl rfl rfl

theorem Extends.trans (h : Extends s t) (g : Extends t u) : Extends s u :=
  ⟨g.cfg.trans h.cfg, g.refused ∘ h.refused, h.events.trans g.events, h.aout.trans g.aout⟩

theorem ModeFrame.extends (f : ModeFrame m s t) : Extends s t :=
  ⟨f.cfg, f.refused.trans, f.events, f.ports ▸ List.prefix_rfl⟩

theorem Extends.of_refuse (e : Event) (s : State) : Extends s (refuse e s) :=
  ⟨rfl, fun _ => rfl, List.prefix_append _ _, List.prefix_rfl⟩

theorem Extends.of_consume (rest : List Word) (s : State) : Extends s (consume rest s) := by
  rcases consume_cases rest s with e | e <;> rw [e] <;> exact .of_eq rfl rfl rfl rfl

/-- The end of a BLOCK appends its frames to `aout` (R440). -/
theorem Extends.of_runLimit (s : State) : Extends s (runLimit s) :=
  ⟨rfl, id, List.prefix_rfl, List.prefix_append _ _⟩

theorem Extends.of_runBlock {k : Snapshot} {fs : List (Stereo F32)} (h : runBlock k fs s = .next t) : Extends s t := by
  obtain ⟨u, hu, rfl⟩ := runBlock_eq_next.1 h
  obtain ⟨q, samples⟩ := frame_runFrames hu
  have latch : Extends s (engRead (acceptBlock k fs s)) := .of_eq rfl rfl rfl rfl
  have advance : Extends (engUpdate (engRead (acceptBlock k fs s))) ((runCtrl (acceptBlock k fs s)).setSeq q) :=
    .of_eq rfl rfl rfl rfl
  exact latch.trans <| (frame_engUpdate _).extends.trans <| advance.trans <| samples.extends.trans <| .of_runLimit u

theorem Extends.of_resetEngine (s : State) : Extends s (resetEngine s) := by
  obtain ⟨cfg, refused, events, ports⟩ := resetEngine_frame s
  exact .of_eq cfg refused events (congrArg Ports.aout ports)

/-- The rows of no mode, and the commands. -/
theorem Extends.of_engineRow {i : Instr} (hm : modeOfRow i = none) (h : exec i s = .next t) : Extends s t := by
  cases i <;> cases hm
  case reset => cases h; exact (of_resetEngine s).trans (.of_eq rfl rfl rfl rfl)
  case block =>
    rcases execBlock_cases h with ⟨e, rfl⟩ | ⟨k, fs, -, hb⟩
    · exact .of_refuse e s
    · exact .of_runBlock hb
  case engUpdate => cases h; exact (frame_engUpdate s).extends
  case engDispatch => exact (frame_engDispatch h).extends
  case guard => cases h; exact (frame_guardOutput _ s).extends
  case swAdvance | swFadeout | swFadein => cases h; exact .of_eq rfl rfl rfl rfl
  case engRead | smooth | acc | engIngain | engWidth | engXfade | engLimit | ind => cases h; exact .of_eq rfl rfl rfl rfl

/-- No instruction changes the configuration, clears the refusal mark, or removes an event or an emitted frame. -/
theorem Extends.of_exec {i : Instr} (h : exec i s = .next t) : Extends s t := by
  cases hm : modeOfRow i with
  | some m => exact (frame_exec hm h).extends
  | none => exact .of_engineRow hm h

/-- Every step that goes on extends the state it starts from. -/
theorem Extends.of_step (h : step s = .next t) : Extends s t := by
  rcases step_cases h with rfl | ⟨rest, e, rfl⟩ | ⟨i, rest, h⟩
  · exact .refl t
  · exact (Extends.of_consume rest s).trans (.of_refuse e _)
  · exact (Extends.of_consume rest s).trans (.of_exec h)

/-- Settles O57: every instruction, refusal and wait extends the state. -/
theorem stepKeepsConfigAndLogs : Obligations.StepKeepsConfigAndLogs := by
  intro s t h
  obtain ⟨cfg, refused, events, aout⟩ := Extends.of_step h
  exact ⟨cfg, refused, events, aout⟩

/-! The indicator. -/

/-- The switching flag is 1 exactly in FadingOut and FadingIn (R36). -/
theorem switching_eq (xf : Xf) : xf.switching = decide (xf.state = .fadingOut ∨ xf.state = .fadingIn) := by
  rw [Xf.switching]
  cases xf.state <;> rfl

/-- Settles O19: IND writes `indicatorOf xf`, whose flag is `xf.switching`. -/
theorem indicatorShowsPendingWhileSwitching : Obligations.IndicatorShowsPendingWhileSwitching := by
  intro s
  rw [← switching_eq]
  rfl

end Sys2Proof.Machine
end

section
/-! PROOFS. The state family (10_state.md), second part: an invariant given by one predicate per part of the state holds
after every step when accepted knobs meet it and the mode rows, the switcher and the resets keep it. -/

namespace Sys2Proof.Machine

open F32

variable {m : Mode} {s t : State} {c : Cfg}

/-! The rows that the engine picks. -/

/-- The update row of a mode (R433). -/
def updateRow : Mode → Instr
  | .fd => .fdUpdate
  | .se => .seUpdate
  | .sr => .srUpdate
  | .sh => .shUpdate

/-- The process row of a mode (R435). -/
def processRow : Mode → Instr
  | .fd => .fdProcess
  | .se => .seProcess
  | .sr => .srProcess
  | .sh => .shProcess

theorem modeOfRow_updateRow (m : Mode) : modeOfRow (updateRow m) = some m := by cases m <;> rfl

theorem exec_updateRow (m : Mode) (s : State) : exec (updateRow m) s = .next (updateMode m s) := by cases m <;> rfl

theorem exec_processRow (m : Mode) (s : State) : exec (processRow m) s = processMode m s := by cases m <;> rfl

/-- The stages of a mode's sample, in their order (R254, R294, R335, R375). -/
def stageRows : Mode → List Instr
  | .fd => [.fdGate, .fdAaf, .fdOs, .fdSvf, .fdComp]
  | .se => [.seMod, .seRead, .seFb, .seWrite, .seRev, .seOut]
  | .sr => [.srHpf, .srPredly, .srRevin, .srAr, .srShift, .srPost, .srOut]
  | .sh => [.shVoice, .shOsc, .shPan, .shSum, .shAdv, .shTone, .shRev]

/-- A stage is a row of its mode and not the process row. -/
theorem stageRows_ofMode {i : Instr} (h : i ∈ stageRows m) : modeOfRow i = some m ∧ i ≠ processRow m := by
  revert i
  cases m <;> decide

theorem runRows_cons_of_next {i : Instr} {rest : List Instr} (h : exec i s = .next t) :
    runRows (i :: rest) s = runRows rest t := by rw [runRows, h, thenDo_next]

theorem runRows_fdStages (s : State) :
    runRows (stageRows .fd) s = .next (fdComp (fdSvf (fdOs (fdAaf (fdGate s))))) := by
  rw [stageRows, runRows_cons_of_next (t := fdGate s) rfl, runRows_cons_of_next (t := fdAaf _) rfl,
    runRows_cons_of_next (t := fdOs _) rfl, runRows_cons_of_next (t := fdSvf _) rfl,
    runRows_cons_of_next (t := fdComp _) rfl, runRows]

/-- The stages after SE.READ (R294). -/
theorem runRows_seStages (s : State) :
    runRows [.seFb, .seWrite, .seRev, .seOut] s = .next (seOut (seRev (seWrite (seFb s)))) := by
  rw [runRows_cons_of_next (t := seFb s) rfl, runRows_cons_of_next (t := seWrite _) rfl,
    runRows_cons_of_next (t := seRev _) rfl, runRows_cons_of_next (t := seOut _) rfl, runRows]

/-- The stages after SR.PREDLY (R335). -/
theorem runRows_srStages (s : State) :
    runRows [.srRevin, .srAr, .srShift, .srPost, .srOut] s = .next (srOut (srPost (srShift (srAr (srRevin s))))) := by
  rw [runRows_cons_of_next (t := srRevin s) rfl, runRows_cons_of_next (t := srAr _) rfl,
    runRows_cons_of_next (t := srShift _) rfl, runRows_cons_of_next (t := srPost _) rfl,
    runRows_cons_of_next (t := srOut _) rfl, runRows]

theorem runRows_shStages (s : State) :
    runRows (stageRows .sh) s = .next (shRev (shTone (shAdv (shSum (shPan (shOsc (shVoice s))))))) := by
  rw [stageRows, runRows_cons_of_next (t := shVoice s) rfl, runRows_cons_of_next (t := shOsc _) rfl,
    runRows_cons_of_next (t := shPan _) rfl, runRows_cons_of_next (t := shSum _) rfl,
    runRows_cons_of_next (t := shAdv _) rfl, runRows_cons_of_next (t := shTone _) rfl,
    runRows_cons_of_next (t := shRev _) rfl, runRows]

/-- One sample of a mode is its stages, then GUARD (R254, R294, R335, R375). -/
theorem processMode_eq_stages (m : Mode) (s : State) :
    processMode m s = thenDo (runRows (stageRows m) s) fun u => .next (guardOutput m u) := by
  cases m with
  | fd => rw [runRows_fdStages, thenDo_next, processMode, fdProcess]
  | se =>
    rw [stageRows, runRows_cons_of_next (t := seMod s) rfl, runRows, funext runRows_seStages, thenDo_assoc, processMode,
      seProcess]
    rfl
  | sr =>
    rw [stageRows, runRows_cons_of_next (t := srHpf s) rfl, runRows, funext runRows_srStages, thenDo_assoc, processMode,
      srProcess]
    rfl
  | sh => rw [runRows_shStages, thenDo_next, processMode, shProcess]

/-! Invariants by parts. -/

/-- A predicate for each part of the state: the control snapshot (at the port and latched), the switcher, the four modes. -/
structure Parts where
  snap : Snapshot → Prop
  xf : Xf → Prop
  fd : FdState → Prop
  se : SeState → Prop
  sr : SrState → Prop
  sh : ShState → Prop

/-- The predicate on a mode's part. -/
def Parts.mode (I : Parts) (s : State) : Mode → Prop
  | .fd => I.fd s.fd
  | .se => I.se s.se
  | .sr => I.sr s.sr
  | .sh => I.sh s.sh

/-- Every part meets its predicate. -/
structure Parts.Holds (I : Parts) (s : State) : Prop where
  ctl : I.snap s.ports.ctl
  snap : I.snap s.snap
  xf : I.xf s.xf
  mode : ∀ m, I.mode s m

/-- What makes the predicates an invariant under the configuration `c`: accepted knobs meet theirs, and latching,
the switcher's operations, MODE_RESET and each mode's rows keep them. Of the process rows nothing is asked: they are
stage rows and GUARD. -/
structure Parts.Closed (I : Parts) (c : Cfg) : Prop where
  accepted : ∀ k, k.ok = true → I.snap k
  latched : ∀ k, I.snap k → I.snap { k with ktop := k.ktop.positiveZero, kbot := k.kbot.positiveZero }
  steady : I.xf .reset
  advance : ∀ press x, I.xf x → I.xf (xfAdvance c.xfStep press x)
  fadeOut : ∀ x, I.xf x → I.xf (xfFadeOut c.xfStep x)
  fadeIn : ∀ x, I.xf x → I.xf (xfFadeIn c.xfStep x)
  init : ∀ m s, s.cfg = c → I.mode (modeReset m s) m
  row : ∀ i m s t, modeOfRow i = some m → i ≠ processRow m → s.cfg = c → I.snap s.snap → I.mode s m →
    exec i s = .next t → I.mode t m

variable {I : Parts}

/-- The reset snapshot is an accepted one (R44). -/
theorem Parts.Closed.idle (hI : I.Closed c) : I.snap .s0 := hI.accepted .s0 (by decide)

/-- The predicate on a mode that a frame leaves alone. -/
theorem ModeFrame.mode_eq (f : ModeFrame m s t) {n : Mode} (hn : m ≠ n) : I.mode t n = I.mode s n := by
  cases n with
  | fd => exact congrArg I.fd (f.fd hn)
  | se => exact congrArg I.se (f.se hn)
  | sr => exact congrArg I.sr (f.sr hn)
  | sh => exact congrArg I.sh (f.sh hn)

/-- What touches mode m alone keeps the invariant when it keeps that mode's predicate. -/
theorem Parts.Holds.of_frame (h : I.Holds s) (f : ModeFrame m s t) (hm : I.mode t m) : I.Holds t where
  ctl := f.ports ▸ h.ctl
  snap := f.snap ▸ h.snap
  xf := f.xf ▸ h.xf
  mode n := by
    by_cases e : m = n
    · exact e ▸ hm
    · rw [f.mode_eq e]; exact h.mode n

/-- GUARD passes the mode's state or resets it (R200). -/
theorem Parts.Holds.of_guardOutput (h : I.Holds s) (hI : I.Closed s.cfg) (m : Mode) : I.Holds (guardOutput m s) := by
  refine h.of_frame (frame_guardOutput m s) ?_
  rcases guardOutput_cases m s with ⟨-, -, e⟩ | e <;> rw [e]
  · exact h.mode m
  · exact hI.init m s rfl

theorem Parts.Holds.of_stageRow {i : Instr} (h : I.Holds s) (hI : I.Closed s.cfg) (hm : modeOfRow i = some m)
    (hp : i ≠ processRow m) (e : exec i s = .next t) : I.Holds t :=
  h.of_frame (frame_exec hm e) (hI.row i m s t hm hp rfl h.snap (h.mode m) e)

theorem Parts.Holds.of_stageRows {rows : List Instr} (h : I.Holds s) (hI : I.Closed s.cfg)
    (hr : ∀ i ∈ rows, modeOfRow i = some m ∧ i ≠ processRow m) (e : runRows rows s = .next t) :
    I.Holds t ∧ t.cfg = s.cfg := by
  induction rows generalizing s with
  | nil => cases e; exact ⟨h, rfl⟩
  | cons i rest ih =>
    obtain ⟨u, hu, ht⟩ := thenDo_eq_next.1 e
    obtain ⟨⟨hm, hp⟩, others⟩ := List.forall_mem_cons.1 hr
    have cfg : u.cfg = s.cfg := (frame_exec hm hu).cfg
    obtain ⟨holds, cfg'⟩ := ih (h.of_stageRow hI hm hp hu) (cfg ▸ hI) others ht
    exact ⟨holds, cfg'.trans cfg⟩

/-- One sample of a mode (R435). -/
theorem Parts.Holds.of_processMode (h : I.Holds s) (hI : I.Closed s.cfg) (e : processMode m s = .next t) : I.Holds t := by
  rw [processMode_eq_stages] at e
  obtain ⟨u, hu, e⟩ := thenDo_eq_next.1 e
  cases e
  obtain ⟨holds, cfg⟩ := h.of_stageRows hI (fun _ => stageRows_ofMode) hu
  exact holds.of_guardOutput (cfg ▸ hI) m

theorem Parts.Holds.of_row {i : Instr} (h : I.Holds s) (hI : I.Closed s.cfg) (hm : modeOfRow i = some m)
    (e : exec i s = .next t) : I.Holds t := by
  by_cases hp : i = processRow m
  · rw [hp, exec_processRow] at e
    exact h.of_processMode hI e
  · exact h.of_stageRow hI hm hp e

theorem Parts.Holds.of_engUpdate (h : I.Holds s) (hI : I.Closed s.cfg) : I.Holds (engUpdate s) :=
  h.of_row hI (modeOfRow_updateRow _) (exec_updateRow _ s)

theorem Parts.Holds.of_swAdvance (h : I.Holds s) (hI : I.Closed s.cfg) : I.Holds (swAdvance s) :=
  ⟨h.ctl, h.snap, hI.advance _ _ h.xf, h.mode⟩

/-- RESET gives every part its initial value (R430). -/
theorem Parts.Holds.of_resetEngine (h : I.Holds s) (hI : I.Closed s.cfg) : I.Holds (resetEngine s) := by
  obtain ⟨-, -, -, ports⟩ := resetEngine_frame s
  obtain ⟨snap, xf, fd, se, sr, sh⟩ := resetEngine_parts s
  refine ⟨by rw [ports]; exact h.ctl, by rw [snap]; exact hI.idle, by rw [xf]; exact hI.steady, fun m => ?_⟩
  cases m with
  | fd => exact (congrArg I.fd fd).mpr (hI.init .fd s rfl)
  | se => exact (congrArg I.se se).mpr (hI.init .se s rfl)
  | sr => exact (congrArg I.sr sr).mpr (hI.init .sr s rfl)
  | sh => exact (congrArg I.sh sh).mpr (hI.init .sh s rfl)

/-- The end of a command clears the port's snapshot to S0. -/
theorem Parts.Holds.of_finishCommand (h : I.Holds s) (hI : I.Closed c) : I.Holds (finishCommand s) :=
  ⟨hI.idle, h.snap, h.xf, h.mode⟩

theorem Parts.Holds.of_runFrame {n : Nat} {f : Stereo F32} (h : I.Holds s) (hI : I.Closed s.cfg)
    (e : runFrame n f s = .next t) : I.Holds t := by
  obtain ⟨u, hu, e⟩ := thenDo_eq_next.1 e
  cases e
  have gained : I.Holds (engIngain ((s.setSeq (.sample n)).setWires { s.wires with inp := f })) :=
    ⟨h.ctl, h.snap, h.xf, h.mode⟩
  have sampled := gained.of_processMode hI hu
  exact ⟨sampled.ctl, sampled.snap, sampled.xf, sampled.mode⟩

theorem Parts.Holds.of_runFrames {frames : List (Stereo F32)} {n : Nat} (h : I.Holds s) (hI : I.Closed s.cfg)
    (e : runFrames n frames s = .next t) : I.Holds t := by
  induction frames generalizing n s with
  | nil => cases e; exact h
  | cons f rest ih =>
    obtain ⟨u, hu, ht⟩ := thenDo_eq_next.1 e
    have cfg : u.cfg = s.cfg := (frame_runFrame hu).cfg
    exact ih (h.of_runFrame hI hu) (cfg ▸ hI) ht

theorem Parts.Holds.of_runBlock {k : Snapshot} {fs : List (Stereo F32)} (h : I.Holds s) (hI : I.Closed s.cfg)
    (hk : k.ok = true) (e : runBlock k fs s = .next t) : I.Holds t := by
  obtain ⟨u, hu, rfl⟩ := runBlock_eq_next.1 e
  have accepted := hI.accepted k hk
  have latch : I.Holds (engRead (acceptBlock k fs s)) := ⟨accepted, hI.latched k accepted, h.xf, h.mode⟩
  have cfg : (engUpdate (engRead (acceptBlock k fs s))).cfg = s.cfg := (frame_engUpdate _).cfg
  have control : I.Holds (runCtrl (acceptBlock k fs s)) := (latch.of_engUpdate hI).of_swAdvance (cfg ▸ hI)
  have frames := control.of_runFrames (cfg ▸ hI) hu
  have emitted : I.Holds (emit (engLimit (u.setSeq .limit))) := ⟨frames.ctl, frames.snap, frames.xf, frames.mode⟩
  exact emitted.of_finishCommand hI

/-- The rows of no mode, and the commands. -/
theorem Parts.Holds.of_engineRow {i : Instr} (h : I.Holds s) (hI : I.Closed s.cfg) (hm : modeOfRow i = none)
    (e : exec i s = .next t) : I.Holds t := by
  cases i <;> cases hm
  case reset => cases e; exact (h.of_resetEngine hI).of_finishCommand hI
  case block =>
    rcases execBlock_cases e with ⟨e, rfl⟩ | ⟨k, fs, hk, hb⟩
    · exact ⟨h.ctl, h.snap, h.xf, h.mode⟩
    · exact h.of_runBlock hI hk hb
  case swAdvance => cases e; exact h.of_swAdvance hI
  case swFadeout => cases e; exact ⟨h.ctl, h.snap, hI.fadeOut _ h.xf, h.mode⟩
  case swFadein => cases e; exact ⟨h.ctl, h.snap, hI.fadeIn _ h.xf, h.mode⟩
  case engRead => cases e; exact ⟨h.ctl, hI.latched _ h.ctl, h.xf, h.mode⟩
  case engUpdate => cases e; exact h.of_engUpdate hI
  case engDispatch => exact h.of_processMode hI e
  case guard => cases e; exact h.of_guardOutput hI _
  case smooth | acc | engIngain | engWidth | engXfade | engLimit | ind =>
    cases e; exact ⟨h.ctl, h.snap, h.xf, h.mode⟩

theorem Parts.Holds.of_exec {i : Instr} (h : I.Holds s) (hI : I.Closed s.cfg) (e : exec i s = .next t) : I.Holds t := by
  cases hm : modeOfRow i with
  | some m => exact h.of_row hI hm e
  | none => exact h.of_engineRow hI hm e

theorem Parts.Holds.of_consume (h : I.Holds s) (rest : List Word) : I.Holds (consume rest s) := by
  rcases consume_cases rest s with e | e <;> rw [e] <;> exact ⟨h.ctl, h.snap, h.xf, h.mode⟩

/-- A closed invariant by parts is kept by every step. -/
theorem Parts.Holds.of_step (h : I.Holds s) (hI : I.Closed s.cfg) (e : step s = .next t) : I.Holds t := by
  rcases step_cases e with rfl | ⟨rest, why, rfl⟩ | ⟨i, rest, hi⟩
  · exact h
  · have taken := h.of_consume rest
    exact ⟨taken.ctl, taken.snap, taken.xf, taken.mode⟩
  · have cfg := (Extends.of_consume rest s).cfg
    exact (h.of_consume rest).of_exec (cfg ▸ hI) hi

end Sys2Proof.Machine
end

section
/-! PROOFS. The state family (10_state.md), third part: the ranges of the state tables F, E, H and T, and the fade, as invariants
by parts (R34, R37, R39, R183, R507, R508). -/

namespace Sys2Proof.Machine

open F32

variable {s t : State} {c : Cfg} {k : Snapshot}

/-! Values that the control operators make. -/

/-- A knob times a bound is between 0 and the bound. -/
theorem knob_mul_within {x a : F32} (hx : inUnit x = true) (ha : a.isFinite = true) (h0 : 0 ≤ a.val) :
    within .zero a (x.mul a) = true := by
  obtain ⟨fx, x0, x1⟩ := inUnit_iff.1 hx
  rw [within_iff rfl ha]
  refine mul_between fx ha rfl ha ?_ ?_
  · rw [val_zero, Int.zero_mul]; exact mul_nonneg x0 h0
  · rw [Int.mul_comm a.val]; exact Int.mul_le_mul_of_nonneg_right x1 h0

/-- A -0.0 read as 0.0 stays in [0, 1] (R432). -/
theorem positiveZero_inUnit {x : F32} (h : inUnit x = true) : inUnit x.positiveZero = true := by
  unfold positiveZero
  split
  · exact inUnit_zero
  · exact h

/-- SMOOTH at the stated coefficient 0.05 keeps [0, 1] (R180, R241). -/
theorem smoothed_slowly_inUnit {y x : F32} (hy : inUnit y = true) (hx : inUnit x = true) :
    inUnit (smoothed y x (.dec 5 100)) = true :=
  smoothed_inUnit hy hx (by decide +kernel) (by decide +kernel) (by decide +kernel)

/-! The state tables. -/

/-- The ranges of table F. -/
structure FdRanges (m : FdState) : Prop where
  driveAcc : inUnit m.driveAcc = true
  driveSm : inUnit m.driveSm = true
  resT : inUnit m.resT = true
  resSm : inUnit m.resSm = true

/-- The ranges of table E. -/
structure SeRanges (m : SeState) : Prop where
  revAmt : inUnit m.revAmt = true
  fb : within .zero (.dec 11 10) m.fb = true
  flutPh : inPhase m.flutPh = true
  driftPh : inPhase m.driftPh = true

/-- The ranges of table H, that of the smoothed transposition where `p` claims it. -/
structure SrRanges (p : Prop) (m : SrState) : Prop where
  shAmt : within .zero (.dec 4 10) m.shAmt = true
  hpT : within (.dec 150 1) (.dec 500 1) m.hpT = true
  hpSm : within (.dec 150 1) (.dec 500 1) m.hpSm = true
  revFb : within (.dec 7 10) (.dec 98 100) m.revFb = true
  pitchT : within (F32.dec 12 1).neg (.dec 12 1) m.pitchT = true
  pitchSm : p → within (F32.dec 12 1).neg (.dec 12 1) m.pitchSm = true

/-- The ranges of table T. -/
structure ShRanges (m : ShState) : Prop where
  revAmt : inUnit m.revAmt = true
  toneFc : within (.dec 200 1) (.dec 12200 1) m.toneFc = true
  panPh : inPhase m.panPh = true
  p : ∀ x ∈ m.p.toList, inPhase x = true
  speed : m.speed.isFinite = true

/-! MODE_RESET gives values in range (R255, R295, R336, R376), into which no parameter enters. -/

theorem fdInit_ranges (c : Cfg) : FdRanges (fdInit c) := ⟨inUnit_zero, inUnit_zero, inUnit_zero, inUnit_zero⟩

theorem seInit_ranges (c : Cfg) : SeRanges (seInit c) where
  revAmt := inUnit_zero
  fb := show within .zero (.dec 11 10) .zero = true by decide +kernel
  flutPh := show inPhase .zero = true by decide
  driftPh := show inPhase .zero = true by decide

theorem srInit_ranges (p : Prop) (c : Cfg) : SrRanges p (srInit c) where
  shAmt := show within .zero (.dec 4 10) .zero = true by decide +kernel
  hpT := show within (.dec 150 1) (.dec 500 1) (.dec 150 1) = true by decide +kernel
  hpSm := show within (.dec 150 1) (.dec 500 1) (.dec 150 1) = true by decide +kernel
  revFb := show within (.dec 7 10) (.dec 98 100) (.dec 7 10) = true by decide +kernel
  pitchT := srTrans_within .p0
  pitchSm _ := srTrans_within .p0

theorem shInit_ranges (c : Cfg) : ShRanges (shInit c) where
  revAmt := inUnit_zero
  toneFc := show within (.dec 200 1) (.dec 12200 1) (.dec 200 1) = true by decide +kernel
  panPh := show inPhase .zero = true by decide
  p := show ∀ x ∈ (shInit Cfg.pRef).p.toList, inPhase x = true by decide +kernel
  speed := show (F32.dec 1 100).isFinite = true by decide +kernel

/-! The control updates keep the ranges (R241, R281, R321, R361). -/

theorem FdRanges.update {m : FdState} (h : FdRanges m) (hk : k.ok = true) : FdRanges (fdUpdated k m) := by
  obtain ⟨-, hb⟩ := (Bool.and_eq_true _ _).mp hk
  have acc : inUnit (fdUpdated k m).driveAcc = true := accumulated_within _ h.driveAcc rfl
  exact ⟨acc, smoothed_slowly_inUnit h.driveSm acc, hb, smoothed_slowly_inUnit h.resSm hb⟩

theorem SeRanges.update {m : SeState} (h : SeRanges m) (c : Cfg) (hk : k.ok = true) : SeRanges (seUpdated c k m) := by
  obtain ⟨-, hb⟩ := (Bool.and_eq_true _ _).mp hk
  exact ⟨accumulated_within _ h.revAmt rfl, knob_mul_within hb (by decide +kernel) (by decide +kernel), h.flutPh,
    h.driftPh⟩

theorem SrRanges.update {p : Prop} {m : SrState} (h : SrRanges p m) (h0 : F32.zero.le c.srPitchSmooth = true)
    (h4 : p → c.srPitchSmooth.le (.dec 25 100) = true) (hk : k.ok = true) : SrRanges p (srUpdated c k m) := by
  obtain ⟨hpT, hpSm, revFb, pitchT⟩ := srUpdated_ranges c m hk h.hpSm
  have amount : inUnit m.shAmt = true := within_trans h.shAmt (by decide +kernel)
  exact ⟨accumulated_within _ amount (by decide +kernel), hpT, hpSm, revFb, pitchT,
    fun hp => srUpdated_pitch k h0 (h4 hp) (h.pitchSm hp)⟩

theorem ShRanges.update {m : ShState} (h : ShRanges m) (c : Cfg) (hk : k.ok = true) : ShRanges (shUpdated c k m) := by
  obtain ⟨ht, hb⟩ := (Bool.and_eq_true _ _).mp hk
  exact ⟨accumulated_within _ h.revAmt rfl, shToneTarget_within hb, h.panPh, h.p, speed_finite ht⟩

/-! The stages that advance phases keep the ranges (R288, R370, R372). -/

theorem SeRanges.mod (h : SeRanges s.se) (hc : s.cfg.ok = true) : SeRanges (seMod s).se := by
  obtain ⟨rate, flutter, drift, -⟩ := rates_of_ok hc
  exact ⟨h.revAmt, h.fb, stepPhase_inPhase rate h.flutPh flutter, stepPhase_inPhase rate h.driftPh drift⟩

theorem ShRanges.pan (h : ShRanges s.sh) (hc : s.cfg.ok = true) : ShRanges (shPan s).sh := by
  obtain ⟨rate, -, -, spread⟩ := rates_of_ok hc
  exact ⟨h.revAmt, h.toneFc, stepPhase_inPhase rate h.panPh spread, h.p, h.speed⟩

theorem ShRanges.adv (h : ShRanges s.sh) (hc : s.cfg.ok = true) : ShRanges (shAdv s).sh := by
  have delta := shDelta_finite (rates_of_ok hc).1 h.speed s.sh.dir
  have moved : ∀ x ∈ (s.sh.p.map fun p => (p.add (shDelta s.cfg s.sh.speed s.sh.dir)).wrap01).toList,
      inPhase x = true := by
    rw [Oct.toList_map, List.forall_mem_map]
    exact fun p hp => moved_inPhase (h.p p hp) delta
  exact ⟨h.revAmt, h.toneFc, h.panPh, moved, h.speed⟩

/-! The rows of a mode keep its ranges: but for the update and the phase stages they write wires and signal history only. -/

theorem FdRanges.row {i : Instr} (h : FdRanges s.fd) (hm : modeOfRow i = some .fd) (hp : i ≠ .fdProcess)
    (hk : s.snap.ok = true) (e : exec i s = .next t) : FdRanges t.fd := by
  cases i <;> cases hm
  case fdUpdate => cases e; exact h.update hk
  case fdProcess => exact absurd rfl hp
  case fdWarm | fdHard | fdDestroy | fdTapLp | fdTapBp | fdTapHp | fdDrive | fdComp => cases e; exact h
  case fdGate | fdAaf | fdOs | fdSvf => cases e; exact ⟨h.driveAcc, h.driveSm, h.resT, h.resSm⟩

theorem SeRanges.row {i : Instr} (h : SeRanges s.se) (hm : modeOfRow i = some .se) (hp : i ≠ .seProcess)
    (hc : s.cfg.ok = true) (hk : s.snap.ok = true) (e : exec i s = .next t) : SeRanges t.se := by
  cases i <;> cases hm
  case seUpdate => cases e; exact h.update _ hk
  case seProcess => exact absurd rfl hp
  case seMod => cases e; exact h.mod hc
  case seRead =>
    rcases seRead_cases s with ⟨-, -, r⟩ | ⟨d, -, -, r⟩
    · cases r.symm.trans e; exact h
    · cases r.symm.trans e
  case seShort | seMed | seLong | seBright | seNormal | seDark | seOut => cases e; exact h
  case seFb | seWrite | seRev => cases e; exact ⟨h.revAmt, h.fb, h.flutPh, h.driftPh⟩

theorem SrRanges.row {p : Prop} {i : Instr} (h : SrRanges p s.sr) (hm : modeOfRow i = some .sr) (hp : i ≠ .srProcess)
    (h0 : F32.zero.le s.cfg.srPitchSmooth = true) (h4 : p → s.cfg.srPitchSmooth.le (.dec 25 100) = true)
    (hk : s.snap.ok = true) (e : exec i s = .next t) : SrRanges p t.sr := by
  cases i <;> cases hm
  case srUpdate => cases e; exact h.update h0 h4 hk
  case srProcess => exact absurd rfl hp
  case srPredly =>
    rcases srPredly_cases s with ⟨-, r⟩ | ⟨-, r⟩
    · cases r.symm.trans e; exact ⟨h.shAmt, h.hpT, h.hpSm, h.revFb, h.pitchT, h.pitchSm⟩
    · cases r.symm.trans e
  case srUp12 | srDn12 | srUp7 | srBright | srNormal | srDark | srOut => cases e; exact h
  case srHpf | srRevin | srAr | srShift | srPost =>
    cases e; exact ⟨h.shAmt, h.hpT, h.hpSm, h.revFb, h.pitchT, h.pitchSm⟩

theorem ShRanges.row {i : Instr} (h : ShRanges s.sh) (hm : modeOfRow i = some .sh) (hp : i ≠ .shProcess)
    (hc : s.cfg.ok = true) (hk : s.snap.ok = true) (e : exec i s = .next t) : ShRanges t.sh := by
  cases i <;> cases hm
  case shUpdate => cases e; exact h.update _ hk
  case shProcess => exact absurd rfl hp
  case shPan => cases e; exact h.pan hc
  case shAdv => cases e; exact h.adv hc
  case shUp | shPause | shDown | shLow | shMid | shHigh | shVoice | shSum => cases e; exact h
  case shOsc | shTone | shRev => cases e; exact ⟨h.revAmt, h.toneFc, h.panPh, h.p, h.speed⟩

/-! The crossfade. -/

/-- The configured crossfade step is in R407's range. -/
theorem xfStep_of_ok (hc : c.ok = true) :
    c.xfStep.isFinite = true ∧ 2 ^ 129 ≤ c.xfStep.val ∧ c.xfStep.val ≤ unitsPerOne := by
  simp only [Cfg.ok, Bool.and_eq_true, and_assoc] at hc
  obtain ⟨-, -, -, -, above, atMost, -⟩ := hc
  exact step_bounds above atMost

/-- The transposition coefficient is not negative (R180). -/
theorem srPitchSmooth_of_ok (hc : c.ok = true) : F32.zero.le c.srPitchSmooth = true := by
  simp only [Cfg.ok, Bool.and_eq_true, and_assoc] at hc
  obtain ⟨-, -, -, -, -, -, -, -, -, -, positive, -⟩ := hc
  exact le_of_lt positive

/-- Swap or not, the volume is one fade-out step down (R402). -/
theorem xfFadeOut_volume (step : F32) (xf : Xf) : (xfFadeOut step xf).volume = fadeOutVolume step xf.volume := by
  unfold xfFadeOut
  split <;> rfl

/-- The volume is 1.0 or one fade-in step up (R403). -/
theorem xfFadeIn_volume (step : F32) (xf : Xf) :
    (xfFadeIn step xf).volume = .one ∨ (xfFadeIn step xf).volume = fadeInVolume step xf.volume := by
  unfold xfFadeIn
  split
  · exact .inl rfl
  · exact .inr rfl

theorem xfPress_volume (press : Bool) (xf : Xf) : (xfPress press xf).volume = xf.volume := by cases press <;> rfl

theorem volume_fadeOut (hc : c.ok = true) {xf : Xf} (h : inUnit xf.volume = true) :
    inUnit (xfFadeOut c.xfStep xf).volume = true := by
  obtain ⟨hs, s0, s1⟩ := xfStep_of_ok hc
  rw [xfFadeOut_volume]
  exact (fadeOut_step h hs s0 s1).1

theorem volume_fadeIn (hc : c.ok = true) {xf : Xf} (h : inUnit xf.volume = true) :
    inUnit (xfFadeIn c.xfStep xf).volume = true := by
  obtain ⟨hs, s0, -⟩ := xfStep_of_ok hc
  rcases xfFadeIn_volume c.xfStep xf with e | e <;> rw [e]
  · decide
  · exact (fadeIn_step h hs s0).1

theorem volume_advance (hc : c.ok = true) (press : Bool) {xf : Xf} (h : inUnit xf.volume = true) :
    inUnit (xfAdvance c.xfStep press xf).volume = true := by
  unfold xfAdvance
  split
  · rw [xfPress_volume]; exact h
  · exact volume_fadeOut hc h
  · exact volume_fadeIn hc h

theorem fadeOk_iff {xf : Xf} : fadeOk xf = true ↔ (xf.state = .fadingIn → xf.pending = xf.active) := decide_eq_true_iff

/-- A swap makes the pending mode the active one (R402). -/
theorem fadeOk_fadeOut (step : F32) {xf : Xf} (h : fadeOk xf = true) : fadeOk (xfFadeOut step xf) = true := by
  unfold xfFadeOut
  split
  · exact fadeOk_iff.2 fun _ => rfl
  · exact h

/-- A fade-in ends in Steady or goes on between the same modes (R403). -/
theorem fadeOk_fadeIn (step : F32) {xf : Xf} (h : fadeOk xf = true) : fadeOk (xfFadeIn step xf) = true := by
  unfold xfFadeIn
  split
  · exact fadeOk_iff.2 nofun
  · exact h

/-- A press starts a fade-out (R401). -/
theorem fadeOk_advance (step : F32) (press : Bool) {xf : Xf} (h : fadeOk xf = true) :
    fadeOk (xfAdvance step press xf) = true := by
  unfold xfAdvance
  split
  · cases press with
    | true => exact fadeOk_iff.2 nofun
    | false => exact h
  · exact fadeOk_fadeOut step h
  · exact fadeOk_fadeIn step h

/-! The two invariants. -/

/-- The ranges of the state tables by parts; `p` says whether the smoothed transposition is claimed too. -/
def rangeParts (p : Prop) : Parts where
  snap k := k.ok = true
  xf x := inUnit x.volume = true
  fd := FdRanges
  se := SeRanges
  sr := SrRanges p
  sh := ShRanges

/-- The ranges by parts are `controlsOk`, with `pitchOk` where it is claimed. -/
theorem rangeParts_holds_iff {p : Prop} :
    (rangeParts p).Holds s ↔ controlsOk s = true ∧ (p → pitchOk s = true) := by
  simp only [controlsOk, phasesOk, Bool.and_eq_true, List.all_eq_true, and_assoc]
  constructor
  · rintro ⟨ctl, snap, volume, mode⟩
    have f : FdRanges s.fd := mode .fd
    have e : SeRanges s.se := mode .se
    have r : SrRanges p s.sr := mode .sr
    have h : ShRanges s.sh := mode .sh
    exact ⟨snap, ctl, volume, f.driveAcc, f.driveSm, f.resT, f.resSm, e.revAmt, e.fb, r.shAmt, h.revAmt, r.hpT, r.hpSm,
      r.revFb, r.pitchT, h.toneFc, e.flutPh, e.driftPh, h.panPh, h.p, h.speed, r.pitchSm⟩
  · rintro ⟨snap, ctl, volume, driveAcc, driveSm, resT, resSm, seRevAmt, fb, shAmt, shRevAmt, hpT, hpSm, revFb, pitchT,
      toneFc, flutPh, driftPh, panPh, phases, speed, pitchSm⟩
    refine ⟨ctl, snap, volume, fun m => ?_⟩
    cases m with
    | fd => exact ⟨driveAcc, driveSm, resT, resSm⟩
    | se => exact ⟨seRevAmt, fb, flutPh, driftPh⟩
    | sr => exact ⟨shAmt, hpT, hpSm, revFb, pitchT, pitchSm⟩
    | sh => exact ⟨shRevAmt, toneFc, panPh, phases, speed⟩

/-- The ranges are an invariant where the configuration meets its constraints. -/
theorem rangeParts_closed {p : Prop} (hc : c.ok = true) (h4 : p → c.srPitchSmooth.le (.dec 25 100) = true) :
    (rangeParts p).Closed c where
  accepted _ hk := hk
  latched k hk := by
    obtain ⟨ht, hb⟩ := (Bool.and_eq_true _ _).mp hk
    exact (Bool.and_eq_true _ _).mpr ⟨positiveZero_inUnit ht, positiveZero_inUnit hb⟩
  steady := show inUnit .one = true by decide
  advance press _ := volume_advance hc press
  fadeOut _ := volume_fadeOut hc
  fadeIn _ := volume_fadeIn hc
  init m s _ := by
    cases m with
    | fd => exact fdInit_ranges s.cfg
    | se => exact seInit_ranges s.cfg
    | sr => exact srInit_ranges p s.cfg
    | sh => exact shInit_ranges s.cfg
  row i m s t hm hp e hk h he := by
    subst e
    cases m with
    | fd => exact FdRanges.row h hm hp hk he
    | se => exact SeRanges.row h hm hp hc hk he
    | sr => exact SrRanges.row h hm hp (srPitchSmooth_of_ok hc) h4 hk he
    | sh => exact ShRanges.row h hm hp hc hk he

/-- The fade alone: nothing is asked of the other parts. -/
def fadeParts : Parts where
  snap _ := True
  xf x := fadeOk x = true
  fd _ := True
  se _ := True
  sr _ := True
  sh _ := True

theorem fadeParts_mode (s : State) (m : Mode) : fadeParts.mode s m := by cases m <;> trivial

theorem fadeParts_holds_iff : fadeParts.Holds s ↔ fadeOk s.xf = true :=
  ⟨fun h => h.xf, fun h => ⟨trivial, trivial, h, fadeParts_mode s⟩⟩

/-- The fade is an invariant whatever the configuration. -/
theorem fadeParts_closed (c : Cfg) : fadeParts.Closed c where
  accepted _ _ := trivial
  latched _ _ := trivial
  steady := show fadeOk .reset = true by decide
  advance press _ := fadeOk_advance c.xfStep press
  fadeOut _ := fadeOk_fadeOut c.xfStep
  fadeIn _ := fadeOk_fadeIn c.xfStep
  init m s _ := fadeParts_mode _ m
  row _ m _ t _ _ _ _ _ _ := fadeParts_mode t m

/-- Settles O56: the ranges, with the smoothed transposition claimed where the premises on it hold, and the fade are
invariants by parts. -/
theorem stepKeepsControlRanges : Obligations.StepKeepsControlRanges := by
  intro s t h
  refine ⟨fun hc hs => ?_, fun hf => ?_⟩
  · have ranges : (rangeParts (s.cfg.srPitchSmooth.le (.dec 25 100) = true ∧ pitchOk s = true)).Holds s :=
      rangeParts_holds_iff.2 ⟨hs, And.right⟩
    obtain ⟨ht, pitch⟩ := rangeParts_holds_iff.1 (ranges.of_step (rangeParts_closed hc And.left) h)
    exact ⟨ht, fun small hp => pitch ⟨small, hp⟩⟩
  · exact ((fadeParts_holds_iff.2 hf).of_step (fadeParts_closed s.cfg) h).xf

end Sys2Proof.Machine
end

section
/-! PROOFS. The memory family (20_memory.md): a row of SpaceEcho or ShimmerReverb leaves its delay lines as they are or writes
one sample to each, so their form, bounds and write indices are an invariant by parts (R100, R101, R104, R187, R188). -/

namespace Sys2Proof.Machine

variable {s t : State}

/-! The lines of a mode. -/

/-- Both channels' delay lines have the canonical form at the capacity `cap`. -/
structure LinesOk (cap : Nat) (lines : Stereo DelayLine) : Prop where
  l : Memory.wf cap lines.l = true
  r : Memory.wf cap lines.r = true

theorem linesOk_dlReset {cap : Nat} (h : 0 < cap) : LinesOk cap (.both dlReset) :=
  ⟨Memory.wf_dlReset h, Memory.wf_dlReset h⟩

theorem LinesOk.write {cap : Nat} {lines : Stereo DelayLine} (h : LinesOk cap lines) (x : Stereo F32) :
    LinesOk cap (Stereo.zip (dlWrite cap) lines x) :=
  ⟨Memory.wf_dlWrite x.l h.l, Memory.wf_dlWrite x.r h.r⟩

/-- `after` is `before`, or `before` with one sample more on each line (R187). -/
def KeptOrWritten (cap : Nat) (before after : Stereo DelayLine) : Prop :=
  after = before ∨ ∃ x, after = Stereo.zip (dlWrite cap) before x

theorem LinesOk.of_keptOrWritten {cap : Nat} {before after : Stereo DelayLine} (h : LinesOk cap before)
    (k : KeptOrWritten cap before after) : LinesOk cap after := by
  rcases k with rfl | ⟨x, rfl⟩
  · exact h
  · exact h.write x

/-! Both capacities are a delay plus four samples (R103). -/

theorem seCap_pos (c : Cfg) : 0 < c.seCap := Nat.succ_pos _

theorem srCap_pos (c : Cfg) : 0 < c.srCap := Nat.succ_pos _

/-! The rows: of the stages only SE.WRITE (R291) and SR.PREDLY (R329) write a line. -/

theorem seRow_line {i : Instr} (hm : modeOfRow i = some .se) (hp : i ≠ .seProcess) (e : exec i s = .next t) :
    KeptOrWritten s.cfg.seCap s.se.line t.se.line := by
  cases i <;> cases hm
  case seProcess => exact absurd rfl hp
  case seWrite => cases e; exact .inr ⟨_, rfl⟩
  case seRead =>
    rcases seRead_cases s with ⟨-, -, r⟩ | ⟨d, -, -, r⟩
    · cases r.symm.trans e; exact .inl rfl
    · cases r.symm.trans e
  case seUpdate | seMod | seFb | seRev | seOut | seShort | seMed | seLong | seBright | seNormal | seDark =>
    cases e; exact .inl rfl

theorem srRow_pd {i : Instr} (hm : modeOfRow i = some .sr) (hp : i ≠ .srProcess) (e : exec i s = .next t) :
    KeptOrWritten s.cfg.srCap s.sr.pd t.sr.pd := by
  cases i <;> cases hm
  case srProcess => exact absurd rfl hp
  case srPredly =>
    rcases srPredly_cases s with ⟨-, r⟩ | ⟨-, r⟩
    · cases r.symm.trans e; exact .inr ⟨_, rfl⟩
    · cases r.symm.trans e
  case srUpdate | srHpf | srRevin | srAr | srShift | srPost | srOut | srUp12 | srDn12 | srUp7 | srBright | srNormal |
      srDark =>
    cases e; exact .inl rfl

/-! The invariant. -/

/-- The memories by parts, at the capacities of the configuration `c`: FilterDrive and ShepardTone have none (R101). -/
def memoryParts (c : Cfg) : Parts where
  snap _ := True
  xf _ := True
  fd _ := True
  se m := LinesOk c.seCap m.line
  sr m := LinesOk c.srCap m.pd
  sh _ := True

/-- The memories by parts are `memoryOk`. -/
theorem memoryParts_holds_iff : (memoryParts s.cfg).Holds s ↔ memoryOk s = true := by
  simp only [memoryOk, Bool.and_eq_true, and_assoc]
  constructor
  · intro h
    have echo : LinesOk s.cfg.seCap s.se.line := h.mode .se
    have preDelay : LinesOk s.cfg.srCap s.sr.pd := h.mode .sr
    exact ⟨echo.l, echo.r, preDelay.l, preDelay.r⟩
  · rintro ⟨echoL, echoR, preDelayL, preDelayR⟩
    refine ⟨trivial, trivial, trivial, fun m => ?_⟩
    cases m with
    | fd => trivial
    | se => exact ⟨echoL, echoR⟩
    | sr => exact ⟨preDelayL, preDelayR⟩
    | sh => trivial

/-- The memories' form is an invariant whatever the configuration. -/
theorem memoryParts_closed (c : Cfg) : (memoryParts c).Closed c where
  accepted _ _ := trivial
  latched _ _ := trivial
  steady := trivial
  advance _ _ _ := trivial
  fadeOut _ _ := trivial
  fadeIn _ _ := trivial
  init m s e := by
    cases m with
    | fd => trivial
    | se => exact linesOk_dlReset (seCap_pos c)
    | sr => exact linesOk_dlReset (srCap_pos c)
    | sh => trivial
  row i m s t hm hp e _ h he := by
    subst e
    cases m with
    | fd => trivial
    | se => exact LinesOk.of_keptOrWritten h (seRow_line hm hp he)
    | sr => exact LinesOk.of_keptOrWritten h (srRow_pd hm hp he)
    | sh => trivial

/-- Settles O55: the memories' form is an invariant by parts, and a step keeps the configuration, and so the capacities. -/
theorem stepKeepsMemoryOk : Obligations.StepKeepsMemoryOk := by
  intro s t hs h
  have holds : (memoryParts s.cfg).Holds t := (memoryParts_holds_iff.2 hs).of_step (memoryParts_closed s.cfg) h
  have cfg : t.cfg = s.cfg := (Extends.of_step h).cfg
  exact memoryParts_holds_iff.1 (cfg ▸ holds)

end Sys2Proof.Machine
end

section
/-! PROOFS. The encoding family (30_encoding.md): what the decoder makes of each kind of command word (R131, R132, R136, R148)
and of each row's value (R142, R143), what a step does with each answer (R130, R510, R519), and the statements built on them. -/

namespace Sys2Proof

/-! The command words, one equation per case of R132 and R136. -/

section
variable {n : Nat} {cw : Word}

theorem decodeCommand_reset (op : cwOp cw = 1#4) (above : cwAboveOp cw = 0#28) (rest : List Word) :
    decodeCommand n (cw :: rest) = .instr .reset rest := by
  rw [decodeCommand, if_pos op, if_pos above]

theorem decodeCommand_resetBits (op : cwOp cw = 1#4) (above : cwAboveOp cw ≠ 0#28) (rest : List Word) :
    decodeCommand n (cw :: rest) = .rejected (.reservedBits cw) rest := by
  rw [decodeCommand, if_pos op, if_neg above]

theorem decodeCommand_badOpcode (notReset : cwOp cw ≠ 1#4) (notBlock : cwOp cw ≠ 2#4) (rest : List Word) :
    decodeCommand n (cw :: rest) = .rejected (.badOpcode cw) rest := by
  rw [decodeCommand, if_neg notReset, if_neg notBlock]

theorem opBlock_ne_opReset (op : cwOp cw = 2#4) : cwOp cw ≠ 1#4 := by
  rw [op]; decide

/-- A whole payload has arrived. -/
theorem payload_arrived {payload : List Word} (len : payload.length = payloadLength n) (rest : List Word) :
    ¬ (payload ++ rest).length < payloadLength n := by
  rw [List.length_append]; omega

theorem decodeCommand_block {i : Instr} {payload : List Word} (op : cwOp cw = 2#4) (rsv : cwRsv cw = 0#7)
    (len : payload.length = payloadLength n) (block : blockOf cw payload = some i) (rest : List Word) :
    decodeCommand n (cw :: (payload ++ rest)) = .instr i rest := by
  rw [decodeCommand, if_neg (opBlock_ne_opReset op), if_pos op, if_neg (payload_arrived len rest), if_pos rsv,
    List.take_left' len, List.drop_left' len, block]

theorem decodeCommand_blockBits {payload : List Word} (op : cwOp cw = 2#4) (rsv : cwRsv cw ≠ 0#7)
    (len : payload.length = payloadLength n) (rest : List Word) :
    decodeCommand n (cw :: (payload ++ rest)) = .rejected (.reservedBits cw) rest := by
  rw [decodeCommand, if_neg (opBlock_ne_opReset op), if_pos op, if_neg (payload_arrived len rest), if_neg rsv,
    List.drop_left' len]

/-- A payload is the two knob words and the sample words (R137). -/
theorem payload_split {payload : List Word} (len : payload.length = payloadLength n) :
    ∃ ktop kbot samples, payload = ktop :: kbot :: samples ∧ samples.length = 2 * n := by
  rw [payloadLength] at len
  rcases payload with _ | ⟨ktop, _ | ⟨kbot, samples⟩⟩ <;> simp only [List.length_cons, List.length_nil] at len
  · omega
  · omega
  · exact ⟨ktop, kbot, samples, rfl, by omega⟩

/-- What the decoder accepts: a RESET word, or a BLOCK word and its whole payload (R132, R136, R137, R148). -/
theorem decode_command_accepts {words rest : List Word} {i : Instr} (h : decode n (.command words) = .instr i rest) :
    (∃ cw, words = cw :: rest ∧ cwOp cw = 1#4 ∧ cwAboveOp cw = 0#28 ∧ i = .reset) ∨
    ∃ cw ktop kbot samples, words = cw :: ktop :: kbot :: (samples ++ rest) ∧ samples.length = 2 * n ∧
      cwOp cw = 2#4 ∧ cwRsv cw = 0#7 ∧
      i = .block (cwEnc cw) (cwPress cw) (cwSwl cw) (cwSwr cw) ktop kbot (framesOf samples) := by
  cases words with
  | nil => cases h
  | cons cw tail =>
    by_cases reset : cwOp cw = 1#4
    · by_cases above : cwAboveOp cw = 0#28
      · cases (decodeCommand_reset reset above tail).symm.trans h
        exact .inl ⟨cw, rfl, reset, above, rfl⟩
      · cases (decodeCommand_resetBits reset above tail).symm.trans h
    by_cases block : cwOp cw = 2#4
    · by_cases short : tail.length < payloadLength n
      · rw [decode, decodeCommand, if_neg reset, if_pos block, if_pos short] at h
        cases h
      · have len : (tail.take (payloadLength n)).length = payloadLength n := by
          rw [List.length_take]; omega
        obtain ⟨ktop, kbot, samples, payload, samplesLen⟩ := payload_split len
        have arrived := (List.take_append_drop (payloadLength n) tail).symm
        rw [payload] at arrived len
        rw [arrived] at h
        by_cases rsv : cwRsv cw = 0#7
        · cases (decodeCommand_block block rsv len rfl _).symm.trans h
          exact .inr ⟨cw, ktop, kbot, samples, congrArg (cw :: ·) arrived, samplesLen, block, rsv, rfl⟩
        · cases (decodeCommand_blockBits block rsv len _).symm.trans h
    · cases (decodeCommand_badOpcode reset block tail).symm.trans h

end

/-! The rows. -/

/-- Every row is the first of the table that its own value fits (R143). -/
theorem decodeRow_of_mem : ∀ r ∈ rows, decodeRow r.slot r.value = some r.instr := by decide +kernel

/-- Only the two host commands are encoded as words (R131, R149). -/
theorem encode_eq_command {i : Instr} {words : List Word} (h : encode i = .command words) :
    (i = .reset ∧ words = [resetWord]) ∨ ∃ enc press swl swr ktop kbot frames,
      i = .block enc press swl swr ktop kbot frames ∧
      words = blockWord enc press swl swr :: ktop :: kbot :: samplesOf frames := by
  cases i with
  | reset => cases h; exact .inl ⟨rfl, rfl⟩
  | block enc press swl swr ktop kbot frames => cases h; exact .inr ⟨_, _, _, _, _, _, _, rfl, rfl⟩
  | _ => cases h

/-- A selector is the encoding of the instruction of some row (R142). -/
theorem encode_eq_select {i : Instr} {slot : Slot} {sel : BitVec 6} (h : encode i = .select slot sel) :
    ∃ r ∈ rows, r.instr = i ∧ r.slot = slot ∧ r.value = sel := by
  unfold encode at h
  split at h
  · cases h
  · cases h
  · split at h
    next r found =>
      cases h
      exact ⟨r, List.mem_of_find?_eq_some found, by simpa using List.find?_some found, rfl, rfl⟩
    next => cases h

/-- A row's selector decodes to the row. -/
theorem decode_of_encode_eq_select {n : Nat} {i : Instr} {slot : Slot} {sel : BitVec 6}
    (h : encode i = .select slot sel) : decode n (.select slot sel) = .instr i [] := by
  obtain ⟨r, mem, rfl, rfl, rfl⟩ := encode_eq_select h
  rw [decode, decodeRow_of_mem r mem]

/-- A well-formed command's words decode to it and leave what follows them (R148). -/
theorem decode_of_encode_eq_command {n : Nat} {i : Instr} {words : List Word} (wf : i.wf n = true)
    (h : encode i = .command words) (rest : List Word) : decode n (.command (words ++ rest)) = .instr i rest := by
  rcases encode_eq_command h with ⟨rfl, rfl⟩ | ⟨enc, press, swl, swr, ktop, kbot, frames, rfl, rfl⟩
  · exact decodeCommand_reset (n := n) (cw := resetWord) (by decide) (by decide) rest
  · simp only [Instr.wf, Bool.and_eq_true, beq_iff_eq] at wf
    obtain ⟨-, count⟩ := wf
    obtain ⟨op, swlBits, swrBits, pressBit, rsv, encBits⟩ := blockWord_fields enc press swl swr
    have len : (ktop :: kbot :: samplesOf frames).length = payloadLength n := by
      simp only [List.length_cons, length_samplesOf, count, payloadLength]; omega
    refine decodeCommand_block op rsv len ?_ rest
    simp only [blockOf, encBits, pressBit, swlBits, swrBits, framesOf_samplesOf]

/-- Settles O1: a command's fields and frames read back from its words, and each row is the first one its value fits. -/
theorem decodeOfEncodeIsIdentity : Obligations.DecodeOfEncodeIsIdentity := by
  intro n i wf
  refine ⟨?_, fun words rest h => decode_of_encode_eq_command wf h rest⟩
  cases h : encode i with
  | command words => simpa using decode_of_encode_eq_command wf h []
  | select slot sel => exact decode_of_encode_eq_select h

/-- Settles O2: an accepted command word has its reserved bits zero, so it is the word of its fields. -/
theorem encodeOfDecodeIsIdentity : Obligations.EncodeOfDecodeIsIdentity := by
  intro n words i rest h
  rcases decode_command_accepts h with ⟨cw, rfl, op, above, rfl⟩ | ⟨cw, ktop, kbot, samples, rfl, len, op, rsv, rfl⟩
  · exact ⟨[resetWord], rfl, by rw [resetWord_of_fields cw op above]; rfl⟩
  · refine ⟨_, rfl, ?_⟩
    rw [blockWord_of_fields cw op rsv, samplesOf_framesOf n samples len]
    rfl

/-- Settles O7: each word and selector is evaluated. -/
theorem writtenOutWordsDecode : Obligations.WrittenOutWordsDecode := by
  unfold Obligations.WrittenOutWordsDecode
  decide +kernel

/-! Modes and positions as bits. -/

theorem SwPos.toBits_ne_three (p : SwPos) : p.toBits ≠ 3#2 := by
  cases p <;> decide

/-- The reserved code stands for no position (R136). -/
theorem SwPos.ofBits_three : SwPos.ofBits 3#2 = none := by decide

/-- Each of the four numbers is a mode's (R145). -/
theorem Mode.exists_toBits_eq (b : BitVec 2) : ∃ m : Mode, m.toBits = b := by
  have four : ∀ b : BitVec 2, b = 0#2 ∨ b = 1#2 ∨ b = 2#2 ∨ b = 3#2 := by decide
  rcases four b with rfl | rfl | rfl | rfl
  · exact ⟨.fd, rfl⟩
  · exact ⟨.se, rfl⟩
  · exact ⟨.sr, rfl⟩
  · exact ⟨.sh, rfl⟩

theorem Mode.toBits_next (m : Mode) : m.next.toBits = m.toBits + 1#2 := by
  cases m <;> rfl

/-! The selector. -/

/-- The three fields of a selector read back (R142). -/
theorem selector_fields : ∀ right left mode : BitVec 2,
    (right ++ left ++ mode : BitVec 6).extractLsb' 0 2 = mode ∧
    (right ++ left ++ mode : BitVec 6).extractLsb' 2 2 = left ∧
    (right ++ left ++ mode : BitVec 6).extractLsb' 4 2 = right := by decide

/-- M alone picks the process row and the update row (R143). -/
theorem one_process_and_update_row : ∀ sel : BitVec 6,
    (rows.filter fun r => r.fits .process sel).length = 1 ∧ (rows.filter fun r => r.fits .update sel).length = 1 := by
  decide +kernel

/-- M and a switch code that is not reserved pick the switch's row (R143). -/
theorem one_row_of_each_switch : ∀ sel : BitVec 6, sel.extractLsb' 2 2 ≠ 3#2 → sel.extractLsb' 4 2 ≠ 3#2 →
    (rows.filter fun r => r.fits .left sel).length = 1 ∧ (rows.filter fun r => r.fits .right sel).length = 1 := by
  decide +kernel

namespace Machine

variable {s t : State} {i : Instr} {rest : List Word}

/-- Settles O6: the table is looked through for each of the 64 selectors, and a position's code is never 3. -/
theorem selectorPicksExactlyOneRow : Obligations.SelectorPicksExactlyOneRow := by
  refine ⟨fun sel => ?_, fun s => ?_⟩
  · obtain ⟨process, update⟩ := one_process_and_update_row sel
    exact ⟨process, update, one_row_of_each_switch sel⟩
  · obtain ⟨mode, left, right⟩ := selector_fields (rightCode s s.xf.active).toBits (leftCode s s.xf.active).toBits
      s.xf.active.toBits
    exact ⟨mode, left, left.trans_ne (SwPos.toBits_ne_three _), right, right.trans_ne (SwPos.toBits_ne_three _)⟩

/-! What a step does with each answer of the decoder. -/

theorem nextCode_of_row_none (row : s.row = none) : nextCode s = .command s.ports.cmd := by
  rw [nextCode, row]

theorem consume_of_row_none (row : s.row = none) (rest : List Word) :
    consume rest s = s.setPorts { s.ports with cmd := rest } := by
  rw [consume, row]

theorem step_of_command {words : List Word} (row : s.row = none) (cmd : s.ports.cmd = words)
    (h : decodeCommand s.cfg.n words = .instr i rest) :
    step s = exec i { s with ports := { s.ports with cmd := rest } } := by
  rw [step, nextCode_of_row_none row, cmd, decode, h]
  exact congrArg (exec i) (consume_of_row_none row rest)

theorem step_of_rejected {words : List Word} {why : Reject} (row : s.row = none) (cmd : s.ports.cmd = words)
    (h : decodeCommand s.cfg.n words = .rejected why rest) :
    step s = rejectCode why { s with ports := { s.ports with cmd := rest } } := by
  rw [step, nextCode_of_row_none row, cmd, decode, h]
  exact congrArg (rejectCode why) (consume_of_row_none row rest)

theorem step_of_waiting (row : s.row = none) (h : decode s.cfg.n (.command s.ports.cmd) = .waiting) :
    step s = .next s := by
  rw [step, nextCode_of_row_none row, h]

theorem step_of_row {slot : Slot} {sel : BitVec 6} (row : s.row = some (slot, sel))
    (h : decode s.cfg.n (.select slot sel) = .instr i rest) : step s = exec i { s with row := none } := by
  have code : nextCode s = .select slot sel := by rw [nextCode, row]
  have taken : consume rest s = s.setRow none := by rw [consume, row]
  rw [step, code, h]
  exact congrArg (exec i) taken

/-- Settles O8: one equation per answer of the decoder. -/
theorem stepRunsTheDecodedInstruction : Obligations.StepRunsTheDecodedInstruction := by
  intro s i
  exact ⟨fun rest row h => step_of_command row rfl h, fun slot sel rest row h => step_of_row row h, step_of_waiting⟩

/-! Refused commands (R132, R136, R510). -/

theorem step_of_badOpcode {cw : Word} (row : s.row = none) (cmd : s.ports.cmd = cw :: rest) (notReset : cwOp cw ≠ 1#4)
    (notBlock : cwOp cw ≠ 2#4) : step s = .next { s with
      ports := { s.ports with cmd := rest }, refused := true, events := s.events ++ [.badOpcode cw] } :=
  step_of_rejected row cmd (decodeCommand_badOpcode notReset notBlock rest)

/-- A BLOCK with a switch code 3 is refused with its own command word (R136, R431). -/
theorem exec_block_badSwitchCode {enc : BitVec 16} {press : Bool} {swl swr : BitVec 2} (h : swl = 3#2 ∨ swr = 3#2)
    (ktop kbot : Word) (frames : List (Stereo Word)) (s : State) :
    exec (.block enc press swl swr ktop kbot frames) s =
      .next (refuse (.badSwitchCode (blockWord enc press swl swr)) s) := by
  change execBlock enc press swl swr ktop kbot frames s = _
  rcases h with rfl | rfl
  · simp only [execBlock, SwPos.ofBits_three]
  · unfold execBlock
    rw [SwPos.ofBits_three]
    cases SwPos.ofBits swl <;> rfl

/-- Settles O3: OP is read from what the decoder accepts, and any other OP is refused. -/
theorem opcodeFieldSelectsCommand : Obligations.OpcodeFieldSelectsCommand := by
  refine ⟨fun n cw words i rest h => ?_, fun s cw rest row cmd notReset notBlock =>
    step_of_badOpcode row cmd notReset notBlock⟩
  rcases decode_command_accepts h with ⟨_, e, op, -, rfl⟩ | ⟨_, ktop, kbot, samples, e, -, op, -, rfl⟩
  · cases e; exact .inl ⟨op, rfl⟩
  · cases e; exact .inr ⟨op, ktop, kbot, framesOf samples, rfl⟩

/-- Settles O4: the decoder rejects the first three encodings, BLOCK the fourth. -/
theorem reservedEncodingsAreRefused : Obligations.ReservedEncodingsAreRefused := by
  intro s cw payload rest row
  refine ⟨fun notReset notBlock cmd => step_of_badOpcode row cmd notReset notBlock, fun op above cmd => ?_,
    fun op len cmd => ⟨fun rsv => ?_, fun rsv code => ?_⟩⟩
  · exact step_of_rejected row cmd (decodeCommand_resetBits op above rest)
  · exact step_of_rejected row cmd (decodeCommand_blockBits op rsv len rest)
  · obtain ⟨ktop, kbot, samples, rfl, -⟩ := payload_split len
    rw [step_of_command row cmd (decodeCommand_block op rsv len rfl rest), exec_block_badSwitchCode code,
      blockWord_of_fields cw op rsv]
    rfl

/-! The press. -/

/-- A press in Steady starts the fade-out toward the next mode, at the same volume (R401). -/
theorem xfAdvance_press {step : F32} {xf : Xf} (steady : xf.state = .steady) :
    xfAdvance step true xf = { xf with pending := xf.active.next, state := .fadingOut } := by
  rw [xfAdvance, steady]
  rfl

/-- Settles O14: the successor by cases of the mode, and the press by the Steady case of the switcher. -/
theorem modeSuccessorIsModuloFour : Obligations.ModeSuccessorIsModuloFour := by
  refine ⟨rfl, rfl, rfl, rfl, Mode.exists_toBits_eq, Mode.toBits_next, fun s t steady press h => ?_⟩
  have next : swAdvance s = t := Host.Outcome.next.inj h
  have xf : t.xf = { s.xf with pending := s.xf.active.next, state := .fadingOut } := by
    rw [← next, swAdvance, State.setXf_xf, press, xfAdvance_press steady]
  rw [xf]
  exact ⟨Mode.toBits_next _, rfl, rfl⟩

end Machine
end Sys2Proof
end

section
/-! PROOFS. The common family (40_common.md), first part: GUARD, the compressor and the delay lines (R185 to R189,
R200). -/

namespace Sys2Proof.Machine

open F32

/-! GUARD (R200). -/

/-- A finite pair passes. -/
theorem guardOutput_of_finite {s : State} (m : Mode) (hl : s.wires.y.l.isFinite = true)
    (hr : s.wires.y.r.isFinite = true) : guardOutput m s = s := by
  rw [guardOutput, if_pos (guardMask_eq_zero.2 ⟨hl, hr⟩)]

/-- A pair that is not finite raises the fault and leaves silence (R502, R505). -/
theorem guardOutput_of_not_finite {s : State} (m : Mode)
    (h : s.wires.y.l.isFinite = false ∨ s.wires.y.r.isFinite = false) :
    guardOutput m s = returnSilent (takeGuardFault m (guardMask s.wires.y) s) := by
  rw [guardOutput, if_neg]
  intro passes
  obtain ⟨hl, hr⟩ := guardMask_eq_zero.1 passes
  rcases h with h | h
  · exact Bool.false_ne_true (h.symm.trans hl)
  · exact Bool.false_ne_true (h.symm.trans hr)

/-- Settles O11: the mask tells the two clauses apart, and the mode that is reset is the active one. -/
theorem guardPassesFiniteElseResets : Obligations.GuardPassesFiniteElseResets := by
  refine fun s => ⟨fun hl hr => congrArg _ (guardOutput_of_finite _ hl hr), fun h => ?_⟩
  refine congrArg _ ((guardOutput_of_not_finite s.xf.active h).trans ?_)
  generalize s.xf.active = m
  cases m <;> rfl

/-! The compressor (R189). -/

/-- Settles O60: COMP is its definition, and the knee keeps its contract. -/
theorem compressorEnvelopeAndGain : Obligations.CompressorEnvelopeAndGain :=
  fun p _ _ => ⟨rfl, rfl, rfl, Config.compKnee.bounded _ p.t p.rho p.wk⟩

/-! Delay lines (R185 to R188). -/

/-- Settles O44: DL.READ and HERMITE4 are their definitions. -/
theorem delayReadInterpolatesFourElements : Obligations.DelayReadInterpolatesFourElements :=
  fun _ _ _ => rfl

/-- An age from 1 to below the capacity is not the write index (R104). -/
theorem dlIndex_ne_w {cap k : Nat} {dl : DelayLine} (hw : dl.w < cap) (h1 : 1 ≤ k) (hk : k < cap) :
    dlIndex cap dl k ≠ dl.w := by
  rw [dlIndex_of_le hw hk.le]
  split <;> omega

/-- Age 0 is the write index. -/
theorem dlIndex_zero {cap : Nat} {dl : DelayLine} (hw : dl.w < cap) : dlIndex cap dl 0 = dl.w := by
  rw [dlIndex_of_le hw (Nat.zero_le _), if_pos (Nat.zero_le _), Nat.sub_zero]

/-- What is read one age later after a write (R187). -/
theorem dlHistory_dlWrite_succ {cap : Nat} {dl : DelayLine} (x : F32) (h : Memory.wf cap dl = true) (k : Nat) :
    dlHistory cap (dlWrite cap dl x) (k + 1) = if dlIndex cap dl k = dl.w then x else dlHistory cap dl k := by
  have hw : dl.w < cap := (Memory.wf_iff.1 h).2.2
  rw [dlHistory, dlIndex_dlWrite (Nat.zero_lt_of_lt hw), readCell_dlWrite x h, dlHistory]

@[simp] theorem dlHistory_dlReset (cap k : Nat) : dlHistory cap dlReset k = .zero := rfl

/-- 2.0 in units. -/
theorem two_val : (dec 2 1).isFinite = true ∧ (dec 2 1).val = 2 * (unitsPerOne : Int) := by decide +kernel

/-- The upper bound of a read delay is a number of at least 2 (R186). -/
theorem delay_bounds {cap : Nat} (h5 : 5 ≤ cap) (h24 : cap ≤ 2 ^ 24) :
    (dec 2 1).isFinite = true ∧ (ofInt ((cap : Int) - 3)).isFinite = true ∧
    (dec 2 1).le (.ofInt ((cap : Int) - 3)) = true := by
  obtain ⟨f2, v2⟩ := two_val
  obtain ⟨hf, hv⟩ := ofInt_exact ((cap : Int) - 3) (by omega)
  refine ⟨f2, hf, (le_iff f2 hf).2 ?_⟩
  rw [v2, hv]
  exact Int.mul_le_mul_of_nonneg_right (by omega) (Int.natCast_nonneg _)

/-- A clamped delay is finite. -/
theorem dlClamp_finite {cap : Nat} {d : F32} (h5 : 5 ≤ cap) (h24 : cap ≤ 2 ^ 24) (hd : d.isFinite = true) :
    (dlClamp cap d).isFinite = true := by
  obtain ⟨lo, hi, le⟩ := delay_bounds h5 h24
  exact ((within_iff lo hi).1 (clamp_within (isNaN_of_isFinite d hd) le)).1

/-- The fraction of a finite datum is finite. -/
theorem fraction_finite {x : F32} (hx : x.isFinite = true) : (x.sub x.floor).isFinite = true := by
  obtain ⟨hf, f1, f2, -⟩ := floor_spec hx
  exact (sub_between hx hf (lo := zero) (hi := one) rfl rfl (by rw [val_zero]; omega) (by rw [val_one]; omega)).1

/-- 0.0 times a finite datum is a zero of either sign, and 0.0 once 0.0 is added (R9). -/
theorem zero_mul_add_zero {t : F32} (ht : t.isFinite = true) : (zero.mul t).add zero = zero := by
  obtain ⟨s, m, rfl⟩ := fin_of_isFinite ht
  have product : zero.mul (.fin s m) = .fin s ⟨0, by decide⟩ := by
    simp only [zero, mul, units_zero, Nat.zero_mul, Bool.false_xor]
    cases s <;> decide +kernel
  rw [product]
  cases s <;> rfl

/-- HERMITE4 of four elements 0.0 is 0.0 (R185). -/
theorem hermite4_zero {t : F32} (ht : t.isFinite = true) : hermite4 .zero .zero .zero .zero t = .zero := by
  have c1 : (dec 5 10).mul (zero.sub zero) = zero := by decide +kernel
  have c2 : ((zero.sub ((dec 25 10).mul zero)).add ((dec 2 1).mul zero)).sub ((dec 5 10).mul zero) = zero := by
    decide +kernel
  have c3 : ((dec 5 10).mul (zero.sub zero)).add ((dec 15 10).mul (zero.sub zero)) = zero := by decide +kernel
  simp only [hermite4]
  rw [c3, c2, c1]
  simp only [zero_mul_add_zero ht]

/-- Settles O45: a write moves every age by one index and stores at age 1; a reset line holds only 0.0. -/
theorem delayWriteAgesAndResetClears : Obligations.DelayWriteAgesAndResetClears := by
  refine ⟨fun cap dl x h _ => ?_, rfl, readCell_dlReset, fun cap d h5 h24 hd => ?_⟩
  · have hw : dl.w < cap := (Memory.wf_iff.1 h).2.2
    refine ⟨?_, fun k h1 hk => ?_⟩
    · rw [dlHistory_dlWrite_succ x h 0, if_pos (dlIndex_zero hw)]
    · rw [dlHistory_dlWrite_succ x h k, if_neg (dlIndex_ne_w hw h1 hk)]
  · simp only [dlRead, dlHistory_dlReset]
    exact hermite4_zero (fraction_finite (dlClamp_finite h5 h24 hd))

end Sys2Proof.Machine
end

section
/-! PROOFS. The common family (40_common.md), second part: the output bound of a BLOCK (R193, R438). The pairs of FilterDrive,
ShepardTone and ShimmerReverb are in [-1, 1], so what reaches the limiter is finite. -/

namespace Sys2Proof.Machine

open F32

variable {m : Mode} {s t u : State} {c : Cfg} {x y : F32}

/-! Arithmetic in [-1, 1]. -/

theorem inOne_iff : inOne x = true ↔ x.isFinite = true ∧ -(unitsPerOne : Int) ≤ x.val ∧ x.val ≤ unitsPerOne :=
  within_one_iff

theorem inOne_neg (h : inOne x = true) : inOne x.neg = true := by
  obtain ⟨fx, l, h⟩ := inOne_iff.1 h
  rw [inOne_iff, isFinite_neg, val_neg]
  exact ⟨fx, by omega, by omega⟩

theorem mul_inOne (hx : inOne x = true) (hy : inOne y = true) : inOne (x.mul y) = true := by
  obtain ⟨fx, xl, xh⟩ := inOne_iff.1 hx
  obtain ⟨fy, yl, yh⟩ := inOne_iff.1 hy
  obtain ⟨fp, pl, ph⟩ := mul_unit fx fy xl xh
  exact inOne_iff.2 ⟨fp, by omega, by omega⟩

/-- A finite datum scaled by one in [-1, 1] is finite. -/
theorem mul_finite_of_inOne (hx : inOne x = true) (hy : y.isFinite = true) : (x.mul y).isFinite = true := by
  obtain ⟨fx, l, h⟩ := inOne_iff.1 hx
  exact (mul_unit fx hy l h).1

/-- A finite datum moved by one in [-1, 1] is finite. -/
theorem add_finite_of_inOne (hx : inOne x = true) (hy : y.isFinite = true) : (x.add y).isFinite = true := by
  obtain ⟨fx, l, h⟩ := inOne_iff.1 hx
  exact add_finite_of_unit fx hy l h

theorem inOne_of_inUnit (h : inUnit x = true) : inOne x = true := by
  obtain ⟨fx, l, h⟩ := inUnit_iff.1 h
  exact inOne_iff.2 ⟨fx, by omega, h⟩

/-- The mean of two data in [-1, 1] is in [-1, 1]. -/
theorem mean_inOne (hx : inOne x = true) (hy : inOne y = true) : inOne ((x.add y).div (.dec 2 1)) = true := by
  obtain ⟨fx, xl, xh⟩ := inOne_iff.1 hx
  obtain ⟨fy, yl, yh⟩ := inOne_iff.1 hy
  obtain ⟨f2, v2⟩ := two_val
  have hU : (0 : Int) < unitsPerOne := by exact_mod_cast unitsPerOne_pos
  generalize dec 2 1 = two at *
  obtain ⟨fs, sl, sh⟩ := add_between fx fy (lo := two.neg) (hi := two) (by rwa [isFinite_neg]) f2
    (by rw [val_neg]; omega) (by omega)
  rw [val_neg] at sl
  have key := div_between fs f2 (by omega) (lo := one.neg) (hi := one) rfl rfl
    (by rw [val_neg, val_one, Int.neg_mul, Int.mul_comm, ← Int.neg_mul]
        exact Int.mul_le_mul_of_nonneg_right sl hU.le)
    (by rw [val_one, Int.mul_comm _ two.val]; exact Int.mul_le_mul_of_nonneg_right sh hU.le)
  rw [val_neg, val_one] at key
  exact inOne_iff.2 key

/-- 0.5 in units, and as R334 writes it. -/
theorem half_val : (dec 5 10).isFinite = true ∧ 2 * (dec 5 10).val = (unitsPerOne : Int) ∧
    one.sub (dec 5 10) = dec 5 10 := by decide +kernel

/-- SR.OUT's mix of two data in [-1, 1] is in [-1, 1] (R334). -/
theorem srMix_inOne (hx : inOne x = true) (hy : inOne y = true) : inOne (srMix x y) = true := by
  obtain ⟨fx, xl, xh⟩ := inOne_iff.1 hx
  obtain ⟨fy, yl, yh⟩ := inOne_iff.1 hy
  obtain ⟨f, v, e⟩ := half_val
  rw [srMix, e]
  generalize dec 5 10 = half at *
  obtain ⟨fp, pl, ph⟩ := mul_unit fx f xl xh
  obtain ⟨fq, ql, qh⟩ := mul_unit fy f yl yh
  have key := add_between fp fq (lo := one.neg) (hi := one) rfl rfl (by rw [val_neg, val_one]; omega)
    (by rw [val_one]; omega)
  rw [val_neg, val_one] at key
  exact inOne_iff.2 key

/-- A soft-limited value is in [-1, 1] unless it is NaN (R198). -/
theorem softlim_inOne (h : (softlim x).isNaN = false) : inOne (softlim x) = true := by
  refine tanh_within ?_
  cases x with
  | nan => rw [softlim, Config.math.tanh_nan] at h; cases h
  | inf s => rfl
  | fin s k => rfl

/-- A finite mix has no NaN on its wet side (R9, R334). -/
theorem not_isNaN_of_srMix_finite (h : (srMix x y).isFinite = true) : y.isNaN = false := by
  cases y with
  | nan =>
    rw [srMix, add_swap] at h
    cases h
  | inf s => rfl
  | fin s k => rfl

/-! Pairs and frames. -/

/-- Both samples in [-1, 1]. -/
def PairInOne (y : Stereo F32) : Prop := inOne y.l = true ∧ inOne y.r = true

theorem PairInOne.zero : PairInOne (.both .zero) := ⟨by decide, by decide⟩

/-- A pair in [-1, 1] is finite after widening with any finite coefficient (R436). -/
theorem PairInOne.widen_finite {w : F32} {p : Stereo F32} (h : PairInOne p) (hw : w.isFinite = true) :
    (widen w p).l.isFinite = true ∧ (widen w p).r.isFinite = true := by
  have mid := mean_inOne h.1 h.2
  have side := mean_inOne h.1 (inOne_neg h.2)
  have factor : (one.add w).isFinite = true := add_finite_of_inOne (by decide) hw
  have scaled := mul_finite_of_inOne side factor
  exact ⟨add_finite_of_inOne mid scaled, add_finite_of_inOne mid (by rwa [isFinite_neg])⟩

/-- The crossfade keeps a finite pair finite (R437). -/
theorem faded_finite {v : F32} {p : Stereo F32} (hv : inUnit v = true) (hl : p.l.isFinite = true)
    (hr : p.r.isFinite = true) : (p.map fun a => a.mul v).isFinite = true := by
  have faded : ∀ a : F32, a.isFinite = true → (a.mul v).isFinite = true := fun a ha => by
    rw [mul_swap]
    exact mul_finite_of_inOne (inOne_of_inUnit hv) ha
  exact (Bool.and_eq_true _ _).mpr ⟨faded _ hl, faded _ hr⟩

/-! One sample of a mode. -/

/-- The gained frame and the collected frames, which a mode's rows find on the wires and leave there. -/
def SameBus (s t : State) : Prop := t.wires.x = s.wires.x ∧ t.wires.frame = s.wires.frame

theorem SameBus.refl (s : State) : SameBus s s := ⟨rfl, rfl⟩

theorem SameBus.trans (h : SameBus s t) (g : SameBus t u) : SameBus s u := ⟨g.1.trans h.1, g.2.trans h.2⟩

/-- A row of a mode writes of the wires the mode's own and the output pair. -/
theorem SameBus.of_stageRow {i : Instr} (hm : modeOfRow i = some m) (hp : i ≠ processRow m) (h : exec i s = .next t) :
    SameBus s t := by
  cases i <;> cases hm
  case fdProcess | seProcess | srProcess | shProcess => exact absurd rfl hp
  case seRead =>
    rcases seRead_cases s with ⟨-, -, e⟩ | ⟨d, -, -, e⟩
    · cases e.symm.trans h; exact ⟨rfl, rfl⟩
    · cases e.symm.trans h
  case srPredly =>
    rcases srPredly_cases s with ⟨-, e⟩ | ⟨-, e⟩
    · cases e.symm.trans h; exact ⟨rfl, rfl⟩
    · cases e.symm.trans h
  all_goals cases h; exact ⟨rfl, rfl⟩

theorem SameBus.of_stageRows {rows : List Instr} (hr : ∀ i ∈ rows, modeOfRow i = some m ∧ i ≠ processRow m)
    (h : runRows rows s = .next t) : SameBus s t := by
  induction rows generalizing s with
  | nil => cases h; exact .refl t
  | cons i rest ih =>
    obtain ⟨u, hu, ht⟩ := thenDo_eq_next.1 h
    obtain ⟨⟨hm, hp⟩, others⟩ := List.forall_mem_cons.1 hr
    exact (SameBus.of_stageRow hm hp hu).trans (ih others ht)

/-- GUARD writes of the wires the output pair (R200). -/
theorem SameBus.of_guardOutput (m : Mode) (s : State) : SameBus s (guardOutput m s) := by
  rcases guardOutput_cases m s with ⟨-, -, e⟩ | e <;> rw [e]
  · exact .refl s
  · cases m <;> exact ⟨rfl, rfl⟩

/-- An output pair whose samples, where both are finite, are in [-1, 1]. -/
def InOneIfFinite (y : Stereo F32) : Prop := y.l.isFinite = true → y.r.isFinite = true → PairInOne y

/-- GUARD makes silence of what is not finite (R200). -/
theorem guardOutput_inOne (m : Mode) (h : InOneIfFinite s.wires.y) : PairInOne (guardOutput m s).wires.y := by
  rcases guardOutput_cases m s with ⟨hl, hr, e⟩ | e <;> rw [e]
  · exact h hl hr
  · exact .zero

theorem softlim_pair (a b : F32) : InOneIfFinite ⟨softlim a, softlim b⟩ := fun hl hr =>
  ⟨softlim_inOne (isNaN_of_isFinite _ hl), softlim_inOne (isNaN_of_isFinite _ hr)⟩

/-- FilterDrive ends in a soft limit (R253). -/
theorem fdComp_inOne (s : State) : InOneIfFinite (fdComp s).wires.y := softlim_pair _ _

/-- ShepardTone ends in a soft limit (R374). -/
theorem shRev_inOne (s : State) : InOneIfFinite (shRev s).wires.y := softlim_pair _ _

/-- ShimmerReverb mixes its input with a soft-limited pair (R333, R334). -/
theorem srOut_inOne (hx : PairInOne s.wires.x) : InOneIfFinite (srOut (srPost s)).wires.y := fun hl hr =>
  ⟨srMix_inOne hx.1 (softlim_inOne (not_isNaN_of_srMix_finite hl)),
    srMix_inOne hx.2 (softlim_inOne (not_isNaN_of_srMix_finite hr))⟩

theorem runRows_append_eq_next {a b : List Instr} (h : runRows (a ++ b) s = .next t) :
    ∃ u, runRows a s = .next u ∧ runRows b u = .next t := by
  rw [runRows_append] at h
  exact thenDo_eq_next.1 h

/-- The modes whose output the source bounds, given the gained frame (R438). -/
def BoundedMode (m : Mode) (x : Stereo F32) : Prop := m = .fd ∨ m = .sh ∨ (m = .sr ∧ PairInOne x)

/-- What the stages of such a mode hand to its GUARD. -/
theorem stageRows_inOne (hb : BoundedMode m s.wires.x) (h : runRows (stageRows m) s = .next t) :
    InOneIfFinite t.wires.y := by
  rcases hb with rfl | rfl | ⟨rfl, hx⟩
  · obtain ⟨u, -, e⟩ := runRows_append_eq_next (a := [.fdGate, .fdAaf, .fdOs, .fdSvf]) (b := [.fdComp]) h
    cases e
    exact fdComp_inOne u
  · obtain ⟨u, -, e⟩ :=
      runRows_append_eq_next (a := [.shVoice, .shOsc, .shPan, .shSum, .shAdv, .shTone]) (b := [.shRev]) h
    cases e
    exact shRev_inOne u
  · obtain ⟨u, before, e⟩ :=
      runRows_append_eq_next (a := [.srHpf, .srPredly, .srRevin, .srAr, .srShift]) (b := [.srPost, .srOut]) h
    cases e
    have bus : SameBus s u := .of_stageRows (m := .sr) (by decide) before
    exact srOut_inOne (bus.1 ▸ hx)

/-- One sample of such a mode is in [-1, 1] (R435). -/
theorem processMode_bounded (hb : BoundedMode m s.wires.x) (h : processMode m s = .next t) :
    PairInOne t.wires.y ∧ t.wires.frame = s.wires.frame := by
  rw [processMode_eq_stages] at h
  obtain ⟨u, hu, e⟩ := thenDo_eq_next.1 h
  cases e
  have bus : SameBus s u := .of_stageRows (fun _ => stageRows_ofMode) hu
  exact ⟨guardOutput_inOne m (stageRows_inOne hb hu), (bus.trans (.of_guardOutput m u)).2⟩

/-! The frames of a block. -/

/-- Every frame collected so far is finite. -/
def FramesFinite (s : State) : Prop := s.wires.frame.all Stereo.isFinite = true

/-- An input frame as ENG.INGAIN hands it to the active mode (R434). -/
def gainedFrame (c : Cfg) (m : Mode) (f : Stereo F32) : Stereo F32 := f.map (c.gIn.at m).mul

/-- The inputs for which the source bounds the output (R438). -/
theorem BoundedMode.of_input {f : Stereo F32}
    (h : m = .fd ∨ m = .sh ∨ (m = .sr ∧ inOne c.gIn.sr = true ∧ PairInOne f)) : BoundedMode m (gainedFrame c m f) := by
  rcases h with rfl | rfl | ⟨rfl, hg, hf⟩
  · exact .inl rfl
  · exact .inr (.inl rfl)
  · exact .inr (.inr ⟨rfl, mul_inOne hg hf.1, mul_inOne hg hf.2⟩)

/-- Such a frame adds a finite frame to those collected. -/
theorem FramesFinite.runFrame {n : Nat} {f : Stereo F32} (hw : s.cfg.w.isFinite = true) (hv : inUnit s.xf.volume = true)
    (hb : BoundedMode s.xf.active (gainedFrame s.cfg s.xf.active f)) (h : FramesFinite s)
    (e : runFrame n f s = .next t) : FramesFinite t := by
  obtain ⟨u, hu, e⟩ := thenDo_eq_next.1 e
  cases e
  obtain ⟨pair, frame⟩ := processMode_bounded (s := engIngain _) hb hu
  have sampled := frame_engDispatch hu
  have cfg : u.cfg = s.cfg := sampled.cfg
  have xf : u.xf = s.xf := sampled.xf
  obtain ⟨l, r⟩ := pair.widen_finite (cfg ▸ hw)
  have added := faded_finite (xf ▸ hv) l r
  have before : u.wires.frame.all Stereo.isFinite = true := frame ▸ h
  exact List.all_append.trans ((Bool.and_eq_true _ _).mpr ⟨before, (Bool.and_true _).trans added⟩)

theorem FramesFinite.runFrames {frames : List (Stereo F32)} {n : Nat} (hw : s.cfg.w.isFinite = true)
    (hv : inUnit s.xf.volume = true) (hb : ∀ f ∈ frames, BoundedMode s.xf.active (gainedFrame s.cfg s.xf.active f))
    (h : FramesFinite s) (e : runFrames n frames s = .next t) : FramesFinite t := by
  induction frames generalizing n s with
  | nil => cases e; exact h
  | cons f rest ih =>
    obtain ⟨u, hu, ht⟩ := thenDo_eq_next.1 e
    have first := frame_runFrame hu
    have cfg : u.cfg = s.cfg := first.cfg
    have xf : u.xf = s.xf := first.xf
    obtain ⟨hf, others⟩ := List.forall_mem_cons.1 hb
    exact ih (cfg ▸ hw) (xf ▸ hv) (by rw [cfg, xf]; exact others) (h.runFrame hw hv hf hu) ht

/-- The state in which a block's frames start (R431). -/
theorem runCtrl_acceptBlock (k : Snapshot) (frames : List (Stereo F32)) (s : State) :
    (runCtrl (acceptBlock k frames s)).cfg = s.cfg ∧
    (runCtrl (acceptBlock k frames s)).xf = xfAdvance s.cfg.xfStep k.press s.xf ∧
    (runCtrl (acceptBlock k frames s)).ports.aout = s.ports.aout ∧
    (runCtrl (acceptBlock k frames s)).wires.frame = [] := by
  have update := frame_engUpdate (engRead (acceptBlock k frames s))
  have wires : ∀ v, (engUpdate v).wires = v.wires := fun v => by
    unfold engUpdate
    cases v.xf.active <;> rfl
  refine ⟨update.cfg, ?_, ?_, congrArg Wires.frame (wires _)⟩
  · rw [runCtrl, swAdvance, State.setXf_xf, update.cfg, update.snap, update.xf]
    rfl
  · rw [runCtrl, swAdvance, State.setXf_ports, update.ports]
    rfl

/-! The limiter. -/

/-- What `Cfg.ok` says of the width coefficient and the ceiling. -/
theorem output_of_ok (hc : c.ok = true) :
    c.w.isFinite = true ∧ F32.zero.lt c.limCeil = true ∧ c.limCeil.le .one = true := by
  simp only [Cfg.ok, Bool.and_eq_true, and_assoc, List.all_eq_true] at hc
  obtain ⟨-, -, positive, atMost, -, -, -, -, -, -, -, -, -, -, -, -, -, -, numbers⟩ := hc
  exact ⟨numbers _ List.mem_cons_self, positive, atMost⟩

/-- Of finite frames the limiter emits frames within the ceiling (R193, R440). -/
theorem runLimit_within_ceiling (hc : s.cfg.ok = true) (h : FramesFinite s) :
    ∀ f ∈ (runLimit s).ports.aout.drop s.ports.aout.length,
      f.l.abs.le s.cfg.limCeil = true ∧ f.r.abs.le s.cfg.limCeil = true := by
  intro f hf
  obtain ⟨-, positive, atMost⟩ := output_of_ok hc
  have bounded := Config.limiter.bounded _ (s.cfg.gLim.at s.xf.active) s.lim.sig _ positive atMost h
  have emitted : (runLimit s).ports.aout =
      s.ports.aout ++ (limiterProcess s.cfg.limCeil (s.cfg.gLim.at s.xf.active) s.lim s.wires.frame).2 := rfl
  rw [emitted, List.drop_left] at hf
  exact (Bool.and_eq_true _ _).mp (List.all_eq_true.1 bounded f hf)

/-! The statement. -/

/-- A block whose gained frames are bounded in its mode emits frames within the ceiling (R431). -/
theorem runBlock_within_ceiling {k : Snapshot} {frames : List (Stereo F32)} (hc : s.cfg.ok = true)
    (hv : inUnit s.xf.volume = true)
    (hb : ∀ f ∈ frames, BoundedMode (xfAdvance s.cfg.xfStep k.press s.xf).active
      (gainedFrame s.cfg (xfAdvance s.cfg.xfStep k.press s.xf).active f))
    (h : runBlock k frames s = .next t) :
    ∀ f ∈ t.ports.aout.drop s.ports.aout.length, f.l.abs.le s.cfg.limCeil = true ∧ f.r.abs.le s.cfg.limCeil = true := by
  obtain ⟨u, hu, rfl⟩ := runBlock_eq_next.1 h
  obtain ⟨cfg, xf, aout, frame⟩ := runCtrl_acceptBlock k frames s
  obtain ⟨q, samples⟩ := frame_runFrames hu
  have finite : FramesFinite u := by
    refine FramesFinite.runFrames ?_ ?_ ?_ ?_ hu
    · rw [cfg]; exact (output_of_ok hc).1
    · rw [xf]; exact volume_advance hc k.press hv
    · rw [cfg, xf]; exact hb
    · rw [FramesFinite, frame]; rfl
  have ucfg : u.cfg = s.cfg := samples.cfg.trans cfg
  have uaout : u.ports.aout = s.ports.aout := (congrArg Ports.aout samples.ports).trans aout
  rw [← ucfg, ← uaout]
  exact runLimit_within_ceiling (ucfg ▸ hc) finite

/-- An accepted BLOCK runs on its operands read as data (R431). -/
theorem exec_block_of_accepted {swl swr : BitVec 2} {ktop kbot : Word} (h : blockAccepted swl swr ktop kbot = true)
    (enc : BitVec 16) (press : Bool) (frames : List (Stereo Word)) (s : State) :
    ∃ l r, exec (.block enc press swl swr ktop kbot frames) s =
      runBlock ⟨.ofBits ktop, .ofBits kbot, enc, press, l, r⟩ (frames.map (Stereo.map F32.ofBits)) s := by
  simp only [blockAccepted, switchOk, Bool.and_eq_true, and_assoc, Option.isSome_iff_exists] at h
  obtain ⟨⟨l, hl⟩, ⟨r, hr⟩, top, bottom⟩ := h
  refine ⟨l, r, ?_⟩
  change execBlock enc press swl swr ktop kbot frames s = _
  rw [execBlock, hl, hr, top, bottom]
  rfl

/-- Settles O26: the samples of these modes are in [-1, 1], widening and crossfade keep them finite, and the limiter keeps
its contract on finite frames. -/
theorem blockOutputWithinCeiling : Obligations.BlockOutputWithinCeiling := by
  intro s t enc press swl swr ktop kbot frames hc hv accepted hm h
  obtain ⟨l, r, e⟩ := exec_block_of_accepted accepted enc press frames s
  refine runBlock_within_ceiling hc hv (List.forall_mem_map.2 fun f hf => .of_input ?_) (e.symm.trans h)
  exact hm.imp_right (Or.imp_right fun ⟨active, gain, input⟩ => ⟨active, gain, input f hf⟩)

end Sys2Proof.Machine
end

section
/-! PROOFS. The FilterDrive family (41_filterdrive.md), first part: the rows of FilterDrive (R241 to R253), the drive stage
at drive 0 and the output range (R256), and the process rows as their stages (R254, R294, R335, R375). -/

namespace Sys2Proof.Machine

open F32

variable {s t : State} {c : Cfg} {v : F32}

/-! The rows. -/

/-- Settles O30: the control update is its definition. -/
theorem fdUpdateResult : Obligations.FdUpdateResult := fun _ => rfl

/-- Settles O31: the nominal threshold is the default of `FD_GATE_T`, the stages are their definitions. -/
theorem fdFrontStageResults : Obligations.FdFrontStageResults := by
  refine fun s => ⟨fun nominal => ?_, rfl, rfl, rfl⟩
  rw [nominal]

/-- Settles O33: the curves, the drive and the taps are their definitions. -/
theorem fdCurveAndTapResults : Obligations.FdCurveAndTapResults :=
  fun _ => ⟨rfl, rfl, rfl, rfl, rfl, rfl, rfl⟩

/-- Settles O34: both filters use the one tap that `fd.tap` selects. -/
theorem fdFilterAndCompResults : Obligations.FdFilterAndCompResults :=
  fun _ => ⟨rfl, rfl⟩

/-! The selected curve (R144). -/

/-- The row of a drive curve (R246 to R248). -/
def curveRow : SwPos → Instr
  | .p0 => .fdWarm
  | .p1 => .fdHard
  | .p2 => .fdDestroy

/-- With M of FilterDrive the left switch names the curve row, whatever the right switch is (R142, R143). -/
theorem decodeRow_curve : ∀ right left : SwPos,
    decodeRow .left (right.toBits ++ left.toBits ++ Mode.fd.toBits) = some (curveRow left) := by
  intro right left
  cases right <;> cases left <;> rfl

theorem selector_of_fd (active : s.xf.active = .fd) :
    selector s = s.fd.tap.toBits ++ s.fd.curve.toBits ++ Mode.fd.toBits := by
  rw [selector, active]
  rfl

/-- A curve row computes the curve of its code on its operand. -/
theorem exec_curveRow (code : SwPos) (s : State) : exec (curveRow code) s =
    .next (s.setFdWires { s.wires.fd with c := fdCurve s.cfg code s.wires.fd.u }) := by
  cases code <;> rfl

/-- Settles O32: the row that SEL picks is that of `fd.curve`, and it computes the curve that FD.DRIVE blends with. -/
theorem fdDriveUsesTheSelectedCurve : Obligations.FdDriveUsesTheSelectedCurve := by
  intro s active
  refine ⟨curveRow s.fd.curve, _, ?_, exec_curveRow _ _, rfl, ?_⟩
  · rw [selector_of_fd active, decodeRow_curve]
  · cases s.fd.curve <;> rfl

/-! Drive 0 and the output range (R256). -/

/-- At drive 0 the drive stage is 1.0 times its operand plus 0.0 times the curve's value (R245). -/
theorem fdDriveOf_zero (c : Cfg) (curve : SwPos) (v : F32) : fdDriveOf c curve .zero v =
    (one.mul v).add (zero.mul (fdCurve c curve ((Config.fdPg.f .zero).mul v))) := by
  have dry : one.sub zero = one := by decide +kernel
  rw [fdDriveOf, dry]

/-- 1.0 times a finite datum has its value. -/
theorem one_mul_val (hv : v.isFinite = true) : (one.mul v).isFinite = true ∧ (one.mul v).val = v.val := by
  have product : one.val * v.val = v.val * unitsPerOne := by rw [val_one, Int.mul_comm]
  obtain ⟨hf, low, high⟩ := mul_between rfl hv hv hv product.ge product.le
  exact ⟨hf, Int.le_antisymm high low⟩

/-- The drive stage at drive 0 keeps the number (R245, R256; assumption 24). -/
theorem fdDriveOf_zero_sameNumber {curve : SwPos} (hv : v.isFinite = true)
    (hc : (fdCurve c curve ((Config.fdPg.f .zero).mul v)).isFinite = true) :
    sameNumber (fdDriveOf c curve .zero v) v := by
  obtain ⟨dryFinite, dry⟩ := one_mul_val hv
  obtain ⟨wetFinite, wet⟩ := mul_of_val_zero hc (z := zero) rfl val_zero
  rw [mul_swap] at wetFinite wet
  obtain ⟨hf, sum⟩ := add_of_val_zero dryFinite wetFinite wet
  rw [fdDriveOf_zero]
  exact sameNumber_of_val hf hv (sum.trans dry)

/-- Settles O35: at drive 0 the curve enters with a zero, and a FilterDrive sample ends in a soft limit and GUARD. -/
theorem filterDriveIdentityAndRange : Obligations.FilterDriveIdentityAndRange :=
  ⟨fun _ _ _ hv hc => fdDriveOf_zero_sameNumber hv hc,
    fun s _ h => (processMode_bounded (m := .fd) (s := s) (.inl rfl) h).1⟩

/-! The process rows (R254, R294, R335, R375). -/

/-- A process row is its mode's stages, then GUARD. -/
theorem exec_processRow_eq_stages (m : Mode) (s : State) :
    exec (processRow m) s = thenDo (runRows (stageRows m) s) fun t => .next (guardOutput m t) := by
  rw [exec_processRow, processMode_eq_stages]

/-- Settles O36: each process row is its stages, and only the two delay reads can end it. -/
theorem processRowsAreTheirStages : Obligations.ProcessRowsAreTheirStages := fun s =>
  ⟨exec_processRow_eq_stages .fd s, exec_processRow_eq_stages .se s, exec_processRow_eq_stages .sr s,
    exec_processRow_eq_stages .sh s, ⟨fdProcess s, rfl⟩, ⟨shProcess s, rfl⟩, seProcess_next, srProcess_next⟩

end Sys2Proof.Machine
end

section
/-! PROOFS. The FilterDrive family (41_filterdrive.md), second part: the first frame of each mode after its reset (R254,
R294, R335, R375). A fresh unit answers silence with silence (R190 to R192; assumptions 25 and 35), and so does every
stage. -/

namespace Sys2Proof.Machine

open F32

variable {s u : State} {c : Cfg} {x y z : F32}

/-! Zeros (R9). -/

theorem isZero_iff_val : z.isZero = true ↔ z.isFinite = true ∧ z.val = 0 := by
  rcases z with _ | s | ⟨s, m⟩
  · simp [isZero, isFinite]
  · simp [isZero, isFinite]
  · cases s <;> simp [isZero, units_eq_zero]

/-- A finite datum times a zero is a zero. -/
theorem mul_isZero (hx : x.isFinite = true) (hz : z.isZero = true) : (x.mul z).isZero = true := by
  obtain ⟨hf, hv⟩ := isZero_iff_val.1 hz
  exact isZero_iff_val.2 (mul_of_val_zero hx hf hv)

/-- 0.0 and a zero of either sign make 0.0. -/
theorem zero_add_of_isZero (hz : z.isZero = true) : zero.add z = zero := by
  rcases z with _ | s | ⟨s, m⟩
  · cases hz
  · cases hz
  · obtain rfl : m = ⟨0, by decide⟩ := Fin.ext (beq_iff_eq.1 hz)
    cases s <;> rfl

/-- A finite datum moved by 0.0 and by a zero is the same number. -/
theorem add_zeros_sameNumber (hx : x.isFinite = true) (hz : z.isZero = true) : sameNumber ((x.add .zero).add z) x := by
  obtain ⟨zf, zv⟩ := isZero_iff_val.1 hz
  obtain ⟨f1, v1⟩ := add_of_val_zero hx (z := zero) rfl val_zero
  obtain ⟨f2, v2⟩ := add_of_val_zero f1 zf zv
  exact sameNumber_of_val f2 hx (v2.trans v1)

theorem sameNumber_finite (h : sameNumber x y) (hy : y.isFinite = true) : x.isFinite = true := by
  rcases h with rfl | ⟨hx, -⟩
  · exact hy
  · exact (isZero_iff_val.1 hx).1

theorem round_of_zero {d : Nat} (hd : 0 < d) : F32.round false 0 d = zero := by
  have mag : roundMag 0 d = 0 := Nat.le_zero.1 (roundMag_le hd (Nat.zero_le _))
  rw [F32.round, mag]
  rfl

/-- What is above 0.0. -/
theorem zero_lt_cases (h : zero.lt x = true) : x = .inf false ∨ ∃ m, x = .fin false m ∧ 0 < m.val := by
  rcases x with _ | s | ⟨s, m⟩
  · cases h
  · cases s
    · exact .inl rfl
    · cases h
  · have above := of_decide_eq_true h
    cases s
    · exact .inr ⟨m, rfl, by simpa using above⟩
    · simp at above
      omega

theorem zero_div_of_pos (h : zero.lt x = true) : zero.div x = zero := by
  rcases zero_lt_cases h with rfl | ⟨m, rfl, hm⟩
  · rfl
  · have size : 0 < units m.val := Nat.pos_of_ne_zero fun e => hm.ne' (units_eq_zero.1 e)
    simp only [zero, div, hm.ne', if_false, units_zero, Nat.zero_mul, Bool.xor_false]
    exact round_of_zero size

theorem mul_zero_of_pos (hx : x.isFinite = true) (h : zero.lt x = true) : x.mul zero = zero := by
  rcases zero_lt_cases h with rfl | ⟨m, rfl, -⟩
  · cases hx
  · simp only [zero, mul, units_zero, Nat.mul_zero, Bool.xor_false]
    exact round_of_zero unitsPerOne_pos

/-- Rounding keeps a positive sum positive. -/
theorem zero_lt_add (hx : x.isFinite = true) (hy : y.isFinite = true) (h : 0 < x.val + y.val) :
    zero.lt (x.add y) = true := by
  obtain ⟨s, m, rfl⟩ := fin_of_isFinite hx
  obtain ⟨t, n, rfl⟩ := fin_of_isFinite hy
  rw [val_fin, val_fin] at h
  simp only [add, h.ne', if_false, decide_eq_false h.le.not_gt, F32.round, ofMag]
  have mag : 0 < roundMag (signedUnits s m + signedUnits t n).natAbs 1 := by
    refine le_roundMag (m := 1) Nat.one_pos ?_
    rw [show units 1 = 1 by decide]
    omega
  split
  · simpa [zero, lt, key] using mag
  · rfl

theorem not_le_zero_of_pos (h : zero.lt x = true) : x.le zero = false := by
  rw [lt_eq_not_le rfl (not_isNaN_of_le (le_of_lt h)).2, Bool.not_eq_true'] at h
  exact h

/-- Every number of an admitted configuration is finite (assumption 6). -/
theorem numbers_of_ok (h : c.ok = true) (hx : x ∈ c.numbers) : x.isFinite = true := by
  rw [Cfg.ok, Bool.and_eq_true] at h
  exact List.all_eq_true.1 h.2 x hx

/-! Fresh units. -/

/-- The three outputs of a silent filter. -/
def silentTaps : Taps := ⟨.zero, .zero, .zero⟩

/-- A filter configured in its range and fed nothing yet stays as it is on 0.0 and is silent (R190). -/
theorem svfProcess_fresh {fc res : F32} (h : Config.svf.stable fc res = true) :
    svfProcess (svfFresh fc res) .zero = (svfFresh fc res, silentTaps) := by
  have silent := Config.svf.silent (some (fc, res)) (by rintro p ⟨⟩; exact h)
  simp only [svfProcess, svfFresh, svfConfigure, svfInit, silent, silentTaps]

/-- The same of the two channels' filters, each with its own setting. -/
theorem svfBoth_fresh {fl rl fr rr : F32} (hl : Config.svf.stable fl rl = true) (hr : Config.svf.stable fr rr = true) :
    svfBoth ⟨svfFresh fl rl, svfFresh fr rr⟩ (.both .zero) =
      (⟨svfFresh fl rl, svfFresh fr rr⟩, .both silentTaps) := by
  simp only [svfBoth, Stereo.both, svfProcess_fresh hl, svfProcess_fresh hr]

/-- A fresh reverb is silent on silence (R191). -/
theorem reverbProcess_fresh {cfg : RevCfg} (h : Config.reverb.supports cfg = true) :
    (reverbProcess (reverbConfigure reverbInit cfg) (.both .zero)).2 = .both .zero :=
  Config.reverb.silent [] cfg (fun _ mem => absurd mem List.not_mem_nil) h

/-- A fresh shifter is silent on silence (R192). -/
theorem shifterProcess_fresh {semis : F32} {setting : Nat} (h : Config.shifter.supports ⟨some semis, setting⟩ = true) :
    (shifterProcess (shifterConfigure (shifterInit setting) semis) .zero).2 = .zero :=
  Config.shifter.silent [] _ (fun _ mem => absurd mem List.not_mem_nil) h

theorem softlim_zero : softlim .zero = .zero := Config.math.tanh_zero

/-! GUARD (R200). -/

theorem guardOutput_silent (m : Mode) (hy : s.wires.y = .both .zero) : guardOutput m s = s := by
  refine guardOutput_of_finite m ?_ ?_ <;> rw [hy] <;> rfl

/-- GUARD keeps the wires of ShepardTone. -/
theorem guardOutput_wires_sh (m : Mode) (s : State) : (guardOutput m s).wires.sh = s.wires.sh := by
  rcases guardOutput_cases m s with ⟨-, -, e⟩ | e <;> rw [e]
  cases m <;> rfl

/-! FilterDrive (R254): silence changes nothing but the wires it passes through. -/

/-- The gate's gain does not matter to silence, whatever the threshold (R242). -/
theorem fdGateGain_zero_mul (gateT : F32) : (fdGateGain gateT .zero).mul .zero = .zero := by
  unfold fdGateGain
  split
  next below => rw [zero_div_of_pos below]; decide +kernel
  next => decide +kernel

theorem fdGate_fresh (hfd : s.fd = fdInit c) (hx : s.wires.x = .both .zero) :
    (fdGate s).wires.fd.g = .both .zero ∧ (fdGate s).fd = s.fd := by
  have env : Stereo.zip fdGateEnv s.fd.gateEnv s.wires.x = s.fd.gateEnv := by
    rw [hfd, hx]
    exact congrArg Stereo.both (show fdGateEnv .zero .zero = .zero by decide +kernel)
  have gated : Stereo.zip (fun e x => (fdGateGain s.cfg.approx.fdGateT e).mul x) s.fd.gateEnv s.wires.x =
      .both .zero := by
    rw [hfd, hx]
    exact congrArg Stereo.both (fdGateGain_zero_mul _)
  rw [fdGate, env, gated]
  exact ⟨rfl, rfl⟩

theorem fdAaf_fresh (units : unitsOk c) (hfd : s.fd = fdInit c) (hg : s.wires.fd.g = .both .zero) :
    (fdAaf s).wires.fd.a = .both .zero ∧ (fdAaf s).fd = s.fd := by
  have stage1 : svfBoth s.fd.aa1 (.both .zero) = (s.fd.aa1, .both silentTaps) := by
    rw [hfd]; exact svfBoth_fresh units.fdAa units.fdAa
  have stage2 : svfBoth s.fd.aa2 (.both .zero) = (s.fd.aa2, .both silentTaps) := by
    rw [hfd]; exact svfBoth_fresh units.fdAa units.fdAa
  have low : (Stereo.both silentTaps).map Taps.low = .both .zero := rfl
  simp only [fdAaf, hg, stage1, low, stage2]
  exact ⟨rfl, rfl⟩

/-- The Warm curve is a zero at each zero: at -0.0 because it does not decrease (R246). -/
theorem fdWarmCurve_isZero (c : Cfg) (hz : z.isZero = true) : (fdWarmCurve c z).isZero = true := by
  obtain ⟨zf, zv⟩ := isZero_iff_val.1 hz
  have finite := Config.fdWarm.bounded c.fdWarmKp c.fdWarmKn z zf
  have below := Config.fdWarm.monotone c.fdWarmKp c.fdWarmKn z .zero zf rfl ((le_iff zf rfl).2 (by rw [zv, val_zero]))
  have above := Config.fdWarm.monotone c.fdWarmKp c.fdWarmKn .zero z rfl zf ((le_iff rfl zf).2 (by rw [zv, val_zero]))
  rw [Config.fdWarm.at_zero] at below above
  rw [le_iff finite rfl, val_zero] at below
  rw [le_iff rfl finite, val_zero] at above
  exact isZero_iff_val.2 ⟨finite, Int.le_antisymm below above⟩

/-- The Warm drive of 0.0 at drive 0 is 0.0 (R245, R246). -/
theorem fdDriveOf_silent (c : Cfg) : fdDriveOf c .p0 .zero .zero = .zero := by
  have dry : one.mul zero = zero := by decide +kernel
  have operand := mul_isZero (Config.fdPg.bounded .zero rfl rfl) (z := zero) rfl
  have curve := fdWarmCurve_isZero c operand
  rw [fdDriveOf_zero, dry]
  exact zero_add_of_isZero (mul_isZero rfl curve)

theorem fdOversample_silent (c : Cfg) : fdOversample (fdDriveOf c .p0 .zero) histZero = .zero := by
  have mid : hermite4 .zero .zero .zero .zero (.dec 5 10) = .zero := hermite4_zero half_val.1
  simp only [fdOversample, histZero, mid, fdDriveOf_silent]
  decide +kernel

theorem fdOs_fresh (hfd : s.fd = fdInit c) (ha : s.wires.fd.a = .both .zero) :
    (fdOs s).wires.fd.o = .both .zero ∧ (fdOs s).fd = s.fd := by
  have hist : Stereo.zip histShift s.fd.hist s.wires.fd.a = s.fd.hist := by rw [hfd, ha]; rfl
  have driven : s.fd.hist.map (fdOversample (fdDriveOf s.cfg s.fd.curve s.fd.driveSm)) = .both .zero := by
    rw [hfd]
    exact congrArg Stereo.both (fdOversample_silent s.cfg)
  rw [fdOs, hist, driven]
  exact ⟨rfl, rfl⟩

theorem fdSvf_fresh (units : unitsOk c) (hfd : s.fd = fdInit c) (ho : s.wires.fd.o = .both .zero) :
    (fdSvf s).wires.fd.f = .both .zero ∧ (fdSvf s).fd = s.fd := by
  have stable : Config.svf.stable (.dec 5 1) .zero = true :=
    units.fdSvf _ _ (by decide +kernel) (by decide +kernel) rfl rfl
  have stageA : svfBoth s.fd.svfA (.both .zero) = (s.fd.svfA, .both silentTaps) := by
    rw [hfd]; exact svfBoth_fresh stable stable
  have stageB : svfBoth s.fd.svfB (.both .zero) = (s.fd.svfB, .both silentTaps) := by
    rw [hfd]; exact svfBoth_fresh stable stable
  have tap : (Stereo.both silentTaps).map (fdTapOf s.fd.tap) = .both .zero := by rw [hfd]; rfl
  simp only [fdSvf, ho, stageA, tap, stageB]
  exact ⟨rfl, rfl⟩

theorem fdComp_fresh (hfd : s.fd = fdInit c) (hf : s.wires.fd.f = .both .zero) :
    (fdComp s).wires.y = .both .zero := by
  have scaled : zero.mul (one.div (one.add (zero.mul (.dec 16 1))).sqrt) = zero := by decide +kernel
  have out : fdCompOf .zero .zero = .zero := by rw [fdCompOf, scaled, softlim_zero]
  rw [fdComp, hf, hfd]
  exact congrArg Stereo.both out

/-- No stage logs anything. -/
theorem fdStages_events (s : State) : (fdComp (fdSvf (fdOs (fdAaf (fdGate s))))).events = s.events := by
  simp only [fdComp, fdSvf, fdOs, fdAaf, fdGate, State.setY_events, State.setFdWires_events, State.setFd_events]

/-- A fresh FilterDrive passes silence on and stays as it is. -/
theorem fdProcess_fresh (units : unitsOk c) (hfd : s.fd = fdInit c) (hx : s.wires.x = .both .zero) :
    (fdProcess s).wires.y = .both .zero ∧ (fdProcess s).fd = s.fd ∧ (fdProcess s).events = s.events := by
  obtain ⟨g, kept1⟩ := fdGate_fresh hfd hx
  obtain ⟨a, kept2⟩ := fdAaf_fresh units (kept1.trans hfd) g
  obtain ⟨o, kept3⟩ := fdOs_fresh (kept2.trans (kept1.trans hfd)) a
  obtain ⟨f, kept4⟩ := fdSvf_fresh units (kept3.trans (kept2.trans (kept1.trans hfd))) o
  have kept := kept4.trans (kept3.trans (kept2.trans kept1))
  have y := fdComp_fresh (kept.trans hfd) f
  rw [fdProcess, guardOutput_silent .fd y]
  exact ⟨y, kept, fdStages_events s⟩

/-! SpaceEcho (R294): the lines and the reverb give nothing yet. -/

/-- Both lines after a reset read 0.0 at every finite delay (R186, R188). -/
theorem dlRead_fresh {cap : Nat} {d : Stereo F32} (h5 : 5 ≤ cap) (h24 : cap ≤ 2 ^ 24) (hl : d.l.isFinite = true)
    (hr : d.r.isFinite = true) : Stereo.zip (dlRead cap) (.both dlReset) d = .both .zero := by
  obtain ⟨-, -, -, silent⟩ := delayWriteAgesAndResetClears
  simp only [Stereo.zip, Stereo.both, silent cap _ h5 h24 hl, silent cap _ h5 h24 hr]

/-- With nothing read and nothing reverberated the mix is the dry input (R293). -/
theorem seMix_dry (hx : x.isFinite = true) : sameNumber (seMix .zero x .zero .zero) x := by
  have read : (dec 8 10).mul zero = zero := by decide +kernel
  rw [seMix, read]
  exact add_zeros_sameNumber hx (by decide +kernel)

/-- GUARD passes a dry pair. -/
theorem guardOutput_dry {x : Stereo F32} (m : Mode) (hx : x.isFinite = true)
    (hy : s.wires.y = ⟨seMix .zero x.l .zero .zero, seMix .zero x.r .zero .zero⟩) :
    guardOutput m s = s ∧ sameNumber s.wires.y.l x.l ∧ sameNumber s.wires.y.r x.r := by
  obtain ⟨xl, xr⟩ := (Bool.and_eq_true _ _).mp hx
  have dryL := seMix_dry xl
  have dryR := seMix_dry xr
  rw [hy]
  refine ⟨guardOutput_of_finite m ?_ ?_, dryL, dryR⟩ <;> rw [hy]
  · exact sameNumber_finite dryL xl
  · exact sameNumber_finite dryR xr

/-- The stages after SE.READ when nothing is read (R290 to R293). -/
theorem seStages_fresh (units : unitsOk c) (rev : s.se.rev = (seInit c).rev) (amt : s.se.revAmt = .zero)
    (hr : s.wires.se.r = .both .zero) : (seOut (seRev (seWrite (seFb s)))).wires.y =
      ⟨seMix .zero s.wires.x.l .zero .zero, seMix .zero s.wires.x.r .zero .zero⟩ := by
  have wet : (reverbProcess (seInit c).rev (.both .zero)).2 = .both .zero := reverbProcess_fresh units.seRev
  change (⟨seMix s.se.revAmt s.wires.x.l s.wires.se.r.l (reverbProcess s.se.rev s.wires.se.r).2.l,
    seMix s.se.revAmt s.wires.x.r s.wires.se.r.r (reverbProcess s.se.rev s.wires.se.r).2.r⟩ : Stereo F32) = _
  rw [hr, rev, amt, wet]
  rfl

/-- No stage logs anything. -/
theorem seStages_events (s : State) : (seOut (seRev (seWrite (seFb s)))).events = s.events := by
  simp only [seOut, seRev, seWrite, seFb, State.setY_events, State.setSeWires_events, State.setSe_events]

/-- A fresh SpaceEcho gives its input back. -/
theorem seProcess_fresh (units : unitsOk s.cfg) (hse : s.se = seInit s.cfg) (h5 : 5 ≤ s.cfg.seCap)
    (h24 : s.cfg.seCap ≤ 2 ^ 24) (hx : s.wires.x.isFinite = true) (h : seProcess s = .next u) :
    sameNumber u.wires.y.l s.wires.x.l ∧ sameNumber u.wires.y.r s.wires.x.r ∧ u.events = s.events := by
  rcases seProcess_cases s with ⟨hl, hr, e⟩ | ⟨d, -, -, e⟩
  · have read : Stereo.zip (dlRead s.cfg.seCap) s.se.line (seDelays s.cfg s.se) = .both .zero := by
      rw [hse] at hl hr ⊢
      exact dlRead_fresh h5 h24 hl hr
    have rev : s.se.rev = (seInit s.cfg).rev := congrArg _ hse
    have amt : s.se.revAmt = .zero := congrArg SeState.revAmt hse
    rw [read] at e
    have y := seStages_fresh (s := (seMod s).setSeWires { (seMod s).wires.se with r := .both .zero }) units rev amt rfl
    obtain ⟨passes, dryL, dryR⟩ := guardOutput_dry .se hx y
    cases e.symm.trans h
    rw [passes]
    exact ⟨dryL, dryR, (seStages_events _).trans rfl⟩
  · cases e.symm.trans h

/-! ShimmerReverb (R335): the wet path is silent. -/

/-- What `Cfg.ok` says of SR.POST. -/
theorem srPost_of_ok (h : c.ok = true) : c.srDcR.isFinite = true ∧ c.srCompRel.isFinite = true ∧
    c.approx.srCompT.isFinite = true ∧ zero.lt c.approx.srCompT = true := by
  refine ⟨?_, ?_, ?_, ?_⟩
  · exact numbers_of_ok h (by simp [Cfg.numbers])
  · exact numbers_of_ok h (by simp [Cfg.numbers])
  · exact numbers_of_ok h (by simp [Cfg.numbers])
  · simp only [Cfg.ok, Bool.and_eq_true] at h
    tauto

/-- A positive threshold has 0.0 at or below the knee, or not above it. -/
theorem threshold_around_zero {t : F32} (ht : t.isFinite = true) (pos : zero.lt t = true) (half : F32) :
    zero.le (t.sub half) = true ∨ (t.add half).le zero = false := by
  have above : 0 < t.val := by rwa [lt_iff rfl ht, val_zero] at pos
  obtain ⟨s, m, rfl⟩ := fin_of_isFinite ht
  rcases half with _ | s | ⟨s, n⟩
  · exact .inr rfl
  · cases s
    · exact .inr rfl
    · exact .inl rfl
  · rcases le_or_gt (F32.fin s n).val 0 with low | high
    · exact .inl (le_of_lt (zero_lt_add rfl (by rw [isFinite_neg]; rfl) (by rw [val_neg]; omega)))
    · exact .inr (not_le_zero_of_pos (zero_lt_add rfl rfl (by omega)))

/-- The compressor's gain does not matter to silence (R189). -/
theorem compGain_zero_mul {p : CompParams} (ht : p.t.isFinite = true) (pos : zero.lt p.t = true) :
    (compGain p .zero).mul .zero = .zero := by
  unfold compGain
  split
  next => decide +kernel
  next low =>
    rw [if_neg (Bool.not_eq_true _ ▸ (threshold_around_zero ht pos _).resolve_left low)]
    obtain ⟨kneePos, kneeOne⟩ := Config.compKnee.bounded .zero p.t p.rho p.wk rfl
    exact mul_zero_of_pos (isFinite_of_le_of_le rfl rfl (le_of_lt kneePos) kneeOne) kneePos

/-- A compressor at rest passes 0.0 and stays at rest (R189). -/
theorem comp_silent {p : CompParams} (hr : p.rel.isFinite = true) (ht : p.t.isFinite = true)
    (pos : zero.lt p.t = true) : comp p .zero .zero = (.zero, .zero) := by
  have moved : zero.abs.sub zero = zero := by decide +kernel
  have env : compEnvelope p .zero .zero = .zero := by
    rw [compEnvelope, if_neg (by decide), moved]
    exact zero_add_of_isZero (mul_isZero hr rfl)
  rw [comp, env, compGain_zero_mul ht pos]

theorem dcblock_silent {r : F32} (hr : r.isFinite = true) : dcblock r .zero .zero .zero = .zero := by
  have step : zero.sub zero = zero := by decide +kernel
  rw [dcblock, step]
  exact zero_add_of_isZero (mul_isZero hr rfl)

/-- What SR.POST reads is at its reset values (R333). -/
structure PostFresh (c : Cfg) (m : SrState) : Prop where
  tlp : m.tlp = (srInit c).tlp
  dcX : m.dcX = .both .zero
  dcY : m.dcY = .both .zero
  env : m.compEnv = .both .zero

/-- What the wet path, SR.REVIN to SR.POST, reads is at its reset values (R330 to R333). -/
structure WetFresh (c : Cfg) (m : SrState) : Prop extends PostFresh c m where
  rev : m.rev = (srInit c).rev
  fb : m.fb = .both .zero
  amt : m.shAmt = .zero
  ar : m.ar = (srInit c).ar
  shift : m.shift = (srInit c).shift

theorem srRevin_fresh (units : unitsOk c) (wet : WetFresh c s.sr) (hp : s.wires.sr.p = .both .zero) :
    (srRevin s).wires.sr.rv = .both .zero := by
  have input : Stereo.zip (fun p fb => p.add (s.sr.shAmt.mul fb)) s.wires.sr.p s.sr.fb = .both .zero := by
    rw [hp, wet.fb, wet.amt]
    exact congrArg Stereo.both (show zero.add (zero.mul zero) = zero by decide +kernel)
  change (reverbProcess s.sr.rev _).2 = _
  rw [input, wet.rev]
  exact reverbProcess_fresh (units.srRev _ .p0 (by decide +kernel) (by decide +kernel))

theorem srAr_fresh (units : unitsOk c) (har : s.sr.ar = (srInit c).ar) (hv : s.wires.sr.rv = .both .zero) :
    (srAr s).wires.sr.a = .both .zero := by
  change (svfBoth s.sr.ar s.wires.sr.rv).2.map Taps.high = _
  rw [har, hv]
  exact congrArg (fun r => r.2.map Taps.high) (svfBoth_fresh units.srAr units.srAr)

theorem srShift_fresh (units : unitsOk c) (hs : s.sr.shift = (srInit c).shift) (ha : s.wires.sr.a = .both .zero) :
    (srShift s).wires.sr.s = .both .zero := by
  have left : (dec 12 1).sub (dec 5 100) = dec 1195 100 := by decide +kernel
  have right : (dec 12 1).add (dec 5 100) = dec 1205 100 := by decide +kernel
  obtain ⟨supL, supR⟩ := units.srShift (.dec 12 1) (by decide +kernel) (by decide +kernel)
  rw [left] at supL
  rw [right] at supR
  change (⟨(shifterProcess s.sr.shift.l s.wires.sr.a.l).2,
    (shifterProcess s.sr.shift.r s.wires.sr.a.r).2⟩ : Stereo F32) = _
  rw [hs, ha]
  exact congrArg₂ Stereo.mk (shifterProcess_fresh supL) (shifterProcess_fresh supR)

theorem srPost_fresh (hc : s.cfg = c) (units : unitsOk c) (ok : c.ok = true) (post : PostFresh c s.sr)
    (hs : s.wires.sr.s = .both .zero) : (srPost s).wires.sr.w = .both .zero := by
  subst hc
  obtain ⟨dcR, rel, t, pos⟩ := srPost_of_ok ok
  have tone : svfBoth s.sr.tlp s.wires.sr.s = (s.sr.tlp, .both silentTaps) := by
    rw [post.tlp, hs]; exact svfBoth_fresh (units.srTone .p0) (units.srTone .p0)
  have blocked := dcblock_silent dcR
  have compressed := comp_silent (p := srCompParams s.cfg) rel t pos
  simp only [srPost, tone, post.dcX, post.dcY, post.env, Stereo.both, Stereo.map, Stereo.zip, silentTaps, blocked,
    compressed, softlim_zero]
  rfl

/-- The stages after SR.PREDLY leave 0.0 on the wet wire (R330 to R333). -/
theorem srWet_fresh (units : unitsOk s.cfg) (ok : s.cfg.ok = true) (wet : WetFresh s.cfg s.sr)
    (hp : s.wires.sr.p = .both .zero) : (srPost (srShift (srAr (srRevin s)))).wires.sr.w = .both .zero := by
  have rv := srRevin_fresh units wet hp
  have a := srAr_fresh (s := srRevin s) units wet.ar rv
  have shifted := srShift_fresh (s := srAr (srRevin s)) units wet.shift a
  have kept : (srShift (srAr (srRevin s))).cfg = s.cfg := by
    simp only [srShift, srAr, srRevin, State.setSrWires_cfg, State.setSr_cfg]
  exact srPost_fresh kept units ok ⟨wet.tlp, wet.dcX, wet.dcY, wet.env⟩ shifted

/-- No stage logs anything. -/
theorem srStages_events (s : State) : (srOut (srPost (srShift (srAr (srRevin s))))).events = s.events := by
  simp only [srOut, srPost, srShift, srAr, srRevin, State.setY_events, State.setSrWires_events, State.setSr_events]

/-- The stages after SR.PREDLY give half of an input of 1.0 (R334). -/
theorem srStages_fresh (units : unitsOk s.cfg) (ok : s.cfg.ok = true) (wet : WetFresh s.cfg s.sr)
    (hp : s.wires.sr.p = .both .zero) (hx : s.wires.x = .both .one) :
    (srOut (srPost (srShift (srAr (srRevin s))))).wires.y = .both (.dec 5 10) := by
  have w := srWet_fresh units ok wet hp
  have half : srMix .one .zero = .dec 5 10 := by decide +kernel
  change Stereo.zip srMix s.wires.x (srPost (srShift (srAr (srRevin s)))).wires.sr.w = _
  rw [hx, w]
  exact congrArg Stereo.both half

/-- SR.HPF and SR.PREDLY read 0.0 and touch nothing that the wet path reads (R328, R329). -/
theorem srPredly_fresh (hsr : s.sr = srInit s.cfg) (h5 : 5 ≤ s.cfg.srCap) (h24 : s.cfg.srCap ≤ 2 ^ 24)
    (h : srPredly (srHpf s) = .next u) : u.cfg = s.cfg ∧ u.wires.x = s.wires.x ∧ u.events = s.events ∧
      WetFresh s.cfg u.sr ∧ u.wires.sr.p = .both .zero := by
  rcases srPredly_cases (srHpf s) with ⟨hf, e⟩ | ⟨-, e⟩
  · cases e.symm.trans h
    have pd : s.sr.pd = .both dlReset := congrArg SrState.pd hsr
    have fresh : WetFresh s.cfg s.sr := by
      rw [hsr]; exact ⟨⟨rfl, rfl, rfl, rfl⟩, rfl, rfl, rfl, rfl, rfl⟩
    refine ⟨rfl, rfl, rfl, ?_, ?_⟩
    · exact ⟨⟨fresh.tlp, fresh.dcX, fresh.dcY, fresh.env⟩, fresh.rev, fresh.fb, fresh.amt, fresh.ar, fresh.shift⟩
    · change s.sr.pd.map (fun dl => dlRead s.cfg.srCap dl (srPreDelay s.cfg)) = _
      rw [pd]
      exact dlRead_fresh (d := .both (srPreDelay s.cfg)) h5 h24 hf hf
  · cases e.symm.trans h

/-- A fresh ShimmerReverb halves its input (R334). -/
theorem srProcess_fresh (units : unitsOk s.cfg) (ok : s.cfg.ok = true) (hsr : s.sr = srInit s.cfg)
    (h5 : 5 ≤ s.cfg.srCap) (h24 : s.cfg.srCap ≤ 2 ^ 24) (hx : s.wires.x = .both .one) (h : srProcess s = .next u) :
    u.wires.y = .both (.dec 5 10) ∧ u.events = s.events := by
  rcases srProcess_cases s with ⟨-, v, hv, e⟩ | ⟨-, e⟩
  · obtain ⟨cfg, x, events, wet, p⟩ := srPredly_fresh hsr h5 h24 hv
    rw [← cfg] at units ok wet
    have y := srStages_fresh units ok wet p (x.trans hx)
    rw [guardOutput_of_finite .sr (by rw [y]; exact half_val.1) (by rw [y]; exact half_val.1)] at e
    cases e.symm.trans h
    exact ⟨y, (srStages_events v).trans events⟩
  · cases e.symm.trans h

/-! ShepardTone (R375): where `sin(0)` is 0.0 every voice is silent. -/

/-- The signal path up to SH.ADV, from the phases (R368 to R372). -/
theorem shSources (s : State) :
    (shAdv (shSum (shPan (shOsc (shVoice s))))).wires.sh.s =
      ⟨shSumOf (s.sh.p.map shEnvelope) (s.sh.th.map sinPhase) ((shPans s.cfg (sinPhase s.sh.panPh)).map F32.one.sub),
        shSumOf (s.sh.p.map shEnvelope) (s.sh.th.map sinPhase) (shPans s.cfg (sinPhase s.sh.panPh))⟩ ∧
    (shAdv (shSum (shPan (shOsc (shVoice s))))).sh.tlp = s.sh.tlp ∧
    (shAdv (shSum (shPan (shOsc (shVoice s))))).sh.rev = s.sh.rev ∧
    (shAdv (shSum (shPan (shOsc (shVoice s))))).sh.revAmt = s.sh.revAmt := by
  refine ⟨?_, ?_, ?_, ?_⟩ <;>
    simp only [shAdv, shSum, shPan, shOsc, shVoice, State.setSh_wires, State.setSh_sh, State.setSh_cfg,
      State.setShWires_wires, State.setShWires_sh, State.setShWires_cfg]

/-- SH.PROCESS leaves on their wires the voices' sines at the phases before the sample (R369). -/
theorem shProcess_voices (s : State) : (shProcess s).wires.sh.o = s.sh.th.map sinPhase := by
  rw [shProcess, guardOutput_wires_sh]
  simp only [shRev, shTone, shAdv, shSum, shPan, shOsc, shVoice, State.setY_wires, State.setSh_wires, State.setSh_sh,
    State.setShWires_wires, State.setShWires_sh]

/-- No stage logs anything. -/
theorem shStages_events (s : State) :
    (shRev (shTone (shAdv (shSum (shPan (shOsc (shVoice s))))))).events = s.events := by
  simp only [shRev, shTone, shAdv, shSum, shPan, shOsc, shVoice, State.setY_events, State.setSh_events,
    State.setShWires_events]

theorem sinPhase_zero : sinPhase .zero = Config.math.sin .zero := by
  have start : twoPi.mul zero = zero := by decide +kernel
  rw [sinPhase, start]

/-- An envelope is finite at a phase whose angle is (R368). -/
theorem shEnvelope_finite {p : F32} (h : (twoPi.mul p).isFinite = true) : (shEnvelope p).isFinite = true := by
  have cosine : inOne (Config.math.cos (twoPi.mul p)) = true := (Bool.and_eq_true _ _).mpr (Config.math.cos_bound _ h)
  have half : inOne (dec 5 10) = true := by decide +kernel
  have scaled := mul_finite_of_inOne half (inOne_iff.1 cosine).1
  exact add_finite_of_inOne half (by rwa [isFinite_neg])

/-- The envelopes at the pitch phases of a reset (R376). -/
theorem shEnvelopes_fresh (c : Cfg) : ∀ a ∈ ((shInit c).p.map shEnvelope).toList, a.isFinite = true := by
  have angles : ∀ p ∈ (shInit c).p.toList, (twoPi.mul p).isFinite = true := by
    change ∀ p ∈ [zero, dec 1 8, dec 2 8, dec 3 8, dec 4 8, dec 5 8, dec 6 8, dec 7 8], (twoPi.mul p).isFinite = true
    decide +kernel
  rw [Oct.toList_map]
  exact List.forall_mem_map.2 fun p hp => shEnvelope_finite (angles p hp)

/-- What `Cfg.ok` says of SH.PAN. -/
theorem shPan_of_ok (h : c.ok = true) : c.shPanDepth.isFinite = true ∧ c.shPanOff.isFinite = true :=
  ⟨numbers_of_ok h (by simp [Cfg.numbers]), numbers_of_ok h (by simp [Cfg.numbers])⟩

/-- A pan position with the spread LFO at 0.0 is in [0, 1] (R370). -/
theorem shPanOf_inUnit (ok : c.ok = true) (odd : Bool) : inUnit (shPanOf c .zero odd) = true := by
  obtain ⟨depth, off⟩ := shPan_of_ok ok
  obtain ⟨hf, half, -⟩ := half_val
  have sign : inOne (signOf odd) = true := by cases odd <;> decide
  obtain ⟨zf, zv⟩ := mul_of_val_zero depth (z := zero) rfl val_zero
  obtain ⟨sf, sv⟩ := add_of_val_zero hf zf zv
  have centre : inOne ((dec 5 10).add (c.shPanDepth.mul zero)) = true := inOne_iff.2 ⟨sf, by omega, by omega⟩
  have position := add_finite_of_inOne centre (mul_finite_of_inOne sign off)
  exact clamp_within (not_isNaN_of_isFinite position) (by decide)

/-- Both gains of every voice are finite (R370). -/
theorem shPans_finite (ok : c.ok = true) : (∀ g ∈ (shPans c .zero).toList, g.isFinite = true) ∧
    ∀ g ∈ ((shPans c .zero).map F32.one.sub).toList, g.isFinite = true := by
  have pan : ∀ g ∈ (shPans c .zero).toList, g.isFinite = true := by
    have even := finite_of_inUnit (shPanOf_inUnit ok false)
    have odd := finite_of_inUnit (shPanOf_inUnit ok true)
    simp only [shPans, Oct.toList, List.forall_mem_cons, even, odd, true_and]
    exact fun _ h => absurd h List.not_mem_nil
  refine ⟨pan, ?_⟩
  rw [Oct.toList_map]
  refine List.forall_mem_map.2 fun g hg => add_finite_of_inOne (x := one) (by decide) ?_
  rw [isFinite_neg]
  exact pan g hg

/-- Zeros added to 0.0 make 0.0. -/
theorem foldl_add_zeros {l : List F32} (h : ∀ z ∈ l, z.isZero = true) : l.foldl F32.add .zero = .zero := by
  induction l with
  | nil => rfl
  | cons z rest ih =>
    obtain ⟨hz, others⟩ := List.forall_mem_cons.1 h
    rw [List.foldl_cons, zero_add_of_isZero hz, ih others]

/-- Silent voices sum to 0.0 at any finite envelopes and gains (R371). -/
theorem shSumOf_silent {a g : Oct F32} (ha : ∀ x ∈ a.toList, x.isFinite = true)
    (hg : ∀ x ∈ g.toList, x.isFinite = true) : shSumOf a (.all .zero) g = .zero := by
  have silent : ∀ o ∈ (Oct.all F32.zero).toList, o.isZero = true := by decide
  have enveloped := Oct.forall_mem_zip (f := F32.mul) (R := fun z => z.isZero = true) (fun _ _ => mul_isZero) ha silent
  have products := Oct.forall_mem_zip (f := F32.mul) (R := fun z => z.isZero = true)
    (fun _ _ hz hx => mul_swap _ _ ▸ mul_isZero hx hz) enveloped hg
  have scaled : zero.mul (dec 15 100) = zero := by decide +kernel
  rw [shSumOf, foldl_add_zeros products, scaled]

theorem shTone_fresh (units : unitsOk c) (htlp : s.sh.tlp = (shInit c).tlp) (hs : s.wires.sh.s = .both .zero) :
    (shTone s).wires.sh.t = .both .zero := by
  obtain ⟨left, right⟩ := units.shTone (.dec 200 1) (by decide +kernel) (by decide +kernel)
  change (svfBoth s.sh.tlp s.wires.sh.s).2.map Taps.low = _
  rw [htlp, hs]
  exact congrArg (fun r => r.2.map Taps.low) (svfBoth_fresh left right)

theorem shRev_fresh (units : unitsOk c) (rev : s.sh.rev = (shInit c).rev) (amt : s.sh.revAmt = .zero)
    (ht : s.wires.sh.t = .both .zero) : (shRev s).wires.y = .both .zero := by
  have wet : (reverbProcess (shInit c).rev (.both .zero)).2 = .both .zero := reverbProcess_fresh units.shRev
  have mixed : zero.add (zero.mul zero) = zero := by decide +kernel
  change Stereo.zip (fun t rv => softlim (t.add (s.sh.revAmt.mul rv))) s.wires.sh.t
    (reverbProcess s.sh.rev s.wires.sh.t).2 = _
  rw [ht, rev, amt, wet]
  exact congrArg Stereo.both (mixed.symm ▸ softlim_zero)

/-- The voices of a fresh ShepardTone, whatever its input (R369, R375). -/
theorem shProcess_fresh_voices (hsh : s.sh = shInit c) :
    (shProcess s).wires.sh.o = .all (Config.math.sin .zero) := by
  rw [shProcess_voices, hsh, ← sinPhase_zero]
  rfl

/-- A fresh ShepardTone is silent where `sin(0)` is 0.0 (R375; assumption 7). -/
theorem shProcess_fresh (units : unitsOk s.cfg) (ok : s.cfg.ok = true) (hsh : s.sh = shInit s.cfg)
    (sine : Config.math.sin .zero = .zero) :
    (shProcess s).wires.y = .both .zero ∧ (shProcess s).events = s.events := by
  obtain ⟨sum, tlp, rev, amt⟩ := shSources s
  obtain ⟨right, left⟩ := shPans_finite ok
  have envelopes := shEnvelopes_fresh s.cfg
  have voices : (shInit s.cfg).th.map sinPhase = .all .zero := by
    rw [← sine, ← sinPhase_zero]; rfl
  have spread : sinPhase (shInit s.cfg).panPh = .zero := sinPhase_zero.trans sine
  rw [hsh] at sum tlp rev amt
  rw [voices, spread, shSumOf_silent envelopes left, shSumOf_silent envelopes right] at sum
  have t := shTone_fresh units tlp sum
  have y := shRev_fresh (s := shTone (shAdv (shSum (shPan (shOsc (shVoice s)))))) units rev amt t
  rw [shProcess, guardOutput_silent .sh y]
  exact ⟨y, shStages_events s⟩

/-! The statement. -/

/-- Settles O37: each mode's fresh stages hand silence on. -/
theorem firstFrameAfterReset : Obligations.FirstFrameAfterReset := by
  refine fun s t units => ⟨fun hfd hx h => ?_, fun hse h5 h24 hx h => seProcess_fresh units hse h5 h24 hx h,
    fun hsr h5 h24 ok hx h => srProcess_fresh units ok hsr h5 h24 hx h, fun hsh ok h => ?_⟩
  · cases h
    exact fdProcess_fresh units hfd hx
  · cases h
    exact ⟨shProcess_fresh_voices hsh, shProcess_fresh units ok hsh⟩

end Sys2Proof.Machine
end

section
/-! PROOFS. The SpaceEcho family (42_spaceecho.md): the switch rows (R282 to R287, R322 to R327, R362 to R367), the control
update (R281), the stages (R288 to R293) and the bound of the feedback (R290, R296, R507). -/

namespace Sys2Proof.Machine

open F32

variable {s : State} {x y z fb : F32}

/-! The rows. -/

/-- Settles O38: a switch row puts its table entry on the wires. -/
theorem switchRowResults : Obligations.SwitchRowResults := fun _ =>
  ⟨rfl, rfl, rfl, rfl, rfl, rfl, rfl, rfl, rfl, rfl, rfl, rfl, rfl, rfl, rfl, rfl, rfl, rfl⟩

/-- Settles O39: the control update is its definition. -/
theorem seUpdateResult : Obligations.SeUpdateResult := fun _ => rfl

/-- SE.READ with both delays finite (R289). -/
theorem seRead_of_finite (hl : s.wires.se.d.l.isFinite = true) (hr : s.wires.se.d.r.isFinite = true) :
    seRead s = .next (s.setSeWires { s.wires.se with r := Stereo.zip (dlRead s.cfg.seCap) s.se.line s.wires.se.d }) := by
  rw [seRead, hl, hr]
  rfl

/-- The left delay is looked at first (R511). -/
theorem seRead_of_left_not_finite (hl : s.wires.se.d.l.isFinite = false) :
    seRead s = .fault (.unmodelledDelay s.wires.se.d.l) := by
  rw [seRead, hl]
  rfl

theorem seRead_of_right_not_finite (hl : s.wires.se.d.l.isFinite = true) (hr : s.wires.se.d.r.isFinite = false) :
    seRead s = .fault (.unmodelledDelay s.wires.se.d.r) := by
  rw [seRead, hl, hr]
  rfl

/-- Settles O40: the two finiteness checks tell the three clauses apart. -/
theorem seReadResult : Obligations.SeReadResult :=
  fun _ => ⟨seRead_of_finite, seRead_of_left_not_finite, seRead_of_right_not_finite⟩

/-- Settles O41: the stages are their definitions, the nominal values the defaults of the instance. -/
theorem seStageResults : Obligations.SeStageResults := by
  refine fun s => ⟨rfl, rfl, rfl, rfl, fun nominal => ?_⟩
  rw [nominal]
  exact ⟨rfl, rfl, rfl, rfl, rfl⟩

/-- A write stores at the write index and leaves every other element (R187). -/
theorem dlWrite_stores {cap : Nat} {dl : DelayLine} (x : F32) (h : Memory.wf cap dl = true) :
    readCell (dlWrite cap dl x).cells dl.w = x ∧
    ∀ a, a ≠ dl.w → readCell (dlWrite cap dl x).cells a = readCell dl.cells a := by
  refine ⟨?_, fun a ha => ?_⟩
  · rw [readCell_dlWrite x h, if_pos rfl]
  · rw [readCell_dlWrite x h, if_neg ha]

/-- Settles O42: SE.WRITE is one DL.WRITE per channel. -/
theorem seWriteStoresAtTheWriteIndex : Obligations.SeWriteStoresAtTheWriteIndex :=
  fun s => ⟨(seWrite s).se.line, rfl, rfl, rfl, dlWrite_stores _, dlWrite_stores _⟩

/-! The feedback (R290, R296, R507). -/

/-- What SE.FB feeds back is `se.fb` times a soft-limited sample (R290). -/
theorem seFb_feeds_back (s : State) : ∃ l r : F32,
    (seFb s).wires.se.fb = ⟨s.se.fb.mul (softlim l), s.se.fb.mul (softlim r)⟩ :=
  ⟨_, _, rfl⟩

/-- A soft-limited sample times a feedback amount is at most that amount, unless it is NaN (R198, R296). -/
theorem feedback_bounded (hf : fb.isFinite = true) (h0 : zero.le fb = true) (z : F32) :
    (fb.mul (softlim z)).isNaN = true ∨ (fb.mul (softlim z)).abs.le fb = true := by
  rw [mul_swap]
  cases hn : (softlim z).isNaN with
  | true =>
    left
    rw [softlim, tanh_isNaN hn, Config.math.tanh_nan]
    rfl
  | false =>
    right
    obtain ⟨limited, low, high⟩ := inOne_iff.1 (softlim_inOne hn)
    have amount : 0 ≤ fb.val := by rwa [le_iff rfl hf, val_zero] at h0
    obtain ⟨finite, below, above⟩ := mul_unit limited hf low high
    exact (abs_le_iff hf).2 ⟨finite, by omega, by omega⟩

/-- A zero times anything is a zero, unless it is NaN (R9). -/
theorem isZero_of_zero_mul (hz : z.isZero = true) (hn : (z.mul y).isNaN = false) : (z.mul y).isZero = true := by
  rcases y with _ | s | ⟨s, m⟩
  · rw [mul_swap] at hn
    cases hn
  · obtain ⟨t, n, rfl⟩ := fin_of_isFinite (isZero_iff_val.1 hz).1
    have n0 : n.val = 0 := beq_iff_eq.1 hz
    rw [mul, if_pos n0] at hn
    cases hn
  · rw [mul_swap]
    exact mul_isZero rfl hz

/-- A zero added to any datum leaves the number (R9). -/
theorem add_isZero_sameNumber (x : F32) (hz : z.isZero = true) : sameNumber (x.add z) x := by
  obtain ⟨zf, zv⟩ := isZero_iff_val.1 hz
  obtain ⟨t, n, rfl⟩ := fin_of_isFinite zf
  rcases x with _ | s | ⟨s, m⟩
  · exact .inl rfl
  · exact .inl rfl
  · obtain ⟨hf, hv⟩ := add_of_val_zero (x := .fin s m) rfl zf zv
    exact sameNumber_of_val hf rfl hv

/-- With no feedback what a line stores is the fresh input (R291, R296). -/
theorem dlWrite_without_feedback {cap : Nat} {dl : DelayLine} (x : F32) (hz : fb.isZero = true)
    (hn : (fb.mul y).isNaN = false) (h : Memory.wf cap dl = true) :
    sameNumber (readCell (dlWrite cap dl (x.add (fb.mul y))).cells dl.w) x := by
  rw [(dlWrite_stores _ h).1]
  exact add_isZero_sameNumber x (isZero_of_zero_mul hz hn)

/-- Settles O43: the soft limit bounds what is fed back, and a zero amount feeds back a zero. -/
theorem seFeedbackIsBounded : Obligations.SeFeedbackIsBounded := by
  refine ⟨fun s t hf h0 ht => ?_, fun s t u hz ht hu => ?_⟩
  · obtain rfl : seFb s = t := Host.Outcome.next.inj ht
    obtain ⟨l, r, e⟩ := seFb_feeds_back s
    rw [e]
    exact ⟨feedback_bounded hf h0 l, feedback_bounded hf h0 r⟩
  · obtain rfl : seFb s = t := Host.Outcome.next.inj ht
    obtain rfl : seWrite (seFb s) = u := Host.Outcome.next.inj hu
    obtain ⟨l, r, e⟩ := seFb_feeds_back s
    have line : (seWrite (seFb s)).se.line = Stereo.zip (dlWrite s.cfg.seCap) s.se.line
      (Stereo.zip add s.wires.x (seFb s).wires.se.fb) := rfl
    rw [line, e]
    exact ⟨dlWrite_without_feedback _ hz, dlWrite_without_feedback _ hz⟩

end Sys2Proof.Machine
end

section
/-! PROOFS. The ShimmerReverb family (43_shimmer.md): the control update (R321), the stages (R328 to R334), and the range of
the feedback and of the output pair (R333, R334, R337, R507). -/

namespace Sys2Proof.Machine

open F32

variable {s t : State}

/-! Feedback and output (R333, R334, R337, R507). -/

/-- A completed SR.PROCESS ends with SR.POST, SR.OUT and GUARD (R335). -/
theorem srProcess_ends_guarded (h : srProcess s = .next t) : ∃ u, t = guardOutput .sr (srOut (srPost u)) := by
  rcases srProcess_cases s with ⟨-, u, -, e⟩ | ⟨-, e⟩
  · exact ⟨srShift (srAr (srRevin u)), (Host.Outcome.next.inj (e.symm.trans h)).symm⟩
  · cases e.symm.trans h

/-- SR.POST feeds back the soft-limited pair that SR.OUT mixes (R333, R334). -/
theorem srPost_feeds_back (u : State) : ∃ l r : F32,
    (srOut (srPost u)).sr.fb = ⟨softlim l, softlim r⟩ ∧
    (srOut (srPost u)).wires.y = ⟨srMix u.wires.x.l (softlim l), srMix u.wires.x.r (softlim r)⟩ :=
  ⟨_, _, rfl, rfl⟩

/-- GUARD passes a finite pair only, which had no NaN fed back, and otherwise resets the feedback to 0.0 (R333, R507). -/
theorem guarded_srFeedback_inOne (u : State) : PairInOne (guardOutput .sr (srOut (srPost u))).sr.fb := by
  rcases guardOutput_cases .sr (srOut (srPost u)) with ⟨hl, hr, passed⟩ | faulted
  · obtain ⟨l, r, fb, y⟩ := srPost_feeds_back u
    rw [y] at hl hr
    rw [passed, fb]
    exact ⟨softlim_inOne (not_isNaN_of_srMix_finite hl), softlim_inOne (not_isNaN_of_srMix_finite hr)⟩
  · rw [faulted]
    exact PairInOne.zero

/-- Settles O49: the feedback by its soft limit and GUARD, the output by the bound of one sample in [-1, 1]. -/
theorem shimmerFeedbackAndOutputInRange : Obligations.ShimmerFeedbackAndOutputInRange := by
  intro s t h
  obtain ⟨u, rfl⟩ := srProcess_ends_guarded h
  obtain ⟨left, right⟩ := guarded_srFeedback_inOne u
  exact ⟨left, right, fun xl xr => (processMode_bounded (m := .sr) (s := s) (.inr (.inr ⟨rfl, xl, xr⟩)) h).1⟩

/-! The rows. -/

/-- Settles O46: the control update is its definition. -/
theorem srUpdateResult : Obligations.SrUpdateResult := fun _ => rfl

/-- Settles O47: the stages are their definitions, the nominal values the defaults of the instance. -/
theorem srStageResults : Obligations.SrStageResults := by
  refine fun s => ⟨rfl, rfl, rfl, rfl, rfl, rfl, fun nominal => ?_⟩
  rw [nominal]
  exact ⟨rfl, rfl⟩

/-- Settles O48: the finiteness check decides between the stop and one DL.READ, then one DL.WRITE, per channel. -/
theorem srPreDelayReadsThenWrites : Obligations.SrPreDelayReadsThenWrites := by
  refine fun s => ⟨fun nominal => ?_, fun stops => ?_, fun finite => ?_⟩
  · rw [nominal]
    exact ⟨rfl, rfl⟩
  · exact ((srPredly_cases s).resolve_left fun reads => Bool.false_ne_true (stops.symm.trans reads.1)).2
  · have completes := ((srPredly_cases s).resolve_right fun fault => Bool.false_ne_true (fault.1.symm.trans finite)).2
    exact ⟨_, completes, rfl, rfl, dlWrite_stores _, dlWrite_stores _⟩

end Sys2Proof.Machine
end

section
/-! PROOFS. The ShepardTone family (44_shepard.md): its input frame is not read (R375), the control update (R361) and the
stages (R368 to R374). -/

namespace Sys2Proof.Machine

/-! The input frame (R375). -/

/-- Puts another input frame on its wire. -/
def State.setInput (x : Stereo F32) (s : State) : State := s.setWires { s.wires with x := x }

/-- GUARD looks at the output pair, and resets a mode from the configuration (R200, R201). -/
theorem guardOutput_commutes_setInput (m : Mode) (x : Stereo F32) :
    Function.Commute (guardOutput m) (State.setInput x) := by
  intro s
  have y : (s.setInput x).wires.y = s.wires.y := rfl
  by_cases passes : guardMask s.wires.y = 0#2
  · rw [guardOutput, guardOutput, y, if_pos passes, if_pos passes]
  · rw [guardOutput, guardOutput, y, if_neg passes, if_neg passes]
    cases m <;> rfl

/-- Each stage takes its operands from ShepardTone's state and wires, and writes only these and the output pair. -/
theorem shStages_commute_setInput (x : Stereo F32) :
    Function.Commute (shRev ∘ shTone ∘ shAdv ∘ shSum ∘ shPan ∘ shOsc ∘ shVoice) (State.setInput x) := by
  have voice : Function.Commute shVoice (State.setInput x) := fun _ => rfl
  have osc : Function.Commute shOsc (State.setInput x) := fun _ => rfl
  have pan : Function.Commute shPan (State.setInput x) := fun _ => rfl
  have sum : Function.Commute shSum (State.setInput x) := fun _ => rfl
  have adv : Function.Commute shAdv (State.setInput x) := fun _ => rfl
  have tone : Function.Commute shTone (State.setInput x) := fun _ => rfl
  have rev : Function.Commute shRev (State.setInput x) := fun _ => rfl
  exact rev.comp_left (tone.comp_left (adv.comp_left (sum.comp_left (pan.comp_left (osc.comp_left voice)))))

/-- One sample with another input frame is the same sample, with that frame still on its wire. -/
theorem shProcess_commutes_setInput (x : Stereo F32) : Function.Commute shProcess (State.setInput x) :=
  (guardOutput_commutes_setInput .sh x).comp_left (shStages_commute_setInput x)

/-- Settles O53: the stages and GUARD each commute with replacing the input frame. -/
theorem shepardIgnoresItsInput : Obligations.ShepardIgnoresItsInput := by
  intro s t x h
  obtain rfl : shProcess s = t := Host.Outcome.next.inj h
  exact congrArg Host.Outcome.next (shProcess_commutes_setInput x s)

/-! The rows. -/

/-- Settles O50: the control update is its definition. -/
theorem shUpdateResult : Obligations.ShUpdateResult := fun _ => rfl

/-- Settles O51: the stages are their definitions, the spread of the pan alternating between even and odd voices. -/
theorem shVoiceStageResults : Obligations.ShVoiceStageResults := fun _ => ⟨rfl, rfl, rfl⟩

/-- Settles O52: the stages are their definitions, the fold of SH.SUM written out over the eight voices. -/
theorem shMixStageResults : Obligations.ShMixStageResults := fun _ => ⟨rfl, rfl, rfl, rfl⟩

end Sys2Proof.Machine
end

section
/-! PROOFS. The ModeSwitcher family (45_modeswitcher.md), first part: the switcher's operations branch by branch (R400
to R403), and its fades, which are monotone in [0, 1] and end within 2^21 blocks (R406, R407). -/

namespace Sys2Proof.Machine

open F32

variable {step v : F32} {xf : Xf} {m : Mode}

/-! The branches. -/

theorem xfFadeOut_of_le (h : (fadeOutVolume step xf.volume).le xfThresh = true) :
    xfFadeOut step xf =
      { xf with volume := fadeOutVolume step xf.volume, active := xf.pending, state := .fadingIn } := if_pos h

theorem xfFadeOut_of_not_le (h : (fadeOutVolume step xf.volume).le xfThresh = false) :
    xfFadeOut step xf = { xf with volume := fadeOutVolume step xf.volume } := if_neg (ne_true_of_eq_false h)

theorem xfFadeIn_of_le (h : F32.one.le (fadeInVolume step xf.volume) = true) :
    xfFadeIn step xf = { xf with volume := .one, state := .steady } := if_pos h

theorem xfFadeIn_of_not_le (h : F32.one.le (fadeInVolume step xf.volume) = false) :
    xfFadeIn step xf = { xf with volume := fadeInVolume step xf.volume } := if_neg (ne_true_of_eq_false h)

/-- Swap or not, a fade-out step keeps the pending mode (R402). -/
theorem xfFadeOut_pending (step : F32) (xf : Xf) : (xfFadeOut step xf).pending = xf.pending := by
  unfold xfFadeOut
  split <;> rfl

/-- A fade-in step keeps both modes (R403). -/
theorem xfFadeIn_modes (step : F32) (xf : Xf) :
    (xfFadeIn step xf).active = xf.active ∧ (xfFadeIn step xf).pending = xf.pending := by
  unfold xfFadeIn
  split <;> exact ⟨rfl, rfl⟩

theorem xfAdvance_steady (h : xf.state = .steady) : xfAdvance step false xf = xf := by
  rw [xfAdvance, h]
  rfl

theorem xfAdvance_fadingOut (press : Bool) (h : xf.state = .fadingOut) :
    xfAdvance step press xf = xfFadeOut step xf := by rw [xfAdvance, h]

theorem xfAdvance_fadingIn (press : Bool) (h : xf.state = .fadingIn) :
    xfAdvance step press xf = xfFadeIn step xf := by rw [xfAdvance, h]

/-- Settles O12: the branches of the switcher are the rows of R400's table. -/
theorem switcherTransitions : Obligations.SwitcherTransitions := by
  intro s
  refine ⟨xfAdvance s.cfg.xfStep s.snap.press s.xf, rfl, fun steady press => ?_, fun steady press => ?_,
    fun out above => ?_, fun out below => ?_, fun up partly => ?_, fun up full => ?_⟩
  · rw [press, xfAdvance_press steady]
  · rw [press, xfAdvance_steady steady]
  · rw [xfAdvance_fadingOut _ out, xfFadeOut_of_not_le above]
  · rw [xfAdvance_fadingOut _ out, xfFadeOut_of_le below]
  · rw [xfAdvance_fadingIn _ up, xfFadeIn_of_not_le partly]
  · rw [xfAdvance_fadingIn _ up, xfFadeIn_of_le full]

/-- An operation on `xf` alone answers the state with the new `xf`. -/
theorem next_setXf {s : State} {x y : Xf} (h : x = y) : (.next (s.setXf x) : Result) = .next { s with xf := y } := by
  rw [h, State.setXf]

/-- Settles O13: each row by the branch that its new volume picks. -/
theorem fadeStepResults : Obligations.FadeStepResults := fun _ =>
  ⟨fun below => next_setXf (xfFadeOut_of_le below), fun above => next_setXf (xfFadeOut_of_not_le above),
    fun full => next_setXf (xfFadeIn_of_le full), fun partly => next_setXf (xfFadeIn_of_not_le partly)⟩

/-! Monotone fades (R406, R407). -/

/-- Returning to Steady writes 1.0, which the fade-in volume has then reached: the value is the same (R403). -/
theorem xfFadeIn_volume_val (h : inUnit (fadeInVolume step xf.volume) = true) :
    (xfFadeIn step xf).volume.val = (fadeInVolume step xf.volume).val ∧ inUnit (xfFadeIn step xf).volume = true := by
  obtain ⟨finite, -, atMost⟩ := inUnit_iff.1 h
  cases full : F32.one.le (fadeInVolume step xf.volume) with
  | true =>
    have atLeast := (le_iff rfl finite).1 full
    rw [xfFadeIn_of_le full]
    rw [val_one] at atLeast
    exact ⟨val_one.trans (Int.le_antisymm atLeast atMost), show inUnit .one = true by decide⟩
  | false =>
    rw [xfFadeIn_of_not_le full]
    exact ⟨rfl, h⟩

/-- `sqrt(min(v + s, 1.0))` is at least every `r` with `r × r` at most a datum `lo` in [0, 1] that `s` reaches. -/
theorem le_fadeInVolume {lo r : F32} (hv : inUnit v = true) (hs : inUnit step = true) (hlo : inUnit lo = true)
    (hr : r.isFinite = true) (h0 : 0 ≤ r.val) (reached : lo.val ≤ step.val)
    (square : r.val * r.val ≤ lo.val * unitsPerOne) : r.val ≤ (fadeInVolume step v).val := by
  obtain ⟨fv, v0, v1⟩ := inUnit_iff.1 hv
  obtain ⟨fs, s0, s1⟩ := inUnit_iff.1 hs
  obtain ⟨fl, l0, l1⟩ := inUnit_iff.1 hlo
  have two : (dec 2 1).isFinite = true ∧ (dec 2 1).val = 2 * unitsPerOne := by decide +kernel
  obtain ⟨fa, a0, -⟩ := add_between fv fs fl two.1 (by omega) (by omega)
  have root : ∀ u : F32, u.isFinite = true → lo.val ≤ u.val → u.val ≤ unitsPerOne → r.val ≤ u.sqrt.val := by
    intro u fu u0 u1
    have hU : (0 : Int) ≤ unitsPerOne := Int.natCast_nonneg _
    refine (sqrt_between fu (by omega) hr (hi := one) rfl h0 (by rw [val_one]; exact hU) ?_ ?_).2.1
    · exact square.trans (Int.mul_le_mul_of_nonneg_right u0 hU)
    · rw [val_one]; exact Int.mul_le_mul_of_nonneg_right u1 hU
  unfold fadeInVolume
  rcases min_eq (isNaN_of_isFinite _ fa) (y := one) rfl with ⟨e, h⟩ | ⟨e, -⟩ <;> rw [e]
  · have h := (le_iff fa rfl).1 h
    rw [val_one] at h
    exact root _ fa a0 h
  · exact root one rfl (by rw [val_one]; exact l1) (by rw [val_one])

/-- From a step of 1.001e-6 a fade-in volume is above the threshold: it is at least 0.0010002 (R407). -/
theorem thresh_lt_fadeInVolume (hv : inUnit v = true) (hs : inUnit step = true)
    (h : (F32.dec 1001 1000000000).le step = true) : xfThresh.val < (fadeInVolume step v).val := by
  have least : inUnit (.dec 1001 1000000000) = true := by decide +kernel
  have root : (dec 10002 10000000).isFinite = true ∧ 0 ≤ (dec 10002 10000000).val ∧
      (dec 10002 10000000).val * (dec 10002 10000000).val ≤ (dec 1001 1000000000).val * unitsPerOne ∧
      xfThresh.val < (dec 10002 10000000).val := by decide +kernel
  obtain ⟨fr, r0, square, above⟩ := root
  have reached := (le_iff (finite_of_inUnit least) (finite_of_inUnit hs)).1 h
  exact above.trans_le (le_fadeInVolume hv hs least fr r0 reached square)

/-- Settles O16: one step of each fade in units, and the bound on fade-in volumes. -/
theorem fadesAreMonotone : Obligations.FadesAreMonotone := by
  intro step xf above atMost hv
  obtain ⟨fs, s0, s1⟩ := step_bounds above atMost
  have fv := finite_of_inUnit hv
  obtain ⟨outUnit, falls, -⟩ := fadeOut_step hv fs s0 s1
  obtain ⟨volumeUnit, rises, -⟩ := fadeIn_step hv fs s0
  obtain ⟨same, inRange⟩ := xfFadeIn_volume_val volumeUnit
  have fi := finite_of_inUnit inRange
  rw [xfFadeOut_volume, le_iff (finite_of_inUnit outUnit) fv, le_iff fv fi, lt_iff (by decide +kernel) fi, same]
  exact ⟨outUnit, falls, inRange, rises, thresh_lt_fadeInVolume hv (inUnit_iff.2 ⟨fs, by omega, s1⟩)⟩

/-! Every fade ends (R406). -/

/-- A run whose every step ends it, or lowers a measure by `c` to a positive value, ends within `n + 1` steps
when the measure starts at no more than `(n + 1) × c`. -/
theorem exists_done_of_descent {α : Type} {run : Nat → α → α} {going done : α → Prop} {size : α → Int} {c : Int}
    (hrun : ∀ k x, run (k + 1) x = run k (run 1 x))
    (hstep : ∀ x, going x → done (run 1 x) ∨ going (run 1 x) ∧ 0 < size (run 1 x) ∧ size (run 1 x) + c ≤ size x)
    (n : Nat) {x : α} (hx : going x) (hsize : size x ≤ (n + 1 : Nat) * c) : ∃ k, k ≤ n + 1 ∧ done (run k x) := by
  induction n generalizing x with
  | zero =>
    rcases hstep x hx with h | ⟨-, positive, less⟩
    · exact ⟨1, Nat.le_refl 1, h⟩
    · omega
  | succ n ih =>
    rcases hstep x hx with h | ⟨going, -, less⟩
    · exact ⟨1, by omega, h⟩
    · rw [Nat.cast_succ, Int.add_mul] at hsize
      obtain ⟨k, hk, h⟩ := ih going (by omega)
      exact ⟨k + 1, by omega, (hrun k x).symm ▸ h⟩

/-- Fading out toward mode `m`. -/
def FadingOutTo (m : Mode) (xf : Xf) : Prop := xf.state = .fadingOut ∧ xf.pending = m ∧ inUnit xf.volume = true

/-- The swap to mode `m`, at or below the threshold. -/
def SwappedTo (m : Mode) (xf : Xf) : Prop := xf.state = .fadingIn ∧ xf.active = m ∧ xf.volume.le xfThresh = true

/-- Fading in on mode `m`. -/
def FadingInOn (m : Mode) (xf : Xf) : Prop := xf.state = .fadingIn ∧ xf.active = m ∧ inUnit xf.volume = true

/-- Steady in mode `m` at full volume. -/
def SteadyIn (m : Mode) (xf : Xf) : Prop := xf.state = .steady ∧ xf.active = m ∧ xf.volume = .one

/-- A fade-out step swaps, or leaves a volume that is positive and lower by 2^-21. -/
theorem FadingOutTo.swaps_or_falls (hs : step.isFinite = true) (s0 : 2 ^ 129 ≤ step.val) (s1 : step.val ≤ unitsPerOne)
    (h : FadingOutTo m xf) : SwappedTo m (fadeOutSteps step 1 xf) ∨
      FadingOutTo m (fadeOutSteps step 1 xf) ∧ 0 < (fadeOutSteps step 1 xf).volume.val ∧
        (fadeOutSteps step 1 xf).volume.val + 2 ^ 128 ≤ xf.volume.val := by
  obtain ⟨out, pending, hv⟩ := h
  have taken : fadeOutSteps step 1 xf = xfFadeOut step xf := if_pos out
  obtain ⟨unit, -, falls⟩ := fadeOut_step hv hs s0 s1
  rw [taken]
  cases below : (fadeOutVolume step xf.volume).le xfThresh with
  | true =>
    rw [xfFadeOut_of_le below]
    exact .inl ⟨rfl, pending, below⟩
  | false =>
    rw [xfFadeOut_of_not_le below]
    have thresh : xfThresh.isFinite = true ∧ 0 ≤ xfThresh.val := by decide +kernel
    have above := mt (le_iff (finite_of_inUnit unit) thresh.1).2 (ne_true_of_eq_false below)
    refine .inr ⟨⟨out, pending, unit⟩, ?_⟩
    dsimp only
    omega

/-- A fade-in step returns to Steady, or leaves a volume that is below 1.0 and higher by 2^-21. -/
theorem FadingInOn.ends_or_rises (hs : step.isFinite = true) (s0 : 2 ^ 129 ≤ step.val) (h : FadingInOn m xf) :
    SteadyIn m (fadeInSteps step 1 xf) ∨
      FadingInOn m (fadeInSteps step 1 xf) ∧ 0 < unitsPerOne - (fadeInSteps step 1 xf).volume.val ∧
        unitsPerOne - (fadeInSteps step 1 xf).volume.val + 2 ^ 128 ≤ unitsPerOne - xf.volume.val := by
  obtain ⟨up, active, hv⟩ := h
  have taken : fadeInSteps step 1 xf = xfFadeIn step xf := if_pos up
  obtain ⟨unit, -, rises⟩ := fadeIn_step hv hs s0
  rw [taken]
  cases full : F32.one.le (fadeInVolume step xf.volume) with
  | true =>
    rw [xfFadeIn_of_le full]
    exact .inl ⟨rfl, active, rfl⟩
  | false =>
    rw [xfFadeIn_of_not_le full]
    have partly := mt (le_iff rfl (finite_of_inUnit unit)).2 (ne_true_of_eq_false full)
    rw [val_one] at partly
    refine .inr ⟨⟨up, active, unit⟩, ?_⟩
    dsimp only
    omega

/-- Settles O17: each step moves the volume by at least 2^-21 of its range. -/
theorem fadesTerminate : Obligations.FadesTerminate := by
  intro step xf above atMost hv
  obtain ⟨fs, s0, s1⟩ := step_bounds above atMost
  obtain ⟨-, v0, v1⟩ := inUnit_iff.1 hv
  have range : (unitsPerOne : Int) = (2 ^ 21 - 1 + 1 : Nat) * 2 ^ 128 := by rw [unitsPerOne_eq]; norm_num
  refine ⟨fun out => ?_, fun up => ?_⟩
  · exact exists_done_of_descent (run := fadeOutSteps step) (size := fun x => x.volume.val) (fun _ _ => rfl)
      (fun _ => FadingOutTo.swaps_or_falls fs s0 s1) (2 ^ 21 - 1) ⟨out, rfl, hv⟩ (v1.trans range.le)
  · exact exists_done_of_descent (run := fadeInSteps step) (size := fun x => unitsPerOne - x.volume.val)
      (fun _ _ => rfl) (fun _ => FadingInOn.ends_or_rises fs s0) (2 ^ 21 - 1) ⟨up, rfl, hv⟩
      ((Int.sub_le_self _ v0).trans range.le)

end Sys2Proof.Machine
end

section
/-! PROOFS. The ModeSwitcher family (45_modeswitcher.md), second part: a press while fading, which nothing after the
switcher reads (R404), and the swap, the only change of the active mode but RESET (R405). -/

namespace Sys2Proof.Machine

variable {step : F32} {xf : Xf} {m : Mode} {s t : State}

/-! What reads the press. -/

/-- Outside Steady the switcher does not look at the press, and keeps the pending mode. -/
theorem xfAdvance_of_fading (h : xf.state ≠ .steady) (p q : Bool) :
    xfAdvance step p xf = xfAdvance step q xf ∧ (xfAdvance step p xf).pending = xf.pending := by
  cases e : xf.state with
  | steady => exact absurd e h
  | fadingOut =>
    rw [xfAdvance_fadingOut p e, xfAdvance_fadingOut q e]
    exact ⟨rfl, xfFadeOut_pending step xf⟩
  | fadingIn =>
    rw [xfAdvance_fadingIn p e, xfAdvance_fadingIn q e]
    exact ⟨rfl, (xfFadeIn_modes step xf).2⟩

/-- The state with another press edge, in the latched snapshot and at the control port. -/
def State.setPress (latched port : Bool) (s : State) : State :=
  (s.setSnap { s.snap with press := latched }).setPorts
    { s.ports with ctl := { s.ports.ctl with press := port } }

/-- An operation that does the same with every press edge. -/
def IgnoresPress (o : State → Result) : Prop :=
  ∀ (latched port : Bool) (s t : State), o s = .next t → o (s.setPress latched port) = .next (t.setPress latched port)

theorem IgnoresPress.next {f : State → State}
    (hf : ∀ latched port s, f (s.setPress latched port) = (f s).setPress latched port) :
    IgnoresPress fun s => .next (f s) := by
  intro latched port s t h
  cases h
  exact congrArg _ (hf latched port s)

theorem IgnoresPress.thenDo {o k : State → Result} (ho : IgnoresPress o) (hk : IgnoresPress k) :
    IgnoresPress fun s => thenDo (o s) k := by
  intro latched port s t h
  obtain ⟨u, hu, ht⟩ := thenDo_eq_next.1 h
  exact thenDo_eq_next.2 ⟨_, ho latched port s u hu, hk latched port u t ht⟩

theorem IgnoresPress.seRead : IgnoresPress seRead := by
  intro latched port s t h
  rcases seRead_cases s with ⟨hl, hr, e⟩ | ⟨d, -, -, e⟩
  · cases e.symm.trans h
    exact seRead_of_finite hl hr
  · cases e.symm.trans h

theorem srPredly_of_finite (h : (srPreDelay s.cfg).isFinite = true) :
    srPredly s = .next ((s.setSr { s.sr with pd := Stereo.zip (dlWrite s.cfg.srCap) s.sr.pd s.wires.sr.h }).setSrWires
      { s.wires.sr with p := s.sr.pd.map fun dl => dlRead s.cfg.srCap dl (srPreDelay s.cfg) }) := by
  rw [srPredly, h]
  rfl

theorem IgnoresPress.srPredly : IgnoresPress srPredly := by
  intro latched port s t h
  rcases srPredly_cases s with ⟨hf, e⟩ | ⟨-, e⟩
  · cases e.symm.trans h
    exact srPredly_of_finite hf
  · cases e.symm.trans h

/-- A stage reads its mode's state, the configuration and the wires. -/
theorem IgnoresPress.stageRow {i : Instr} (hi : i ∈ stageRows m) : IgnoresPress (exec i) := by
  cases m <;> simp only [stageRows, List.mem_cons, List.not_mem_nil, or_false] at hi
  case fd => rcases hi with rfl | rfl | rfl | rfl | rfl <;> exact .next fun _ _ _ => rfl
  case se =>
    rcases hi with rfl | rfl | rfl | rfl | rfl | rfl
    case inr.inl => exact .seRead
    all_goals exact .next fun _ _ _ => rfl
  case sr =>
    rcases hi with rfl | rfl | rfl | rfl | rfl | rfl | rfl
    case inr.inl => exact .srPredly
    all_goals exact .next fun _ _ _ => rfl
  case sh => rcases hi with rfl | rfl | rfl | rfl | rfl | rfl | rfl <;> exact .next fun _ _ _ => rfl

theorem IgnoresPress.runRows {rows : List Instr} (h : ∀ i ∈ rows, IgnoresPress (exec i)) :
    IgnoresPress (runRows rows) := by
  induction rows with
  | nil => exact .next fun _ _ _ => rfl
  | cons i rest ih =>
    obtain ⟨first, others⟩ := List.forall_mem_cons.1 h
    exact first.thenDo (ih others)

/-- GUARD looks at the output pair, and resets a mode from the configuration (R200). -/
theorem guardOutput_setPress (m : Mode) (latched port : Bool) (s : State) :
    guardOutput m (s.setPress latched port) = (guardOutput m s).setPress latched port := by
  have y : (s.setPress latched port).wires.y = s.wires.y := rfl
  by_cases passes : guardMask s.wires.y = 0#2
  · rw [guardOutput, guardOutput, y, if_pos passes, if_pos passes]
  · rw [guardOutput, guardOutput, y, if_neg passes, if_neg passes]
    cases m <;> rfl

/-- One sample of a mode: its stages, then GUARD (R435). -/
theorem IgnoresPress.processMode (m : Mode) : IgnoresPress (processMode m) := by
  rw [funext (processMode_eq_stages m)]
  exact (runRows fun _ => .stageRow).thenDo (.next (guardOutput_setPress m))

theorem IgnoresPress.engDispatch : IgnoresPress engDispatch := fun latched port s =>
  processMode s.xf.active latched port s

theorem IgnoresPress.runFrame (n : Nat) (f : Stereo F32) : IgnoresPress (runFrame n f) :=
  thenDo (o := fun s => Machine.engDispatch (engIngain ((s.setSeq (.sample n)).setWires { s.wires with inp := f })))
    (fun latched port _ => engDispatch latched port _) (.next fun _ _ _ => rfl)

theorem IgnoresPress.runFrames (frames : List (Stereo F32)) (n : Nat) : IgnoresPress (runFrames n frames) := by
  induction frames generalizing n with
  | nil => exact .next fun _ _ _ => rfl
  | cons f rest ih => exact (runFrame n f).thenDo (ih (n + 1))

/-- The control updates read the knobs, switches and encoder delta (R433). -/
theorem engUpdate_setPress (latched port : Bool) (s : State) :
    engUpdate (s.setPress latched port) = (engUpdate s).setPress latched port := by
  change updateMode s.xf.active (s.setPress latched port) = (updateMode s.xf.active s).setPress latched port
  cases s.xf.active <;> rfl

theorem swAdvance_setPress (h : s.xf.state ≠ .steady) (latched port : Bool) :
    swAdvance (s.setPress latched port) = (swAdvance s).setPress latched port := by
  change (s.setPress latched port).setXf (xfAdvance s.cfg.xfStep latched s.xf) = _
  rw [(xfAdvance_of_fading h latched s.snap.press).1]
  rfl

/-! A press while fading (R404). -/

/-- The CTRL part of a block that meets a fade (R431). -/
theorem runCtrl_setPress (h : s.xf.state ≠ .steady) (press : Bool) (k : Snapshot) (frames : List (Stereo F32)) :
    runCtrl (acceptBlock { k with press := press } frames s) =
      (runCtrl (acceptBlock k frames s)).setPress press press := by
  have latch : engRead (acceptBlock { k with press := press } frames s) =
    (engRead (acceptBlock k frames s)).setPress press press := rfl
  have fading : (engUpdate (engRead (acceptBlock k frames s))).xf.state ≠ .steady := by
    rw [(frame_engUpdate _).xf]
    exact h
  rw [runCtrl, latch, engUpdate_setPress, swAdvance_setPress fading]
  rfl

/-- A block with another press edge, in a fade: only the latched edge differs at its end. -/
theorem runBlock_press (h : s.xf.state ≠ .steady) (press : Bool) {k : Snapshot} {frames : List (Stereo F32)}
    (e : runBlock k frames s = .next t) :
    runBlock { k with press := press } frames s = .next { t with snap := { t.snap with press := press } } := by
  obtain ⟨u, hu, rfl⟩ := runBlock_eq_next.1 e
  refine runBlock_eq_next.2 ⟨u.setPress press press, ?_, rfl⟩
  rw [runCtrl_setPress h]
  exact IgnoresPress.runFrames frames 0 press press _ u hu

/-- An accepted BLOCK runs on its operands read as data, the press being one of them (R431). -/
theorem exec_block_press {swl swr : BitVec 2} {ktop kbot : Word} (h : blockAccepted swl swr ktop kbot = true)
    (enc : BitVec 16) (frames : List (Stereo Word)) (s : State) :
    ∃ k : Snapshot, ∀ press, exec (.block enc press swl swr ktop kbot frames) s =
      runBlock { k with press := press } (frames.map (Stereo.map F32.ofBits)) s := by
  simp only [blockAccepted, switchOk, Bool.and_eq_true, and_assoc, Option.isSome_iff_exists] at h
  obtain ⟨⟨l, hl⟩, ⟨r, hr⟩, top, bottom⟩ := h
  refine ⟨⟨.ofBits ktop, .ofBits kbot, enc, false, l, r⟩, fun press => ?_⟩
  change execBlock enc press swl swr ktop kbot frames s = _
  rw [execBlock, hl, hr, top, bottom]
  rfl

/-- Settles O15: in a fade the switcher does not look at the press, and nothing else in a block does. -/
theorem pressWhileFadingIsIgnored : Obligations.PressWhileFadingIsIgnored := by
  intro s press fading
  refine ⟨fun t h => ?_, fun t h => ?_, fun enc swl swr ktop kbot frames t accepted h => ?_⟩
  · obtain rfl : swAdvance s = t := Host.Outcome.next.inj h
    exact ⟨(xfAdvance_of_fading fading _ press).2, congrArg _ (swAdvance_setPress fading press s.ports.ctl.press)⟩
  · obtain rfl : engUpdate s = t := Host.Outcome.next.inj h
    have frame := frame_engUpdate s
    refine congrArg Host.Outcome.next ((engUpdate_setPress press s.ports.ctl.press s).trans ?_)
    rw [State.setPress, frame.snap, frame.ports]
    rfl
  · obtain ⟨k, runs⟩ := exec_block_press accepted enc frames s
    rw [runs false] at h
    rw [runs press]
    exact runBlock_press (k := { k with press := false }) fading press h

/-! The swap (R405). -/

/-- A fade-out step that changes the active mode is the swap. -/
theorem xfFadeOut_swaps (h : (xfFadeOut step xf).active ≠ xf.active) : SwappedTo xf.pending (xfFadeOut step xf) := by
  cases below : (fadeOutVolume step xf.volume).le xfThresh with
  | true =>
    rw [xfFadeOut_of_le below]
    exact ⟨rfl, rfl, below⟩
  | false =>
    rw [xfFadeOut_of_not_le below] at h
    exact absurd rfl h

/-- The switcher changes the active mode only at the end of a fade-out. -/
theorem xfAdvance_swaps {press : Bool} (h : (xfAdvance step press xf).active ≠ xf.active) :
    xf.state = .fadingOut ∧ SwappedTo xf.pending (xfAdvance step press xf) := by
  cases e : xf.state with
  | steady =>
    cases press with
    | true => rw [xfAdvance_press e] at h; exact absurd rfl h
    | false => rw [xfAdvance_steady e] at h; exact absurd rfl h
  | fadingOut =>
    rw [xfAdvance_fadingOut press e] at h ⊢
    exact ⟨rfl, xfFadeOut_swaps h⟩
  | fadingIn =>
    rw [xfAdvance_fadingIn press e] at h
    exact absurd (xfFadeIn_modes step xf).1 h

/-- A block moves the switcher by one step (R431). -/
theorem runBlock_xf {k : Snapshot} {frames : List (Stereo F32)} (h : runBlock k frames s = .next t) :
    t.xf = xfAdvance s.cfg.xfStep k.press s.xf := by
  obtain ⟨u, hu, rfl⟩ := runBlock_eq_next.1 h
  obtain ⟨-, xf, -, -⟩ := runCtrl_acceptBlock k frames s
  obtain ⟨q, samples⟩ := frame_runFrames hu
  exact samples.xf.trans xf

/-- Settles O29: RESET and the switcher's steps are the only rows that write `xf.active`. -/
theorem activeModeChangesOnlyAtASwap : Obligations.ActiveModeChangesOnlyAtASwap := by
  intro i s t h changed
  have kept : t.xf ≠ s.xf := mt (congrArg Xf.active) changed
  have hm : modeOfRow i = none := Option.eq_none_iff_forall_ne_some.2 fun m hm => kept (frame_exec hm h).xf
  cases i <;> cases hm
  case reset =>
    cases h
    obtain ⟨-, xf, -, -, -, -⟩ := resetEngine_parts s
    exact .inl ⟨rfl, congrArg Xf.active xf⟩
  case block =>
    rcases execBlock_cases h with ⟨e, rfl⟩ | ⟨k, fs, -, hb⟩
    · exact absurd rfl kept
    · rw [runBlock_xf hb] at changed ⊢
      obtain ⟨out, state, active, volume⟩ := xfAdvance_swaps changed
      exact .inr ⟨active, state, volume, .inr ⟨out, .inr ⟨_, _, _, _, _, _, _, rfl⟩⟩⟩
  case swAdvance =>
    cases h
    obtain ⟨out, state, active, volume⟩ := xfAdvance_swaps changed
    exact .inr ⟨active, state, volume, .inr ⟨out, .inl rfl⟩⟩
  case swFadeout =>
    cases h
    obtain ⟨state, active, volume⟩ := xfFadeOut_swaps changed
    exact .inr ⟨active, state, volume, .inl rfl⟩
  case swFadein => cases h; exact absurd (xfFadeIn_modes s.cfg.xfStep s.xf).1 changed
  case engUpdate => cases h; exact absurd (frame_engUpdate s).xf kept
  case engDispatch => exact absurd (frame_engDispatch h).xf kept
  case guard => cases h; exact absurd (frame_guardOutput _ s).xf kept
  case engRead | smooth | acc | engIngain | engWidth | engXfade | engLimit | ind => cases h; exact absurd rfl kept

end Sys2Proof.Machine
end

section
/-! PROOFS. The engine family (46_engine.md), first part: RESET, the engine's rows, the rows that SEL picks, the finite output
pair, the limiter and BLOCK's refusals (R430 to R438, R511). -/

namespace Sys2Proof.Machine

open F32

variable {m : Mode} {s t : State} {k : F32}

/-! RESET (R430). -/

/-- The state changes of RESET, field by field: nothing they write depends on more than the configuration. -/
theorem resetEngine_eq (s : State) : resetEngine s = { s with
    seq := .idle, snap := .s0, xf := .reset, lim := limiterInit
    fd := fdInit s.cfg, se := seInit s.cfg, sr := srInit s.cfg, sh := shInit s.cfg } := rfl

/-- RESET also clears the command's payload and local values, and updates the indicator. -/
theorem exec_reset (s : State) : exec .reset s = .next { s with
    seq := .idle, snap := .s0, xf := .reset, lim := limiterInit
    fd := fdInit s.cfg, se := seInit s.cfg, sr := srInit s.cfg, sh := shInit s.cfg
    ports := { s.ports with ctl := .s0, ain := [], ind := indicatorOf .reset }, wires := .idle } := by
  change Host.Outcome.next (finishCommand (resetEngine s)) = _
  rw [resetEngine_eq]
  rfl

/-- Settles O10: what RESET writes is a function of the configuration, which it keeps, and is what a model starts with. -/
theorem resetTwiceIsResetOnce : Obligations.ResetTwiceIsResetOnce := by
  refine ⟨fun s t h => ?_, exec_reset State.reset, rfl, rfl⟩
  rw [exec_reset] at h
  cases h
  exact exec_reset _

/-! The rows of the engine (R432, R434, R436, R437). -/

/-- Settles O18: the rows are their definitions. -/
theorem engineRowResults : Obligations.EngineRowResults := fun _ => ⟨rfl, rfl, rfl, rfl, rfl, rfl⟩

/-! The rows that SEL picks (R142, R433, R435). -/

/-- M alone names the update row and the process row, whatever the switches are. -/
theorem decodeRow_of_mode (right left : BitVec 2) (m : Mode) :
    decodeRow .update (right ++ left ++ m.toBits) = some (updateRow m) ∧
    decodeRow .process (right ++ left ++ m.toBits) = some (processRow m) := by
  revert right left
  cases m <;> decide

/-- One sample of a mode completes where the delays it reads are finite (R186). -/
theorem processMode_completes
    (echo : m = .se → (seDelays s.cfg s.se).l.isFinite = true ∧ (seDelays s.cfg s.se).r.isFinite = true)
    (preDelay : m = .sr → (srPreDelay s.cfg).isFinite = true) : ∃ t, processMode m s = .next t := by
  cases m with
  | fd => exact ⟨_, rfl⟩
  | se => exact seProcess_next (echo rfl).1 (echo rfl).2
  | sr => exact srProcess_next (preDelay rfl)
  | sh => exact ⟨_, rfl⟩

/-- Settles O21: the selector carries the active mode in M, and the two engine rows are that mode's update and process. -/
theorem engineRunsTheRowsSelPicks : Obligations.EngineRunsTheRowsSelPicks := by
  intro s
  obtain ⟨update, process⟩ :=
    decodeRow_of_mode (rightCode s s.xf.active).toBits (leftCode s s.xf.active).toBits s.xf.active
  refine ⟨⟨updateRow s.xf.active, engUpdate s, update, (exec_updateRow _ s).symm, rfl, ?_⟩,
    ⟨processRow s.xf.active, process, (exec_processRow _ s).symm, ?_⟩, processMode_completes⟩
  · cases s.xf.active <;> rfl
  · cases s.xf.active <;> rfl

/-! The output pair (R435). -/

/-- GUARD leaves a finite pair (R200). -/
theorem guardOutput_finite (m : Mode) (s : State) :
    (guardOutput m s).wires.y.l.isFinite = true ∧ (guardOutput m s).wires.y.r.isFinite = true := by
  rcases guardOutput_cases m s with ⟨hl, hr, e⟩ | e <;> rw [e]
  · exact ⟨hl, hr⟩
  · exact ⟨rfl, rfl⟩

/-- Settles O22: every mode's sample ends in GUARD. -/
theorem dispatchedPairIsFinite : Obligations.DispatchedPairIsFinite := by
  intro s t h
  obtain ⟨u, -, e⟩ := thenDo_eq_next.1 ((processMode_eq_stages s.xf.active s).symm.trans h)
  cases e
  exact guardOutput_finite s.xf.active u

/-! The limiter (R438). -/

theorem length_limiterProcess (ceil pregain : F32) (lim : LimiterState) (frames : List (Stereo F32)) :
    (limiterProcess ceil pregain lim frames).2.length = frames.length := Config.limiter.length _ _ _ _

/-- Settles O23: the unit's contract, and a ceiling of at most 1.0. -/
theorem limiterKeepsTheCeiling : Obligations.LimiterKeepsTheCeiling := by
  refine fun s => ⟨_, _, rfl, rfl, length_limiterProcess _ _ _ _, fun hc finite f hf => ?_⟩
  obtain ⟨-, positive, atMost⟩ := output_of_ok hc
  have frames : s.wires.frame.all Stereo.isFinite = true :=
    List.all_eq_true.2 fun f hf => (Bool.and_eq_true _ _).mpr (finite f hf)
  have bounded := Config.limiter.bounded _ (s.cfg.gLim.at s.xf.active) s.lim.sig _ positive atMost frames
  obtain ⟨l, r⟩ := (Bool.and_eq_true _ _).mp (List.all_eq_true.1 bounded f hf)
  exact ⟨l, r, le_trans l atMost, le_trans r atMost⟩

/-! BLOCK's refusals (R511). -/

/-- A number outside [0, 1] is no knob value (R139). -/
theorem knobInRange_eq_false (h : k.isFinite = false ∨ k.lt .zero = true ∨ one.lt k = true) : knobInRange k = false := by
  rw [← Bool.not_eq_true]
  intro ok
  simp only [knobInRange, Bool.and_eq_true] at ok
  obtain ⟨⟨finite, low⟩, high⟩ := ok
  have number := isNaN_of_isFinite k finite
  rcases h with h | h | h
  · rw [finite] at h; cases h
  · rw [lt_eq_not_le number rfl, low] at h; cases h
  · rw [lt_eq_not_le rfl number, high] at h; cases h

/-- Every switch code but 3 stands for a position (R135). -/
theorem exists_swPos_of_ne_three : ∀ b : BitVec 2, b ≠ 3#2 → ∃ p, SwPos.ofBits b = some p := by
  simp only [← Option.isSome_iff_exists]
  decide

/-- With legal switch codes a BLOCK is refused for a knob out of range (R431). -/
theorem exec_block_knobRange {swl swr : BitVec 2} {ktop kbot : Word} (hl : swl ≠ 3#2) (hr : swr ≠ 3#2)
    (h : (knobOk ktop && knobOk kbot) = false) (enc : BitVec 16) (press : Bool) (frames : List (Stereo Word)) (s : State) :
    exec (.block enc press swl swr ktop kbot frames) s = .next (refuse (.knobRange ktop kbot) s) := by
  change execBlock enc press swl swr ktop kbot frames s = _
  obtain ⟨l, el⟩ := exists_swPos_of_ne_three swl hl
  obtain ⟨r, er⟩ := exists_swPos_of_ne_three swr hr
  rw [execBlock, el, er, h]
  rfl

/-- Settles O5: the switch codes are looked at before the knobs. -/
theorem blockRefusalsInOrder : Obligations.BlockRefusalsInOrder := by
  refine fun s enc press swl swr ktop kbot frames => ⟨fun code => exec_block_badSwitchCode code ktop kbot frames s,
    fun hl hr ⟨k, mem, out⟩ => exec_block_knobRange hl hr ?_ enc press frames s⟩
  have refused : knobOk k = false := knobInRange_eq_false out
  rcases List.mem_pair.1 mem with rfl | rfl
  · rw [refused, Bool.false_and]
  · rw [refused, Bool.and_false]

end Sys2Proof.Machine
end

section
/-! PROOFS. The engine family (46_engine.md), second part: an accepted BLOCK as its rows in their order, and its completion
(R431, R440, R509). -/

namespace Sys2Proof.Machine

variable {m : Mode} {s t : State} {k : Snapshot} {frames : List (Stereo F32)}

/-! The rows of a BLOCK (R431). -/

/-- The CTRL part is its three rows. -/
theorem runRows_ctrl (s : State) : runRows [.engRead, .engUpdate, .swAdvance] s = .next (runCtrl s) := rfl

/-- One frame is its four rows. -/
theorem runRows_frame (n : Nat) (f : Stereo F32) (s : State) :
    runRows [.engIngain, .engDispatch, .engWidth, .engXfade]
      { s with seq := .sample n, wires := { s.wires with inp := f } } = runFrame n f s := rfl

theorem runFrameRows_eq (frames : List (Stereo F32)) : ∀ n s, runFrameRows n frames s = runFrames n frames s := by
  induction frames with
  | nil => exact fun _ _ => rfl
  | cons f rest ih =>
    intro n s
    rw [runFrameRows, runFrames, runRows_frame]
    exact congrArg _ (funext (ih (n + 1)))

/-- The LIMIT part is ENG.LIMIT, the emission, and IND in the idle state. -/
theorem runLimit_rows (s : State) :
    (thenDo (exec .engLimit { s with seq := .limit }) fun t => exec .ind { t with
      seq := .idle, wires := .idle
      ports := { t.ports with ctl := .s0, ain := [], aout := t.ports.aout ++ t.wires.out } }) = .next (runLimit s) := rfl

theorem swPos_ofBits_toBits (p : SwPos) : SwPos.ofBits p.toBits = some p := by cases p <;> rfl

/-- Settles O24: the checks pass, and each part of the block is its rows. -/
theorem blockIsItsTableRows : Obligations.BlockIsItsTableRows := by
  intro s enc press swl swr ktop kbot frames top bottom
  change execBlock enc press swl.toBits swr.toBits ktop kbot frames s = _
  rw [execBlock, swPos_ofBits_toBits, swPos_ofBits_toBits, top, bottom]
  simp only [runRows_ctrl, thenDo_next, runFrameRows_eq, runLimit_rows]
  rfl

/-! What a sample needs to complete, and keeps (R186). -/

/-- The active mode's read delays are finite, and stay so through the frames of a block. -/
structure DelaysTame (s : State) : Prop where
  echo : s.xf.active = .se → EchoBounded s.cfg s.se
  preDelay : s.xf.active = .sr → (srPreDelay s.cfg).isFinite = true

/-- What leaves the switcher and the configuration alone, and in SpaceEcho the bounds, keeps tame delays tame. -/
theorem DelaysTame.of_frame (h : DelaysTame s) (f : ModeFrame m s t) (echo : s.xf.active = .se → EchoBounded t.cfg t.se) :
    DelaysTame t :=
  ⟨fun e => echo (f.xf ▸ e), fun e => f.cfg ▸ h.preDelay (f.xf ▸ e)⟩

/-- ENG.DISPATCH completes where the delays are tame, and leaves them tame (R435). -/
theorem DelaysTame.engDispatch (h : DelaysTame s) : ∃ t, engDispatch s = .next t ∧ DelaysTame t := by
  by_cases active : s.xf.active = .se
  · obtain ⟨t, ht, bounded⟩ := (h.echo active).process
    have dispatched : Machine.engDispatch s = .next t := by rw [Machine.engDispatch, active]; exact ht
    exact ⟨t, dispatched, h.of_frame (frame_engDispatch dispatched) fun _ => bounded⟩
  · obtain ⟨t, ht⟩ := processMode_completes (fun e => absurd e active) h.preDelay
    exact ⟨t, ht, h.of_frame (frame_engDispatch ht) fun e => absurd e active⟩

/-- A mode's sample leaves the collected frames alone. -/
theorem SameBus.of_processMode (h : processMode m s = .next t) : SameBus s t := by
  rw [processMode_eq_stages] at h
  obtain ⟨u, hu, e⟩ := thenDo_eq_next.1 h
  cases e
  exact (SameBus.of_stageRows (fun _ => stageRows_ofMode) hu).trans (.of_guardOutput m u)

/-- One frame completes and adds one frame to those collected (R437). -/
theorem DelaysTame.runFrame (h : DelaysTame s) (n : Nat) (f : Stereo F32) :
    ∃ t, runFrame n f s = .next t ∧ DelaysTame t ∧ t.wires.frame.length = s.wires.frame.length + 1 := by
  have gained : DelaysTame (engIngain ((s.setSeq (.sample n)).setWires { s.wires with inp := f })) := ⟨h.echo, h.preDelay⟩
  obtain ⟨u, hu, tame⟩ := gained.engDispatch
  have bus := SameBus.of_processMode hu
  refine ⟨_, thenDo_eq_next.2 ⟨u, hu, rfl⟩, ⟨tame.echo, tame.preDelay⟩, ?_⟩
  exact List.length_append.trans (congrArg (List.length · + 1) bus.2)

theorem DelaysTame.runFrames (h : DelaysTame s) (n : Nat) (frames : List (Stereo F32)) :
    ∃ t, runFrames n frames s = .next t ∧ t.wires.frame.length = s.wires.frame.length + frames.length := by
  induction frames generalizing n s with
  | nil => exact ⟨s, rfl, rfl⟩
  | cons f rest ih =>
    obtain ⟨u, hu, tame, one⟩ := h.runFrame n f
    obtain ⟨t, ht, others⟩ := ih tame (n + 1)
    refine ⟨t, thenDo_eq_next.2 ⟨u, hu, ht⟩, ?_⟩
    rw [others, one, List.length_cons]
    omega

/-! The CTRL part of a BLOCK. -/

/-- SpaceEcho after the control update: updated where it was active, else as it was (R433). -/
theorem EchoBounded.engUpdate (h : echoTame s = true) (top : inUnit s.snap.ktop = true) :
    EchoBounded s.cfg (engUpdate s).se := by
  by_cases active : s.xf.active = .se
  · rw [Machine.engUpdate, active]
    exact bounded_seUpdated h top
  · rw [(frame_engUpdate s).se active]
    exact (bounded_of_echoTame h).1

/-- Tame settings make tame delays for the frames of a block (R431). -/
theorem DelaysTame.runCtrl (hk : k.ok = true)
    (echo : (xfAdvance s.cfg.xfStep k.press s.xf).active = .se → echoTame s = true)
    (preDelay : (xfAdvance s.cfg.xfStep k.press s.xf).active = .sr → (srPreDelay s.cfg).isFinite = true) :
    DelaysTame (runCtrl (acceptBlock k frames s)) := by
  obtain ⟨cfg, xf, -, -⟩ := runCtrl_acceptBlock k frames s
  obtain ⟨top, -⟩ := (Bool.and_eq_true _ _).mp hk
  refine ⟨fun active => ?_, fun active => ?_⟩
  · rw [cfg]
    rw [xf] at active
    exact EchoBounded.engUpdate (s := engRead (acceptBlock k frames s)) (echo active) (positiveZero_inUnit top)
  · rw [cfg]
    rw [xf] at active
    exact preDelay active

/-! Completion (R440, R509). -/

/-- What no part of a BLOCK touches but its end: the refusal mark, the command stream and the row port. -/
theorem runBlock_keeps (h : runBlock k frames s = .next t) :
    t.refused = s.refused ∧ t.ports.cmd = s.ports.cmd ∧ t.row = s.row := by
  obtain ⟨u, hu, rfl⟩ := runBlock_eq_next.1 h
  have update := frame_engUpdate (engRead (acceptBlock k frames s))
  obtain ⟨q, samples⟩ := frame_runFrames hu
  have cmd := congrArg Ports.cmd update.ports
  exact ⟨samples.refused.trans update.refused, (congrArg Ports.cmd samples.ports).trans cmd, samples.row.trans update.row⟩

/-- The end of a BLOCK (R431, R440): one frame out for each collected, the sequencer idle, the indicator as IND leaves it. -/
theorem runLimit_result (s : State) :
    (∃ out, out.length = s.wires.frame.length ∧ (runLimit s).ports.aout = s.ports.aout ++ out) ∧
    (runLimit s).seq = .idle ∧ (runLimit s).ports.ind = indicatorOf (runLimit s).xf :=
  ⟨⟨_, length_limiterProcess _ _ _ _, rfl⟩, rfl, rfl⟩

/-- A BLOCK whose frames find tame delays completes, with one output frame for each input frame. -/
theorem runBlock_completes (h : DelaysTame (runCtrl (acceptBlock k frames s))) :
    ∃ t, runBlock k frames s = .next t ∧
      (∃ out, out.length = frames.length ∧ t.ports.aout = s.ports.aout ++ out) ∧
      t.seq = .idle ∧ t.ports.ind = indicatorOf t.xf := by
  obtain ⟨u, hu, collected⟩ := h.runFrames 0 frames
  obtain ⟨-, -, aout, frame⟩ := runCtrl_acceptBlock k frames s
  obtain ⟨q, samples⟩ := frame_runFrames hu
  obtain ⟨⟨out, len, emitted⟩, rest⟩ := runLimit_result u
  refine ⟨_, runBlock_eq_next.2 ⟨u, hu, rfl⟩, ⟨out, ?_, ?_⟩, rest⟩
  · rw [len, collected, frame, List.length_nil, Nat.zero_add]
  · rw [emitted]
    exact congrArg (· ++ out) ((congrArg Ports.aout samples.ports).trans aout)

/-- Settles O25: the frames find tame delays, each adds one frame, and nothing in the block stops or touches the rest. -/
theorem blockCompletes : Obligations.BlockCompletes := by
  intro s enc press swl swr ktop kbot frames accepted echo preDelay
  obtain ⟨l, r, e⟩ := exec_block_of_accepted accepted enc press frames s
  obtain ⟨⟨-, top⟩, bottom⟩ : (_ ∧ knobOk ktop = true) ∧ knobOk kbot = true := by
    simpa only [blockAccepted, Bool.and_eq_true] using accepted
  have knobs := Snapshot.ok_of_knobOk enc press l r top bottom
  obtain ⟨t, ht, out, seq, ind⟩ := runBlock_completes (DelaysTame.runCtrl knobs echo preDelay)
  obtain ⟨refused, cmd, row⟩ := runBlock_keeps ht
  rw [List.length_map] at out
  exact ⟨t, e.trans ht, out, seq, ind, runBlock_xf ht, refused, cmd, (Extends.of_runBlock ht).cfg, row⟩

end Sys2Proof.Machine
end

section
/-! PROOFS. The exceptions and reset families (60_exceptions.md, 70_reset_and_hazards.md): the only ways a step stops (R186,
R511), what RESET leaves (R541), and the invariants at the state after reset (R543). -/

namespace Sys2Proof

/-- A command is rejected for its own bits, never for want of a row (R132, R136). -/
theorem decodeCommand_ne_noRow (n : Nat) (words rest : List Word) (slot : Slot) (sel : BitVec 6) :
    decodeCommand n words ≠ .rejected (.noRow slot sel) rest := by
  unfold decodeCommand
  split
  · nofun
  · split_ifs
    · nofun
    · nofun
    · nofun
    · split <;> nofun
    · nofun
    · nofun

/-- `noRow` answers a selector, and one that no row fits (R143). -/
theorem decode_eq_noRow {n : Nat} {code : Code} {slot : Slot} {sel : BitVec 6} {rest : List Word}
    (h : decode n code = .rejected (.noRow slot sel) rest) : code = .select slot sel ∧ decodeRow slot sel = none := by
  cases code with
  | command words => exact absurd h (decodeCommand_ne_noRow n words rest slot sel)
  | select slot' sel' =>
    rw [decode] at h
    cases row : decodeRow slot' sel' with
    | some i => rw [row] at h; cases h
    | none => rw [row] at h; cases h; exact ⟨rfl, row⟩

namespace Machine

variable {s : State} {o : Result}

/-! What an instruction can answer. -/

/-- The answer goes on, or is the stop of a delay that is not finite (R186, R511). -/
def NextOrDelayStop (o : Result) : Prop :=
  (∃ t, o = .next t) ∨ ∃ d, o = .fault (.unmodelledDelay d) ∧ d.isFinite = false

theorem NextOrDelayStop.next (t : State) : NextOrDelayStop (.next t) := .inl ⟨t, rfl⟩

theorem NextOrDelayStop.fault {d : F32} (h : d.isFinite = false) : NextOrDelayStop (.fault (.unmodelledDelay d)) :=
  .inr ⟨d, rfl, h⟩

/-- A stop of the first operation is the stop of the whole; otherwise the second one answers. -/
theorem NextOrDelayStop.thenDo {k : State → Result} (ho : NextOrDelayStop o) (hk : ∀ t, NextOrDelayStop (k t)) :
    NextOrDelayStop (thenDo o k) := by
  rcases ho with ⟨t, rfl⟩ | ⟨d, rfl, hd⟩
  · exact hk t
  · exact fault hd

theorem NextOrDelayStop.seRead (s : State) : NextOrDelayStop (seRead s) := by
  rcases seRead_cases s with ⟨-, -, e⟩ | ⟨d, -, hd, e⟩ <;> rw [e]
  · exact next _
  · exact fault hd

theorem NextOrDelayStop.srPredly (s : State) : NextOrDelayStop (srPredly s) := by
  rcases srPredly_cases s with ⟨-, e⟩ | ⟨hd, e⟩ <;> rw [e]
  · exact next _
  · exact fault hd

/-- One sample of a mode: of the stages only the delay reads can stop it (R435). -/
theorem NextOrDelayStop.processMode (m : Mode) (s : State) : NextOrDelayStop (processMode m s) := by
  cases m with
  | fd => exact next _
  | se => exact (seRead _).thenDo fun _ => next _
  | sr => exact (srPredly _).thenDo fun _ => next _
  | sh => exact next _

theorem NextOrDelayStop.runFrames (frames : List (Stereo F32)) :
    ∀ n s, NextOrDelayStop (runFrames n frames s) := by
  induction frames with
  | nil => exact fun _ s => next s
  | cons f rest ih => exact fun n s => ((processMode _ _).thenDo fun _ => next _).thenDo (ih (n + 1))

/-- A BLOCK is refused, which goes on (R510), or runs its frames (R431). -/
theorem NextOrDelayStop.execBlock (enc : BitVec 16) (press : Bool) (swl swr : BitVec 2) (ktop kbot : Word)
    (frames : List (Stereo Word)) (s : State) : NextOrDelayStop (execBlock enc press swl swr ktop kbot frames s) := by
  unfold Machine.execBlock
  split
  · split
    · exact (runFrames _ 0 _).thenDo fun _ => next _
    · exact next _
  · exact next _

/-- Every instruction has a meaning, and only what reads a delay line can stop. -/
theorem NextOrDelayStop.exec (i : Instr) (s : State) : NextOrDelayStop (exec i s) := by
  cases i
  case block => exact execBlock ..
  case seRead => exact seRead s
  case srPredly => exact srPredly s
  case seProcess => exact processMode .se s
  case srProcess => exact processMode .sr s
  case engDispatch => exact processMode _ s
  all_goals exact next _

/-- A selector comes from the row port alone. -/
theorem row_of_nextCode_eq_select {slot : Slot} {sel : BitVec 6} (h : nextCode s = .select slot sel) :
    s.row = some (slot, sel) := by
  cases row : s.row with
  | none => cases (nextCode_of_row_none row).symm.trans h
  | some r =>
    rw [nextCode, row] at h
    cases h
    rfl

/-- Settles O58: a step waits, refuses a command and goes on, meets a selector that no row fits, or runs an
instruction. -/
theorem stepStopsOnlyAsStated : Obligations.StepStopsOnlyAsStated := by
  intro s
  unfold step
  split
  next => exact .inl ⟨s, rfl⟩
  next why rest rejected =>
    cases why with
    | badOpcode cw => exact .inl ⟨_, rfl⟩
    | reservedBits cw => exact .inl ⟨_, rfl⟩
    | noRow slot sel =>
      obtain ⟨code, unfit⟩ := decode_eq_noRow rejected
      exact .inr (.inr ⟨slot, sel, row_of_nextCode_eq_select code, unfit, rfl⟩)
  next i rest _ => exact (NextOrDelayStop.exec i (consume rest s)).imp_right .inl

/-! The state after reset. -/

/-- Settles O9: the initial configurations of the modes, the reset snapshot and switcher, spelled out. -/
theorem resetState : Obligations.ResetState := fun s => exec_reset s

/-- What the resets establish of every part holds of the state after reset. -/
theorem Parts.Closed.holds_reset {I : Parts} (hI : I.Closed State.reset.cfg) : I.Holds State.reset where
  ctl := hI.idle
  snap := hI.idle
  xf := hI.steady
  mode m := by
    have initial := hI.init m State.reset rfl
    cases m <;> exact initial

/-- Settles O59: the parameters carry their constraints, and the invariants by parts hold where RESET leaves each part. -/
theorem resetMeetsTheInvariants : Obligations.ResetMeetsTheInvariants := by
  have ok : State.reset.cfg.ok = true := Config.params.ok
  have ranges : (rangeParts False).Holds State.reset := (rangeParts_closed ok False.elim).holds_reset
  exact ⟨ok, memoryParts_holds_iff.1 (memoryParts_closed _).holds_reset, (rangeParts_holds_iff.1 ranges).1,
    (fadeParts_closed State.reset.cfg).steady, (srInit_ranges True _).pitchSm trivial, Config.params.inRange⟩

end Machine
end Sys2Proof
end
